-- ==== Sys2Proof/Word.lean ====
section
/-! DEFINITION. The block's two data widths: a register is 32 bits (00_scope R11), a memory byte is 8 bits (00_scope R12). -/

namespace Sys2Proof

/-- A register value, an address or a command word: 32 bits, unsigned (R11). -/
abbrev Word := BitVec 32

/-- A byte of `CAR`, `MSG` or `OUT`: 8 bits, always read as unsigned (R12). -/
abbrev Byte := BitVec 8

end Sys2Proof
end

