-- ==== Sys2Proof/Machine/Codec.lean ====
section
/-! DEFINITION. The Bit Codec's pure functions (42_bitcodec R120 to R127): serialise, deserialise, parity and adjust. A
bit is a Bool, 1 being true. -/

namespace Sys2Proof.Machine

/-- The byte's bit `7 - k`: bit `k` of its group, most-significant first (R120). -/
def msbBit (b : Byte) (k : Nat) : Bool := b.getLsbD (7 - k)

/-- `toBits(s)`: 8 bits for each byte, bit 7 first (R120). -/
def toBits : List Byte → List Bool
  | [] => []
  | b :: s =>
    msbBit b 0 :: msbBit b 1 :: msbBit b 2 :: msbBit b 3 :: msbBit b 4 :: msbBit b 5 :: msbBit b 6 :: msbBit b 7
      :: toBits s

/-- `ACC <- (ACC * 2 + bit) mod 256` (R122; 43_engine R160). -/
def shiftIn (acc : Byte) (bit : Bool) : Byte := 2#8 * acc + (BitVec.ofBool bit).setWidth 8

/-- The bit's weight `2^(7 - k)` when the bit is 1, else 0 (R122). -/
def weighted (bit : Bool) (k : Nat) : Nat := if bit then 2 ^ (7 - k) else 0

/-- `fromBits(bs)`: each group of 8 bits, weighted `2^7 .. 2^0` and summed, is one byte (R122). The spec defines it on
lengths that are multiples of 8; bits after the last whole group give no byte. -/
def fromBits : List Bool → List Byte
  | b0 :: b1 :: b2 :: b3 :: b4 :: b5 :: b6 :: b7 :: bs =>
    BitVec.ofNat 8 (weighted b0 0 + weighted b1 1 + weighted b2 2 + weighted b3 3 + weighted b4 4 + weighted b5 5
      + weighted b6 6 + weighted b7 7) :: fromBits bs
  | _ => []

/-- `parity(b) = b mod 2`, which is `b[0]` (R124). -/
def parity (b : Byte) : Bool := b.getLsbD 0

/-- `adjust(b, want)`: whether a write occurs, and the byte: unchanged when the parity is right, else incremented modulo
256 (R126, R127). -/
def adjust (b : Byte) (want : Bool) : Bool × Byte :=
  if parity b = want then (false, b) else (true, b + 1#8)

end Sys2Proof.Machine
end

