-- ==== Sys2Proof/Machine/Framer.lean ====
section
/-! DEFINITION. The Message Framer's pure functions (41_framer R110, R112, R115) and the sentinel bytes (00_scope R9). -/

namespace Sys2Proof.Machine

/-- `BOF = 0x42 0x4F 0x46` (00_scope R9; log entry 19). -/
def bof : List Byte := [0x42#8, 0x4F#8, 0x46#8]

/-- `EOF = 0x45 0x4F 0x46` (00_scope R9; log entry 19). -/
def eof : List Byte := [0x45#8, 0x4F#8, 0x46#8]

/-- `frame(M) = "BOF" ++ M ++ "EOF"` (R110). -/
def frame (m : List Byte) : List Byte := bof ++ m ++ eof

/-- Whether `s` begins with "EOF", byte for byte. -/
def startsEof (s : List Byte) : Bool := s.take 3 == eof

/-- `contains_eof(s)`: "EOF" stands at some index of `s` (R112). -/
def containsEof : List Byte → Bool
  | [] => false
  | b :: s => startsEof (b :: s) || containsEof s

/-- `strip_eof(s)`: `s` without its last three bytes (R115; defined where `s` ends in "EOF"). -/
def stripEof (s : List Byte) : List Byte := s.take (s.length - 3)

end Sys2Proof.Machine
end

