-- ==== Sys2Proof/Syntax.lean ====
section
/-! DEFINITION. The commands (one constructor per row of spec/opcode_table.json), and the steps the outside world can
take: the host's accesses (20_memory R50, R58; 10_state R30), the engine's turn, a reset and a power-on. -/

namespace Sys2Proof

/-- The four commands. A command word carries no operand: every operand is a register or a memory (30_encoding R70 to R73). -/
inductive Instr where
  /-- Classify the carrier (40_sniffer R103). -/
  | identify
  /-- Hide the message in the carrier (43_engine R142). -/
  | embed
  /-- Report whether the message is embedded, and whether it would fit (43_engine R150). -/
  | check
  /-- Find and decode a hidden message (43_engine R155). -/
  | extract
  deriving DecidableEq, Repr

/-- The three byte memories (20_memory R50). -/
inductive Space where
  | car
  | msg
  | out
  deriving DecidableEq, Repr

/-- Where a register access goes: the byte offset in `REG` and how many bytes wide the access is (10_state R30). -/
structure RegPort where
  offset : Word
  bytes  : Nat
  deriving DecidableEq, Repr

/-- One access by the host. A memory access is exactly one byte (20_memory R58). -/
inductive HostAccess where
  | regWrite (port : RegPort) (v : Word)
  | regRead (port : RegPort)
  | memWrite (sp : Space) (addr : Word) (b : Byte)
  | memRead (sp : Space) (addr : Word)
  deriving DecidableEq, Repr

/-- Who moves next. Host steps may come between any two engine micro-steps (10_state R40). -/
inductive Turn where
  /-- The engine takes its next micro-step, or nothing happens when `BUSY = 0`. -/
  | engine
  /-- The host makes one access. -/
  | host (a : HostAccess)
  /-- One poll of the host's `wait` loop: read `STATUS`, and come back after an engine turn while bit 0 is 1 (30_encoding R77). -/
  | wait
  /-- A host other than the one the block serves makes an access (20_memory R65). -/
  | secondHost (a : HostAccess)
  /-- The reset input, power staying on (70_reset_and_hazards R200, R201). -/
  | reset
  /-- Power removed and applied again (70_reset_and_hazards R201). -/
  | powerOn
  deriving DecidableEq, Repr

end Sys2Proof
end

