-- ==== Sys2Proof/Decode.lean ====
section
/-! DEFINITION. The command word: its two fields, the decoder (total on all 2^32 words, rejecting by name) and the
encoder (30_encoding R70, R71). The block fetches no instructions: a command is one whole register word, so no byte
order arises (20_memory R57). -/

namespace Sys2Proof

/-- Why a word selects no command. Both reasons lead to `ILLEGAL_COMMAND` (30_encoding R74). -/
inductive Reject where
  /-- `w[31:4] != 0` (R70, R71). -/
  | reservedNonzero
  /-- `w[31:4] = 0` and `w[3:0]` is 0 or 5 to 15 (R71). -/
  | illegalOpcode
  deriving DecidableEq, Repr

/-- Field `OP`, bits 3:0 (R70). -/
def opField (w : Word) : BitVec 4 := w.extractLsb' 0 4

/-- Field `RSV`, bits 31:4, which must be zero (R70). -/
def rsvField (w : Word) : BitVec 28 := w.extractLsb' 4 28

/-- The opcode map of R71 on field `OP`. -/
def decodeOp (op : BitVec 4) : Except Reject Instr :=
  if op = 0x1#4 then .ok .identify
  else if op = 0x2#4 then .ok .embed
  else if op = 0x3#4 then .ok .check
  else if op = 0x4#4 then .ok .extract
  else .error .illegalOpcode

/-- `w` selects a command only if `w[31:4] = 0` (R71). -/
def decode (w : Word) : Except Reject Instr :=
  if rsvField w = 0#28 then decodeOp (opField w) else .error .reservedNonzero

/-- Field `OP` of each command (R71). -/
def opOf : Instr → BitVec 4
  | .identify => 0x1#4
  | .embed => 0x2#4
  | .check => 0x3#4
  | .extract => 0x4#4

/-- The command word: `RSV` zero above `OP` (R70, R71). -/
def encode (i : Instr) : Word := 0#28 ++ opOf i

/-- The command the decoder reads from a table row's word: bits at and above `nbits` are 0, and the command word is
one 32-bit register value (R70). -/
def decodeTableWord (nbits w : Nat) : Option Instr :=
  match decode (BitVec.ofNat 32 (w % 2 ^ nbits)) with
  | .ok i => some i
  | .error _ => none

end Sys2Proof
end

