-- ==== Sys2Proof/Config.lean ====
section
/-! DEFINITION. What an implementation fixes (the three memory capacities, 00_scope R10) and the free values the spec
leaves open (70_reset_and_hazards R207). Neither constant has a body, so no proof can see its value. -/

namespace Sys2Proof

/-- The open parameters of R10. Each field is stored as its distance above the least size R10 allows, in a type that
ends at the greatest, so every value of this type meets R10's constraints and every triple that meets them is a value. -/
structure Caps where
  carAbove2 : Fin 4294967294
  msgSize   : Fin 536870881
  outAbove3 : Fin 4294967293
  deriving DecidableEq, Repr, Inhabited

/-- `CAR_CAP`, with `2 <= CAR_CAP <= 2^32 - 1` (R10). -/
def Caps.carCap (c : Caps) : Nat := c.carAbove2.val + 2

/-- `MSG_CAP`, with `200 + 8*(MSG_CAP + 6) <= 2^32 - 1` (R10). -/
def Caps.msgCap (c : Caps) : Nat := c.msgSize.val

/-- `OUT_CAP`, with `3 <= OUT_CAP <= 2^32 - 1` (R10). -/
def Caps.outCap (c : Caps) : Nat := c.outAbove3.val + 3

/-- The capacities of the block as built; the spec gives no number (92 D4; log entry 1). -/
opaque Config.caps : Caps

/-- The byte that the `n`-th host memory read made while `BUSY = 1` returns: "an unspecified byte. A model draws it
freely, under no law" (R207; log entry 10). -/
opaque Config.freeByte : Nat → Byte

end Sys2Proof
end

