-- ==== Sys2Proof/Machine/State.lean ====
section
/-! DEFINITION. Everything the spec gives the machine (10_state R20 to R41), the model's own four fields (the agents'
schedule, the host's last read, the draw counter, the capacities), the reasons a step can stop, and the state after reset. -/

namespace Sys2Proof.Machine

/-- The sniffer's verdict (10_state R21 field `FMT`; 40_sniffer R101). Code 3 is never produced, so it has no name. -/
inductive Format where
  | unsupported
  | bmp
  | ppm
  deriving DecidableEq, Repr

/-- The error codes of 60_exceptions R180. Codes 8 to 15 are never produced, so they have no name. -/
inductive ErrCode where
  | noError
  | unsupportedFormat
  | insufficientCapacity
  | unterminatedMessage
  | malformedMessage
  | illegalCommand
  | outputOverflow
  | badConfig
  deriving DecidableEq, Repr

/-- `STATUS` by its fields (10_state R21). Bits 31:12 read 0 and are never written, so they need no storage. -/
structure Status where
  busy  : Bool
  done  : Bool
  found : Bool
  capOk : Bool
  fmt   : Format
  wrap  : Bool
  ovr   : Bool
  err   : ErrCode
  deriving DecidableEq, Repr

/-- `STATUS = 0x00000000` (10_state R41). -/
def Status.zero : Status :=
  { busy := false, done := false, found := false, capOk := false, fmt := .unsupported, wrap := false, ovr := false,
    err := .noError }

/-- Which of EMBED's walk's micro-steps is next, at index `J` (43_engine R143). -/
inductive WalkStep where
  /-- The read of the carrier byte. -/
  | read
  /-- The write of `b2`, `b` being the byte it replaces. -/
  | write (b b2 : Byte)
  deriving DecidableEq, Repr

/-- Which of a probe's micro-steps is next (43_engine R152, R155). -/
inductive ProbeStep where
  /-- The first read, the set-up lines before the loop still to be done (`EQ <- 1`, and for EXTRACT the size check). -/
  | start
  /-- The read of the carrier byte of index `J`. -/
  | read
  deriving DecidableEq, Repr

/-- `PHASE` (10_state R36). A constructor's argument is what a micro-step of that phase hands to the next one, a local
of the pseudocode that exists only there (log entry 4). -/
inductive Phase where
  | idle
  | decode
  /-- `b0`, once the gate has read `CAR[0]` (40_sniffer R102). -/
  | sniff (b0 : Option Byte)
  /-- `m[0 .. i-1]`, the message bytes read so far (41_framer R113). -/
  | validate (m : List Byte)
  /-- `m[0 .. MSG_LEN-1]`, the message as the validate phase has read it (41_framer R113; log entry 5). -/
  | capchk (m : List Byte)
  /-- The walk's next micro-step, and the message read (43_engine R143; log entry 5). -/
  | walk (m : List Byte) (next : WalkStep)
  /-- The probe's next micro-step (43_engine R152, R155), and for CHECK the message read, EXTRACT having read none (log
  entry 5). -/
  | probe (m : List Byte) (next : ProbeStep)
  /-- `k`, how many bytes of the current chunk have been read; 8 when the character is to be stored (43_engine R160). -/
  | scan (k : Nat)
  /-- `END`, passed within the micro-step that ends the command (43_engine R140; log entry 6). -/
  | endCmd
  deriving DecidableEq, Repr

/-- A memory: the bytes something has written since power-on, by rising address. An unlisted byte has no value
(70_reset_and_hazards R201, R204; log entry 9). -/
abbrev Memory := List Host.Cell

/-- What the host's last read returned (a word of `REG`, or a byte of a memory). -/
inductive HostData where
  | nothing
  | word (w : Word)
  | byte (b : Byte)
  deriving DecidableEq, Repr

/-- The machine. `CMD` reads 0 and its written word is `opl`, so it has no field of its own (10_state R22, R41). -/
structure State where
  /-- `STATUS`, R21. -/
  status   : Status
  /-- `CFG.PPM_STRICT`, R26. -/
  strict   : Bool
  /-- `CAR_SIZE`, R23. -/
  carSize  : Word
  /-- `MSG_LEN`, R24. -/
  msgLen   : Word
  /-- `OUT_LEN`, R25. -/
  outLen   : Word
  /-- `MAX_CHARS`, R27. -/
  maxChars : Word
  /-- `POS`, R28. -/
  pos      : Word
  /-- `PHASE`, R36. -/
  phase    : Phase
  /-- `OPL`, the latched command word, R36. -/
  opl      : Word
  /-- `STRL`, the latched `CFG.PPM_STRICT`, R36. -/
  strl     : Bool
  /-- `J`, the bit index, R36. -/
  j        : Word
  /-- `K`, the number of characters decoded, R36. -/
  k        : Word
  /-- `ACC`, the character being assembled, R36. -/
  acc      : Byte
  /-- `TAIL`, the last three characters, newest in bits 7:0, R36. -/
  tail     : BitVec 24
  /-- `EQ`, the running verdict, R36. -/
  eq       : Bool
  /-- `CAR`, R32. -/
  car      : Memory
  /-- `MSG`, R33. -/
  msg      : Memory
  /-- `OUT`, R33. -/
  out      : Memory
  /-- The capacities of this block (00_scope R10), the same in every state of a run (log entry 1). -/
  caps     : Caps
  /-- The turns still to come; when it is empty the engine moves (log entry 2). -/
  schedule : List Turn
  /-- What the host's last read returned (log entry 12). -/
  hostGot  : HostData
  /-- How many free bytes have been drawn (log entry 10). -/
  draws    : Nat
  deriving DecidableEq, Repr

/-- Why the machine stops. -/
inductive Fault where
  /-- A read, by the engine or by the host while idle, of a byte nothing has written since power-on; raised by the
  memory reads of Machine/Ops.lean. Safe: the spec says to record a fault there (70_reset_and_hazards R204). -/
  | unwritten (sp : Space) (addr : Nat)
  /-- An engine access at or above the capacity of a memory; raised by the engine accesses of Machine/Ops.lean.
  Safe: the byte does not exist, and no state a run reaches raises it (20_memory R60; 60_exceptions R187). -/
  | absent (sp : Space) (addr : Nat)
  /-- The latched command has no micro-step in this phase (43_engine R140), or needs a message byte its validate phase
  has not read (41_framer R113); raised by the meanings, the illegal command's micro-step and `payloadByte`. Safe: the
  spec describes no such state, and no state a run reaches raises it (log entry 11). -/
  | noMicroStep (phase : Phase)
  deriving DecidableEq, Repr

/-- Why the model gives a step no meaning. -/
inductive Refusal where
  /-- A command with no meaning yet; raised by an arm of exec only. Safe. -/
  | notModelled (mnemonic : String)
  /-- A register access that is not a whole aligned word in `[0x00, 0x3C]`; raised by a host turn. Safe: "the model
  refuses" it (70_reset_and_hazards R206; 10_state R30). -/
  | badRegisterAccess (port : RegPort)
  /-- A host memory access at or above the capacity of its space; raised by a host turn. Safe: "the model refuses" it
  (70_reset_and_hazards R206). -/
  | badMemoryAddress (sp : Space) (addr : Word)
  /-- An access by a second host; raised by its turn. Safe: "the model refuses" it (70_reset_and_hazards R206). -/
  | secondHost (a : HostAccess)
  deriving DecidableEq, Repr

/-- What a step answers. -/
abbrev Result := Host.Outcome State Fault Refusal

/-- The machine right after power-on and reset (10_state R41; 70_reset_and_hazards R200, R201): every register and hidden
field 0, `PHASE = IDLE`, no memory byte with a value, and a host that has done nothing yet. -/
def State.reset : State :=
  { status := .zero, strict := false, carSize := 0#32, msgLen := 0#32, outLen := 0#32, maxChars := 0#32, pos := 0#32,
    phase := .idle, opl := 0#32, strl := false, j := 0#32, k := 0#32, acc := 0#8, tail := 0#24, eq := false,
    car := [], msg := [], out := [], caps := Config.caps, schedule := [], hostGot := .nothing, draws := 0 }

end Sys2Proof.Machine
end

