-- ==== Sys2Proof/Machine/Flags.lean ====
section
/-! DEFINITION. The flags: the codes of `FMT` and `ERR`, the word a host reads from `STATUS` and from `CFG`, and every
change a step makes to `STATUS` (10_state R21, R26, R35; 60_exceptions R180, R182, R184). -/

namespace Sys2Proof.Machine

/-- The 2-bit code of `STATUS.FMT` (10_state R21). -/
def formatCode : Format → BitVec 2
  | .unsupported => 0#2
  | .bmp => 1#2
  | .ppm => 2#2

/-- The 4-bit code of `STATUS.ERR` (60_exceptions R180). -/
def errorCode : ErrCode → BitVec 4
  | .noError => 0#4
  | .unsupportedFormat => 1#4
  | .insufficientCapacity => 2#4
  | .unterminatedMessage => 3#4
  | .malformedMessage => 4#4
  | .illegalCommand => 5#4
  | .outputOverflow => 6#4
  | .badConfig => 7#4

/-- A flag as one bit. -/
def bit1 (b : Bool) : BitVec 1 := BitVec.ofBool b

/-- The 32-bit word of `STATUS`, from bit 31 down: 20 reserved zeros, `ERR`, `OVR`, `WRAP`, `FMT`, `CAP_OK`, `FOUND`,
`DONE`, `BUSY` (10_state R21). -/
def statusWord (f : Status) : Word :=
  0#20 ++ errorCode f.err ++ bit1 f.ovr ++ bit1 f.wrap ++ formatCode f.fmt ++ bit1 f.capOk ++ bit1 f.found
    ++ bit1 f.done ++ bit1 f.busy

/-- The 32-bit word of `CFG`: `PPM_STRICT` below 31 zeros (10_state R26). -/
def cfgWord (strict : Bool) : Word := 0#31 ++ bit1 strict

/-- `PPM_STRICT` of a word written to `CFG`; bits 31:1 are ignored (10_state R26). -/
def strictOfWord (v : Word) : Bool := v.getLsbD 0

/-- `STATUS <- 0x00000001` (10_state R31). -/
def statusAccepted : Status := { Status.zero with busy := true }

/-- `STATUS` at a command end: `ERR` set, `BUSY = 0`, `DONE = 1`, the rest kept (60_exceptions R182, R184). -/
def statusEnded (e : ErrCode) (f : Status) : Status := { f with err := e, busy := false, done := true }

/-- `STATUS.FMT <- v` (40_sniffer R102). -/
def State.setFmt (s : State) (v : Format) : State := { s with status := { s.status with fmt := v } }

/-- `STATUS.FOUND <- v` (43_engine R150, R152, R155). -/
def State.setFound (s : State) (v : Bool) : State := { s with status := { s.status with found := v } }

/-- `STATUS.CAP_OK <- v` (43_engine R150). -/
def State.setCapOk (s : State) (v : Bool) : State := { s with status := { s.status with capOk := v } }

/-- `STATUS.WRAP <- 1` when the adjusted byte was 0xFF; never cleared during a command (43_engine R143, R145). -/
def State.noteWrap (s : State) (b : Byte) : State :=
  { s with status := { s.status with wrap := s.status.wrap || b == 0xFF#8 } }

/-- `STATUS.OVR <- 1`: a host write was ignored while busy (70_reset_and_hazards R205). -/
def State.setOvr (s : State) : State := { s with status := { s.status with ovr := true } }

end Sys2Proof.Machine
end

