-- ==== Sys2Proof/WellFormed.lean ====
section
/-! DEFINITION. Which terms of Syntax the spec gives a meaning: every command (it has no operand that could be wrong,
30_encoding R72), a register access that is a whole aligned word in `[0x00, 0x3C]` (10_state R30), and a memory access
below the capacity of its space (70_reset_and_hazards R206). -/

namespace Sys2Proof

/-- A command has no immediate, no register field and no mode bits (R72), so each is well-formed. -/
def Instr.wellFormed : Instr → Bool
  | .identify => true
  | .embed => true
  | .check => true
  | .extract => true

/-- The size in bytes of a memory (R50). -/
def Caps.size (c : Caps) : Space → Nat
  | .car => c.carCap
  | .msg => c.msgCap
  | .out => c.outCap

/-- A whole 32-bit word at a multiple of 4 in `[0x00, 0x3C]` (R30). -/
def RegPort.wellFormed (p : RegPort) : Bool :=
  p.bytes == 4 && p.offset.toNat % 4 == 0 && decide (p.offset.toNat ≤ 0x3C)

/-- An access the block answers: R206 lists the ones it refuses. -/
def HostAccess.wellFormed (c : Caps) : HostAccess → Bool
  | .regWrite p _ => p.wellFormed
  | .regRead p => p.wellFormed
  | .memWrite sp a _ => decide (a.toNat < c.size sp)
  | .memRead sp a => decide (a.toNat < c.size sp)

/-- A turn the block answers. A second host never gets one (R65, R206). -/
def Turn.wellFormed (c : Caps) : Turn → Bool
  | .engine => true
  | .host a => a.wellFormed c
  | .wait => true
  | .secondHost _ => false
  | .reset => true
  | .powerOn => true

end Sys2Proof
end

