-- ==== Sys2Proof/Machine/Ops.lean ====
section
/-! DEFINITION. The named operations over memory and registers: reading and writing a byte, the register map, accepting
a command (10_state R31), ending one with an error or without (60_exceptions R182, R184), reset and power-on (70 R200,
R201). -/

namespace Sys2Proof.Machine

/-- The byte at address `a`, if something has written it. -/
def Memory.read : Memory → Nat → Option Byte
  | [], _ => none
  | c :: m, a => if c.1 = a then some c.2 else Memory.read m a

/-- Byte `b` at address `a`, the addresses still strictly rising. -/
def Memory.write : Memory → Nat → Byte → Memory
  | [], a, b => [(a, b)]
  | c :: m, a, b =>
    if a < c.1 then (a, b) :: c :: m
    else if a = c.1 then (a, b) :: m
    else c :: Memory.write m a b

/-- The canonical form: strictly rising addresses. An unlisted address has no value, so no entry can repeat one. -/
def Memory.wf : Memory → Bool
  | [] => true
  | [_] => true
  | c :: d :: m => decide (c.1 < d.1) && Memory.wf (d :: m)

/-- Every listed address is below `cap`. -/
def Memory.below (cap : Nat) (m : Memory) : Bool := m.all fun c => decide (c.1 < cap)

/-- The memory of a space (20_memory R50). -/
def State.mem (s : State) : Space → Memory
  | .car => s.car
  | .msg => s.msg
  | .out => s.out

/-- The state with the memory of a space replaced. -/
def State.setMem (s : State) (sp : Space) (m : Memory) : State :=
  match sp with
  | .car => { s with car := m }
  | .msg => { s with msg := m }
  | .out => { s with out := m }

/-- `MemRead(S, a, 1)` by the engine, whose byte goes to `next` (00_scope R13). A byte that does not exist or that
nothing has written stops the machine (70_reset_and_hazards R204). -/
def memRead (sp : Space) (a : Nat) (s : State) (next : Byte → Result) : Result :=
  if a < s.caps.size sp then
    match (s.mem sp).read a with
    | some b => next b
    | none => .fault (.unwritten sp a)
  else .fault (.absent sp a)

/-- `MemWrite(S, a, 1, v)` by the engine, after which `next` goes on (00_scope R13). -/
def memWrite (sp : Space) (a : Nat) (v : Byte) (s : State) (next : State → Result) : Result :=
  if a < s.caps.size sp then next (s.setMem sp ((s.mem sp).write a v)) else .fault (.absent sp a)

/-- `raise E(p)`: the state after the micro-step that raises (60_exceptions R182). -/
def State.raised (s : State) (e : ErrCode) (p : Word) : State :=
  { s with status := statusEnded e s.status, pos := p, outLen := 0#32, phase := .idle }

/-- `finish`: the state after the micro-step that finishes (60_exceptions R184). -/
def State.finished (s : State) : State :=
  { s with status := statusEnded .noError s.status, phase := .idle }

/-- `raise E(p)` ends the current command at once (60_exceptions R182). -/
def raise (e : ErrCode) (p : Word) (s : State) : Result := .next (s.raised e p)

/-- `finish` ends the current command without error (60_exceptions R184). -/
def finish (s : State) : Result := .next s.finished

/-- In `END` the engine sets `PHASE <- IDLE` (43_engine R140; log entry 6). -/
def endPhase (s : State) : Result := .next { s with phase := .idle }

/-- Command acceptance with word `w` (10_state R31); `TAIL` is 0 after it (R38; log entry 13). -/
def State.accept (s : State) (w : Word) : State :=
  { s with opl := w, strl := s.strict, status := statusAccepted, outLen := 0#32, maxChars := 0#32, pos := 0#32,
           tail := 0#24, phase := .decode }

/-- The latched command has no micro-step in this phase; no state a run reaches comes here (log entry 11). -/
def noMicroStep (s : State) : Result := .fault (.noMicroStep s.phase)

/-- The decode micro-step of a word that selects no command (30_encoding R75; 60_exceptions R186). -/
def illegalCommand (s : State) : Result :=
  match s.phase with
  | .decode => raise .illegalCommand 0#32 s
  | .endCmd => endPhase s
  | .idle | .sniff _ | .validate _ | .capchk _ | .walk _ _ | .probe _ _ | .scan _ => noMicroStep s

/-- The decode micro-step of a command: the host's lengths against the capacities, the carrier first (30_encoding R75;
60_exceptions R187). `readsMsg` holds for EMBED and CHECK. -/
def decodeStep (readsMsg : Bool) (s : State) : Result :=
  if s.caps.carCap < s.carSize.toNat then raise .badConfig 0#32 s
  else if readsMsg = true ∧ s.caps.msgCap < s.msgLen.toNat then raise .badConfig 0#32 s
  else .next { s with phase := .sniff none }

/-- A reset while power stays on: every register and hidden field as after reset, no memory byte changed (70 R200, R201).
The capacities, the host's own record and its turns are not the block's registers and stay (log entry 15). -/
def State.applyReset (s : State) : State :=
  { State.reset with
    car := s.car, msg := s.msg, out := s.out, caps := s.caps, schedule := s.schedule, hostGot := s.hostGot,
    draws := s.draws }

/-- Power removed and applied again: as a reset, and no memory byte keeps a value (70 R201). -/
def State.applyPowerOn (s : State) : State := { s.applyReset with car := [], msg := [], out := [] }

/-- The registers by name (10_state R20); `reserved` stands for the offsets 0x20 to 0x3C (R29). -/
inductive Reg where
  | cmd
  | status
  | cfg
  | carSize
  | msgLen
  | outLen
  | maxChars
  | pos
  | reserved
  deriving DecidableEq, Repr

/-- The register at an aligned offset in `[0x00, 0x3C]` (10_state R20, R29). -/
def regAt (offset : Nat) : Reg :=
  if offset = 0x00 then .cmd
  else if offset = 0x04 then .status
  else if offset = 0x08 then .cfg
  else if offset = 0x0C then .carSize
  else if offset = 0x10 then .msgLen
  else if offset = 0x14 then .outLen
  else if offset = 0x18 then .maxChars
  else if offset = 0x1C then .pos
  else .reserved

/-- The value a register read returns: `CMD` and the reserved offsets read 0, the others their current value (10_state
R20, R22, R29, R30). -/
def State.readReg (s : State) : Reg → Word
  | .cmd => 0#32
  | .status => statusWord s.status
  | .cfg => cfgWord s.strict
  | .carSize => s.carSize
  | .msgLen => s.msgLen
  | .outLen => s.outLen
  | .maxChars => s.maxChars
  | .pos => s.pos
  | .reserved => 0#32

/-- A host register write: to `CMD`, `CFG`, `CAR_SIZE` or `MSG_LEN` it has its effect when idle and only sets `OVR` when
busy; to any other register it is ignored at any time (10_state R20, R22, R30; 70_reset_and_hazards R205). -/
def State.writeReg (s : State) (r : Reg) (v : Word) : State :=
  match r with
  | .cmd => if s.status.busy then s.setOvr else s.accept v
  | .cfg => if s.status.busy then s.setOvr else { s with strict := strictOfWord v }
  | .carSize => if s.status.busy then s.setOvr else { s with carSize := v }
  | .msgLen => if s.status.busy then s.setOvr else { s with msgLen := v }
  | .status => s
  | .outLen => s
  | .maxChars => s
  | .pos => s
  | .reserved => s

/-- A host memory write: ignored, setting `OVR`, while busy (20_memory R61, R63; 70_reset_and_hazards R205). -/
def State.hostWrite (s : State) (sp : Space) (a : Nat) (b : Byte) : State :=
  if s.status.busy then s.setOvr else s.setMem sp ((s.mem sp).write a b)

/-- A host memory read: while busy a free byte (70_reset_and_hazards R207), while idle the stored one, and a fault where
nothing has been written (R204). -/
def hostRead (sp : Space) (a : Nat) (s : State) : Result :=
  if s.status.busy then
    .next { s with hostGot := .byte (Config.freeByte s.draws), draws := s.draws + 1 }
  else
    match (s.mem sp).read a with
    | some b => .next { s with hostGot := .byte b }
    | none => .fault (.unwritten sp a)

/-- Why an access that is not well-formed is refused (70_reset_and_hazards R206). -/
def refusalOf : HostAccess → Refusal
  | .regWrite p _ => .badRegisterAccess p
  | .regRead p => .badRegisterAccess p
  | .memWrite sp a _ => .badMemoryAddress sp a
  | .memRead sp a => .badMemoryAddress sp a

/-- One access by the host (10_state R30; 20_memory R50; 70_reset_and_hazards R205 to R207). What R206 refuses is refused
also while busy (log entry 14). -/
def hostAccess (a : HostAccess) (s : State) : Result :=
  if a.wellFormed s.caps then
    match a with
    | .regWrite p v => .next (s.writeReg (regAt p.offset.toNat) v)
    | .regRead p => .next { s with hostGot := .word (s.readReg (regAt p.offset.toNat)) }
    | .memWrite sp x b => .next (s.hostWrite sp x.toNat b)
    | .memRead sp x => hostRead sp x.toNat s
  else .refused (refusalOf a)

/-- One poll of `wait`: read `STATUS`; while bit 0 is 1 the engine gets a turn and the poll comes back (30_encoding R77;
log entry 2). -/
def waitPoll (s : State) : Result :=
  .next { s with
    hostGot := .word (s.readReg .status),
    schedule := if s.status.busy then .engine :: .wait :: s.schedule else s.schedule }

end Sys2Proof.Machine
end

