-- ==== Sys2Proof/Machine/Operands.lean ====
section
/-! DEFINITION. The operand sources of the commands: the fixed offsets (00_scope R8), the payload's length and its bits
(41_framer R111; 43_engine R141). -/

namespace Sys2Proof.Machine

/-- `HDR`: the first carrier offset used for payload bits (00_scope R8). -/
def hdr : Nat := 200

/-- `BOF_BITS = 8 * SENT_LEN`: the carrier bytes the BOF probe reads (00_scope R8). -/
def bofBits : Nat := 24

/-- `SCAN_START = HDR + BOF_BITS`: the first carrier offset of the message scan (00_scope R8). -/
def scanStart : Nat := 224

/-- `CHUNK`: carrier bytes per decoded character (00_scope R8). -/
def chunk : Nat := 8

/-- `N = 8 * (L + 6)` with `L = MSG_LEN`: the payload's length in bits (43_engine R141). -/
def State.nBits (s : State) : Nat := 8 * (s.msgLen.toNat + 6)

/-- `payload_byte(i)` (41_framer R111), `m` being the message as the validate phase has read it from `MSG`, one byte a
micro-step (log entry 5). A byte the validate phase has not read stops the machine; no state a run reaches asks for one. -/
def payloadByte (m : List Byte) (i : Nat) (s : State) (next : Byte → Result) : Result :=
  if i < 3 then next (bof.getD i 0#8)
  else if i < s.msgLen.toNat + 3 then
    match m[i - 3]? with
    | some b => next b
    | none => noMicroStep s
  else next (eof.getD (i - s.msgLen.toNat - 3) 0#8)

/-- `payload_bit(j) = payload_byte(j / 8)[7 - (j mod 8)]` (43_engine R141). -/
def payloadBit (m : List Byte) (j : Nat) (s : State) (next : Bool → Result) : Result :=
  payloadByte m (j / 8) s fun b => next (msbBit b (j % 8))

/-- Bit `j` of `toBits(BOF)` (43_engine R155). -/
def bofBit (j : Nat) : Bool := msbBit (bof.getD (j / 8) 0#8) (j % 8)

end Sys2Proof.Machine
end

