-- ==== Sys2Proof/Machine/Sniffer.lean ====
section
/-! DEFINITION. The Format Sniffer: the comparator (40_sniffer R101), the gate every command passes (R102), and IDENTIFY
(R103). -/

namespace Sys2Proof.Machine

/-- `sniff(b0, b1, n, strict)` (R101; log entry 20). -/
def sniff (b0 b1 : Byte) (n : Nat) (strict : Bool) : Format :=
  if n < 2 then .unsupported
  else if b0 = 0x42#8 ∧ b1 = 0x4D#8 then .bmp
  else if b0 = 0x50#8 ∧ b1 = 0x36#8 then .ppm
  else if strict = true ∧ b0 = 0x50#8 ∧ b1 = 0x33#8 then .ppm
  else .unsupported

/-- The sniffer gate up to `STATUS.FMT <- sniff(...)`; `verdict` goes on in the same micro-step (R102). It reads
`CAR[0]`, then `CAR[1]`, and neither when `CAR_SIZE < 2`. -/
def sniffGate (b0 : Option Byte) (s : State) (verdict : State → Result) : Result :=
  match b0 with
  | none =>
    if 2 ≤ s.carSize.toNat then memRead .car 0 s fun b => .next { s with phase := .sniff (some b) }
    else verdict (s.setFmt (sniff 0#8 0#8 s.carSize.toNat s.strl))
  | some b => memRead .car 1 s fun b1 => verdict (s.setFmt (sniff b b1 s.carSize.toNat s.strl))

/-- The gate's ending for EMBED, CHECK and EXTRACT: an unsupported carrier ends the command, else the next phase (R102). -/
def gateThen (next : Phase) (s : State) : Result :=
  if s.status.fmt = .unsupported then raise .unsupportedFormat 0#32 s else .next { s with phase := next }

/-- IDENTIFY, one micro-step: decode, then the gate, which ends with `finish` (R103). -/
def execIdentify (s : State) : Result :=
  match s.phase with
  | .decode => decodeStep false s
  | .sniff b0 => sniffGate b0 s finish
  | .endCmd => endPhase s
  | .idle | .validate _ | .capchk _ | .walk _ _ | .probe _ _ | .scan _ => noMicroStep s

end Sys2Proof.Machine
end

