-- ==== Sys2Proof/Machine/Embed.lean ====
section
/-! DEFINITION. EMBED (43_engine R142 to R145), and the validate phase it shares with CHECK (41_framer R113). -/

namespace Sys2Proof.Machine

/-- The validate phase: one `MSG` read a micro-step, then the check for "EOF" (41_framer R113). -/
def validateStep (m : List Byte) (s : State) : Result :=
  if m.length < s.msgLen.toNat then
    memRead .msg m.length s fun b => .next { s with phase := .validate (m ++ [b]) }
  else if containsEof m then raise .malformedMessage 0#32 s
  else .next { s with phase := .capchk m }

/-- EMBED's capacity check (R142). -/
def embedCapchk (m : List Byte) (s : State) : Result :=
  if s.carSize.toNat < hdr + s.nBits then raise .insufficientCapacity 0#32 s
  else .next { s with j := 0#32, pos := BitVec.ofNat 32 hdr, phase := .walk m .read }

/-- The head of the walk's loop: another index, or `POS <- HDR + N` and `finish` (R143; log entry 7). -/
def walkLoop (m : List Byte) (s : State) : Result :=
  if s.j.toNat < s.nBits then .next { s with phase := .walk m .read }
  else finish { s with pos := BitVec.ofNat 32 (hdr + s.nBits) }

/-- The walk with the wanted bit known: a write is to come, or the next index (R143). -/
def walkAdjust (m : List Byte) (b : Byte) (want : Bool) (s : State) : Result :=
  if (adjust b want).1 then .next { s with phase := .walk m (.write b (adjust b want).2) }
  else walkLoop m { s with j := s.j + 1#32 }

/-- The walk's read micro-step: the carrier byte, and its adjust to the payload bit (R143). -/
def walkRead (m : List Byte) (s : State) : Result :=
  memRead .car (hdr + s.j.toNat) s fun b =>
    let s := { s with pos := BitVec.ofNat 32 (hdr + s.j.toNat) }
    payloadBit m s.j.toNat s fun want => walkAdjust m b want s

/-- The walk's write micro-step: the same byte, and `WRAP` when it was 0xFF (R143, R145). -/
def walkWrite (m : List Byte) (b b2 : Byte) (s : State) : Result :=
  memWrite .car (hdr + s.j.toNat) b2 s fun s => walkLoop m { s.noteWrap b with j := s.j + 1#32 }

/-- EMBED, one micro-step (R142, R143). -/
def execEmbed (s : State) : Result :=
  match s.phase with
  | .decode => decodeStep true s
  | .sniff b0 => sniffGate b0 s (gateThen (.validate []))
  | .validate m => validateStep m s
  | .capchk m => embedCapchk m s
  | .walk m .read => walkRead m s
  | .walk m (.write b b2) => walkWrite m b b2 s
  | .endCmd => endPhase s
  | .idle | .probe _ _ | .scan _ => noMicroStep s

end Sys2Proof.Machine
end

