-- ==== Sys2Proof/Machine/Check.lean ====
section
/-! DEFINITION. CHECK (43_engine R150 to R152). -/

namespace Sys2Proof.Machine

/-- CHECK's capacity verdict: `MAX_CHARS`, `CAP_OK`, and the end with `FOUND = 0` when the payload does not fit (R150,
R151). The comparison is of exact integers, false when `CAR_SIZE < HDR + N`. -/
def checkCapchk (m : List Byte) (s : State) : Result :=
  let cap := decide (hdr + s.nBits ≤ s.carSize.toNat)
  let s := { s with maxChars := s.carSize / 8#32 }.setCapOk cap
  if cap then .next { s with j := 0#32, phase := .probe m .start } else finish (s.setFound false)

/-- The head of the probe's loop: another index, or `POS <- HDR + N`, `FOUND <- EQ` and `finish` (R152; log entry 7). -/
def checkLoop (m : List Byte) (s : State) : Result :=
  if s.j.toNat < s.nBits then .next { s with phase := .probe m .read }
  else finish ({ s with pos := BitVec.ofNat 32 (hdr + s.nBits) }.setFound s.eq)

/-- One read of the probe: the carrier byte's parity against the payload bit, with no early exit (R152). -/
def checkProbe (m : List Byte) (s : State) : Result :=
  memRead .car (hdr + s.j.toNat) s fun b =>
    payloadBit m s.j.toNat s fun want =>
      checkLoop m { s with
        pos := BitVec.ofNat 32 (hdr + s.j.toNat), eq := s.eq && (parity b == want), j := s.j + 1#32 }

/-- CHECK, one micro-step (R150, R152). -/
def execCheck (s : State) : Result :=
  match s.phase with
  | .decode => decodeStep true s
  | .sniff b0 => sniffGate b0 s (gateThen (.validate []))
  | .validate m => validateStep m s
  | .capchk m => checkCapchk m s
  | .probe m .start => checkProbe m { s with eq := true }
  | .probe m .read => checkProbe m s
  | .endCmd => endPhase s
  | .idle | .walk _ _ | .scan _ => noMicroStep s

end Sys2Proof.Machine
end

