-- ==== Sys2Proof/Machine/Extract.lean ====
section
/-! DEFINITION. EXTRACT: the BOF probe (43_engine R155 to R157) and the scan (R160 to R163). -/

namespace Sys2Proof.Machine

/-- The end of the BOF probe's loop: another index, or the verdict (R155, R157; log entry 7). -/
def bofLoop (s : State) : Result :=
  if s.j.toNat < bofBits then .next { s with phase := .probe [] .read }
  else
    let s := { s with pos := BitVec.ofNat 32 scanStart }
    if s.eq then .next { s.setFound true with k := 0#32, tail := 0#24, phase := .scan 0 }
    else finish (s.setFound false)

/-- One read of the BOF probe (R155). -/
def bofProbe (s : State) : Result :=
  memRead .car (hdr + s.j.toNat) s fun b =>
    bofLoop { s with
      pos := BitVec.ofNat 32 (hdr + s.j.toNat), eq := s.eq && (parity b == bofBit s.j.toNat), j := s.j + 1#32 }

/-- The probe's set-up: a carrier under 224 bytes ends the command with `FOUND = 0` (R155, R156). -/
def bofStart (s : State) : Result :=
  if s.carSize.toNat < scanStart then finish (s.setFound false)
  else bofProbe { s with eq := true, j := 0#32 }

/-- Byte `k` of the current chunk: its parity is shifted into `ACC`; `POS` stays at the chunk's start (R160). -/
def scanByte (k : Nat) (s : State) : Result :=
  memRead .car (s.pos.toNat + k) s fun b =>
    .next { s with acc := shiftIn s.acc (parity b), phase := .scan (k + 1) }

/-- The head of the scan's loop: the end-of-carrier guard, else `ACC <- 0` and the chunk's first byte (R160, R161). -/
def scanHead (s : State) : Result :=
  if s.carSize.toNat < s.pos.toNat + chunk then raise .unterminatedMessage s.pos s
  else scanByte 0 { s with acc := 0#8 }

/-- The test that ends the scan: `K >= 3` and the last three characters are "EOF" (10_state R37, R38; R160). -/
def sawEof (s : State) : Bool := decide (3 ≤ s.k.toNat) && s.tail == 0x454F46#24

/-- After a whole chunk: store the character, advance, and end at "EOF" (R160, R162, R163). -/
def scanStore (s : State) : Result :=
  if s.caps.outCap ≤ s.k.toNat then raise .outputOverflow s.pos s
  else
    memWrite .out s.k.toNat s.acc s fun s =>
      let s := { s with
        tail := s.tail * 256#24 + s.acc.setWidth 24, k := s.k + 1#32, pos := s.pos + BitVec.ofNat 32 chunk,
        phase := .scan 0 }
      if sawEof s then finish { s with outLen := s.k - 3#32 } else .next s

/-- The scan's micro-step at position `k` of its chunk (R160). -/
def scanStep (k : Nat) (s : State) : Result :=
  if k = 0 then scanHead s else if k < chunk then scanByte k s else scanStore s

/-- EXTRACT, one micro-step (R155, R160). -/
def execExtract (s : State) : Result :=
  match s.phase with
  | .decode => decodeStep false s
  | .sniff b0 => sniffGate b0 s (gateThen (.probe [] .start))
  | .probe _ .start => bofStart s
  | .probe _ .read => bofProbe s
  | .scan k => scanStep k s
  | .endCmd => endPhase s
  | .idle | .validate _ | .capchk _ | .walk _ _ => noMicroStep s

end Sys2Proof.Machine
end

