-- ==== Sys2Proof/Machine/Dispatch.lean ====
section
/-! DEFINITION. The micro-step of each command (10_state R40): one arm per row of spec/opcode_table.json. -/

namespace Sys2Proof.Machine

def exec (i : Instr) (s : State) : Host.Outcome State Fault Refusal :=
  match i with
  | .identify => Sys2Proof.Machine.execIdentify s
  | .embed => Sys2Proof.Machine.execEmbed s
  | .check => Sys2Proof.Machine.execCheck s
  | .extract => Sys2Proof.Machine.execExtract s

end Sys2Proof.Machine
end

