-- ==== Sys2Proof/Machine/Agents.lean ====
section
/-! DEFINITION. The two agents' turns (60_exceptions R191; 00_scope R16): the engine's micro-step while `BUSY = 1`, and
the host's accesses, with reset and power-on beside them. -/

namespace Sys2Proof.Machine

/-- The engine's turn: while `BUSY = 1` the micro-step of the command latched in `OPL` (10_state R40); while `BUSY = 0`
the block is idle and nothing changes (60_exceptions R192; log entry 8). -/
def engineTurn (s : State) : Result :=
  if s.status.busy then
    match decode s.opl with
    | .ok i => exec i s
    | .error _ => illegalCommand s
  else .next s

/-- One turn of the schedule. A second host's access is refused (70_reset_and_hazards R206; log entry 16). -/
def takeTurn (t : Turn) (s : State) : Result :=
  match t with
  | .engine => engineTurn s
  | .host a => hostAccess a s
  | .wait => waitPoll s
  | .secondHost a => .refused (.secondHost a)
  | .reset => .next s.applyReset
  | .powerOn => .next s.applyPowerOn

/-- The next turn of the schedule, or the engine's when the schedule has none (log entry 2). -/
def scheduledTurn (s : State) : Result :=
  match s.schedule with
  | [] => engineTurn s
  | t :: rest => takeTurn t { s with schedule := rest }

/-- The command word accepted and the engine's turn next (10_state R31): what a host's `CMD` write leads to (log entry 3). -/
def commandAccepted (s : State) (w : Word) : State :=
  { s.accept w with schedule := .engine :: s.schedule }

end Sys2Proof.Machine
end

