-- ==== Sys2Proof/Machine/Step.lean ====
section
/-! DEFINITION. One step: a host access or an engine micro-step (00_scope R16), as the schedule says. -/

namespace Sys2Proof.Machine

/-- One step of the block and its host (R16); it takes no time (log entry 17). -/
def step (s : State) : Host.Outcome State Fault Refusal := scheduledTurn s

/-- `s` with the command word `w` (its bits at and above `nbits` zero) accepted and the engine's turn next, so that the
next step runs its first micro-step (log entry 3). -/
def State.withFetchWord (s : State) (nbits w : Nat) : State :=
  commandAccepted s (BitVec.ofNat 32 (w % 2 ^ nbits))

end Sys2Proof.Machine
end

