-- ==== Sys2Proof/Machine/HostNotation.lean ====
section
/-! DEFINITION. The spec's notation for host programs (30_encoding R76, R77), each line as the turns it stands for. -/

namespace Sys2Proof.Machine

/-- A whole-word port at a register's offset (10_state R20). -/
def wordPort (offset : Nat) : RegPort := { offset := BitVec.ofNat 32 offset, bytes := 4 }

/-- `wr REG, v` (R76). -/
def wr (offset : Nat) (v : Word) : List Turn := [.host (.regWrite (wordPort offset) v)]

/-- `rd REG` (R76). -/
def rd (offset : Nat) : List Turn := [.host (.regRead (wordPort offset))]

/-- The host writes bytes to consecutive addresses of a memory, from `a` up. -/
def loadBytes (sp : Space) : Nat → List Byte → List Turn
  | _, [] => []
  | a, b :: bs => .host (.memWrite sp (BitVec.ofNat 32 a) b) :: loadBytes sp (a + 1) bs

/-- The host reads `n` bytes of a memory, from `a` up. -/
def readBytes (sp : Space) (a n : Nat) : List Turn :=
  (List.range n).map fun i => .host (.memRead sp (BitVec.ofNat 32 (a + i)))

/-- `ldcar a, b0 b1 ...` (R76). -/
def ldcar (a : Nat) (bs : List Byte) : List Turn := loadBytes .car a bs

/-- `fillcar a, n, b` (R76). -/
def fillcar (a n : Nat) (b : Byte) : List Turn := loadBytes .car a (List.replicate n b)

/-- `ldmsg a, b0 b1 ...` (R76). -/
def ldmsg (a : Nat) (bs : List Byte) : List Turn := loadBytes .msg a bs

/-- `rdout a, n` (R76). -/
def rdout (a n : Nat) : List Turn := readBytes .out a n

/-- `rdcar a, n` (R76). -/
def rdcar (a n : Nat) : List Turn := readBytes .car a n

/-- The pseudo-instructions `identify`, `embed`, `check` and `extract`: a write of the command's word to `CMD` (R77). -/
def command (i : Instr) : List Turn := wr 0x00 (encode i)

/-- `wait`: poll `STATUS` until bit 0 is 0 (R77). -/
def wait : List Turn := [.wait]

/-- `setmsg "text"`: the bytes to `MSG` from 0, then their number to `MSG_LEN` (R77). -/
def setmsg (bs : List Byte) : List Turn := ldmsg 0 bs ++ wr 0x10 (BitVec.ofNat 32 bs.length)

end Sys2Proof.Machine
end

