-- ==== Sys2Proof/Safety.lean ====
section
/-! DEFINITION. The terms claims are made in: several steps, what a memory holds, when a command is set up, and the
invariant of the machine. -/

namespace Sys2Proof.Machine

/-- `n` steps, stopping at the first that answers no next state. -/
def stepN : Nat → State → Result
  | 0, s => .next s
  | n + 1, s =>
    match step s with
    | .next t => stepN n t
    | .fault r => .fault r
    | .refused r => .refused r

/-- The bytes `bs` stand in memory `m` from address `a` up. -/
def Memory.holds (m : Memory) (a : Nat) (bs : List Byte) : Prop :=
  ∀ i, i < bs.length → m.read (a + i) = bs[i]?

/-- The bytes of memory `m` from address `a` up are written, and their parities are `bits` (42_bitcodec R124, R125). -/
def Memory.carries (m : Memory) (a : Nat) (bits : List Bool) : Prop :=
  ∀ i, i < bits.length → ∃ b, m.read (a + i) = some b ∧ some (parity b) = bits[i]?

/-- Something has written each of the `n` bytes of memory `m` from address `a` up. -/
def Memory.written (m : Memory) (a n : Nat) : Prop := ∀ i, i < n → ∃ b, m.read (a + i) = some b

/-- The message is `m`: `MSG[0 .. MSG_LEN-1]` (00_scope R15). -/
def State.messageIs (s : State) (m : List Byte) : Prop :=
  m.length = s.msgLen.toNat ∧ s.msg.holds 0 m

/-- `payload_bit(j)` of message `m`, as the number the pseudocode compares (43_engine R141). -/
def payloadBits (m : List Byte) : List Bool := toBits (frame m)

/-- EMBED and CHECK read the message (30_encoding R73). -/
def readsMessage : Instr → Bool
  | .identify => false
  | .embed => true
  | .check => true
  | .extract => false

/-- What `m` gives as payload bytes is what R111 gives: the sentinels' bytes, and between them what a read of `MSG` gives. -/
def State.servesPayload (s : State) (m : List Byte) : Prop :=
  ∀ (i : Nat) (next : Byte → Result), i < s.msgLen.toNat + 6 →
    payloadByte m i s next =
      if i < 3 then next (bof.getD i 0#8)
      else if i < s.msgLen.toNat + 3 then memRead .msg (i - 3) s next
      else next (eof.getD (i - s.msgLen.toNat - 3) 0#8)

/-- The host's lengths fit the memories, as the decode micro-step checks (60_exceptions R187). -/
def State.configured (s : State) (i : Instr) : Prop :=
  s.carSize.toNat ≤ s.caps.carCap ∧ (readsMessage i = true → s.msgLen.toNat ≤ s.caps.msgCap)

/-- The block is idle, the host has no turn left, and it has set lengths that fit (70_reset_and_hazards R203). -/
def State.ready (s : State) (i : Instr) : Prop :=
  s.status.busy = false ∧ s.schedule = [] ∧ s.configured i

/-- The sniffer's verdict on the carrier's first two bytes is `f` under `CFG.PPM_STRICT` as it stands (40_sniffer R101, R102). -/
def State.sniffs (s : State) (f : Format) : Prop :=
  (s.carSize.toNat < 2 ∧ f = .unsupported) ∨
    (2 ≤ s.carSize.toNat ∧ ∃ b0 b1, s.car.read 0 = some b0 ∧ s.car.read 1 = some b1 ∧
      f = sniff b0 b1 s.carSize.toNat s.strict)

/-- A command has ended: `BUSY = 0`, `DONE = 1` and `PHASE = IDLE` (70_reset_and_hazards R213; 60_exceptions R182, R184). -/
def State.ended (s : State) : Prop := s.status.busy = false ∧ s.status.done = true ∧ s.phase = .idle

/-- The same state with other memories. -/
def State.withMems (s : State) (car msg out : Memory) : State := { s with car := car, msg := msg, out := out }

/-- What holds before each micro-step of EMBED's walk (43_engine R143). -/
def State.walkStepOk (s : State) : WalkStep → Prop
  | .read => True
  | .write b b2 => s.car.read (hdr + s.j.toNat) = some b ∧ s.pos = BitVec.ofNat 32 (hdr + s.j.toNat) ∧ b2 = b + 1#8

/-- What holds before each micro-step of CHECK's probe (43_engine R152). -/
def State.checkStepOk (s : State) : ProbeStep → Prop
  | .start => s.j = 0#32
  | .read => True

/-- What holds before each micro-step of EXTRACT's probe (43_engine R155). -/
def State.bofStepOk (s : State) : ProbeStep → Prop
  | .start => True
  | .read => scanStart ≤ s.carSize.toNat ∧ s.j.toNat < bofBits

/-- What holds of the state in each phase of a command (43_engine R140, R142, R143, R150, R152, R155, R160). -/
def State.phaseOk (s : State) : Prop :=
  match s.phase with
  | .idle => True
  | .decode => s.pos = 0#32
  | .sniff b0 =>
    s.pos = 0#32 ∧ (b0 ≠ none → 2 ≤ s.carSize.toNat) ∧ ∃ i, decode s.opl = .ok i ∧ s.configured i
  | .validate m =>
    s.pos = 0#32 ∧ m.length ≤ s.msgLen.toNat ∧ s.msg.holds 0 m ∧
      ∃ i, decode s.opl = .ok i ∧ readsMessage i = true ∧ s.configured i
  | .capchk m =>
    s.pos = 0#32 ∧ s.messageIs m ∧ containsEof m = false ∧
      ∃ i, decode s.opl = .ok i ∧ readsMessage i = true ∧ s.configured i
  | .walk m next =>
    decode s.opl = .ok .embed ∧ s.configured .embed ∧ s.messageIs m ∧ containsEof m = false ∧
      hdr + s.nBits ≤ s.carSize.toNat ∧ s.j.toNat < s.nBits ∧ s.walkStepOk next
  | .probe m next =>
    (decode s.opl = .ok .check ∧ s.configured .check ∧ s.messageIs m ∧ containsEof m = false ∧
        hdr + s.nBits ≤ s.carSize.toNat ∧ s.j.toNat < s.nBits ∧ s.checkStepOk next) ∨
      (decode s.opl = .ok .extract ∧ s.configured .extract ∧ m = [] ∧ s.bofStepOk next)
  | .scan k =>
    decode s.opl = .ok .extract ∧ s.configured .extract ∧ k ≤ chunk ∧ s.status.found = true ∧
      s.pos.toNat = scanStart + chunk * s.k.toNat ∧ s.pos.toNat ≤ s.carSize.toNat ∧
      (0 < k → s.pos.toNat + chunk ≤ s.carSize.toNat) ∧ s.k.toNat ≤ s.caps.outCap
  | .endCmd => False

/-- What holds of the result registers at any time (10_state R25, R27, R35; 60_exceptions R182, R184). -/
structure State.ResultsOk (s : State) : Prop where
  busyDone : s.status.busy = true → s.status.done = false
  busyErr : s.status.busy = true → s.status.err = .noError
  found : s.status.found = true → decode s.opl = .ok .check ∨ decode s.opl = .ok .extract
  capOk : s.status.capOk = true → decode s.opl = .ok .check
  wrap : s.status.wrap = true → decode s.opl = .ok .embed
  maxChars : s.maxChars ≠ 0#32 → decode s.opl = .ok .check
  outLen : s.outLen ≠ 0#32 →
    s.ended ∧ decode s.opl = .ok .extract ∧ s.status.err = .noError ∧ s.status.found = true

/-- The invariant of the machine: memories canonical and inside their capacities, `BUSY = 1` exactly while a phase other
than `IDLE` runs, and each phase's and each result's own condition. -/
structure State.Inv (s : State) : Prop where
  memWf : ∀ sp, (s.mem sp).wf = true
  memBelow : ∀ sp, (s.mem sp).below (s.caps.size sp) = true
  busyPhase : s.status.busy = true ↔ s.phase ≠ .idle
  phaseOk : s.phaseOk
  resultsOk : s.ResultsOk

/-- The most micro-steps a command takes (70_reset_and_hazards R211). -/
def State.stepBound (s : State) : Instr → Nat
  | .identify => 1 + 2
  | .embed => 3 + (s.msgLen.toNat + 1) + 1 + 2 * s.nBits
  | .check => 3 + (s.msgLen.toNat + 1) + 1 + s.nBits
  | .extract =>
    if s.carSize.toNat < scanStart then 3 + 1 else 3 + 24 + 9 * ((s.carSize.toNat - scanStart) / 8) + 1

end Sys2Proof.Machine
end

