-- ==== Sys2Proof/Certificates/Slice0/Obligations.lean ====
section
/-! DEFINITION. What is claimed of the model, for the provers. Each statement's docstring names the rules it rests on. -/

open Sys2Proof Sys2Proof.Machine

/-! ### The command word -/

/-- R71: the four command words, and no other word selects a command. -/
def Obligations.EachCommandHasOneWord : Prop :=
  (encode .identify = 0x00000001#32 ∧ encode .embed = 0x00000002#32 ∧ encode .check = 0x00000003#32 ∧
      encode .extract = 0x00000004#32) ∧
    ∀ (w : Word) (i : Instr), decode w = .ok i ↔ w = encode i

/-- R71, R74 (sanity): words written out from the field layout, legal and illegal, decode as the spec says. -/
def Obligations.SpecWordsDecode : Prop :=
  decode (0b0000000000000000000000000000_0001#32) = .ok .identify ∧
    decode (0b0000000000000000000000000000_0010#32) = .ok .embed ∧
    decode (0b0000000000000000000000000000_0011#32) = .ok .check ∧
    decode (0b0000000000000000000000000000_0100#32) = .ok .extract ∧
    decode (0b0000000000000000000000000000_0000#32) = .error .illegalOpcode ∧
    decode (0b0000000000000000000000000000_0101#32) = .error .illegalOpcode ∧
    decode (0b0000000000000000000000000000_1111#32) = .error .illegalOpcode ∧
    decode (0b0000000000000000000000000001_0010#32) = .error .reservedNonzero ∧
    decode (0b1000000000000000000000000000_0001#32) = .error .reservedNonzero

/-! ### Steps, acceptance, reset -/

/-- R40, R16, R192: while `BUSY = 1` a step without a host turn is the latched command's micro-step, with nothing around
it, and an engine turn of the schedule is used up first; while `BUSY = 0` such a step changes nothing else. That an
empty schedule gives the engine the turn is the model's choice (log entry 2). -/
def Obligations.StepRunsLatchedCommand : Prop :=
  (∀ (s : State) (i : Instr), s.status.busy = true → decode s.opl = .ok i →
      (s.schedule = [] → step s = exec i s) ∧
        ∀ rest, s.schedule = .engine :: rest → step s = exec i { s with schedule := rest }) ∧
    ∀ s : State, s.status.busy = false →
      (s.schedule = [] → step s = .next s) ∧
        ∀ rest, s.schedule = .engine :: rest → step s = .next { s with schedule := rest }

/-- R31: what the host's write of `w` to `CMD` does while idle. `TAIL` is left open here: that acceptance clears it is log
entry 13. -/
def Obligations.AcceptanceLatchesAndClears : Prop :=
  ∀ (s : State) (w : Word) (rest : List Turn),
    s.status.busy = false → s.schedule = .host (.regWrite { offset := 0x00#32, bytes := 4 } w) :: rest →
    ∃ t, step s = .next t ∧ t =
      { s with
        schedule := rest, opl := w, strl := s.strict,
        status := { busy := true, done := false, found := false, capOk := false, fmt := .unsupported, wrap := false,
                    ovr := false, err := .noError },
        outLen := 0#32, maxChars := 0#32, pos := 0#32, phase := .decode, tail := t.tail }

/-- R74, R186: an illegal word is accepted as any other, so `BUSY` becomes 1, and the next micro-step ends the command with
`ILLEGAL_COMMAND`, whatever the registers and memories hold; `FMT` is 0. -/
def Obligations.IllegalWordEndsAtDecode : Prop :=
  ∀ (s : State) (w : Word), (∀ i, w ≠ encode i) → s.status.busy = false →
    s.schedule = [.host (.regWrite { offset := 0x00#32, bytes := 4 } w)] →
    ∃ t, step s = .next t ∧ t = { s.accept w with schedule := [] } ∧ t.status.busy = true ∧
      ∃ u, step t = .next u ∧ u.status.busy = false ∧ u.status.done = true ∧ u.status.err = .illegalCommand ∧
        u.status.fmt = .unsupported ∧ u.pos = 0#32 ∧ u.outLen = 0#32 ∧ u.phase = .idle ∧
        u.car = s.car ∧ u.msg = s.msg ∧ u.out = s.out

/-- R41, R200: in the state right after power-on, and in the state a reset leaves from any other, every register and hidden
field reads its reset value; and such a state waits for a host access. -/
def Obligations.ResetStateIsIdleAndZero : Prop :=
  (∀ (s : State) (rest : List Turn), s.schedule = .reset :: rest → ∃ t, step s = .next t) ∧
    ∀ t : State, (t = State.reset ∨ ∃ s rest, s.schedule = Turn.reset :: rest ∧ step s = .next t) →
      (t.readReg .cmd = 0#32 ∧ statusWord t.status = 0#32 ∧ cfgWord t.strict = 0#32 ∧ t.carSize = 0#32 ∧
          t.msgLen = 0#32 ∧ t.outLen = 0#32 ∧ t.maxChars = 0#32 ∧ t.pos = 0#32 ∧ t.phase = .idle ∧ t.opl = 0#32 ∧
          t.strl = false ∧ t.j = 0#32 ∧ t.k = 0#32 ∧ t.acc = 0#8 ∧ t.tail = 0#24 ∧ t.eq = false) ∧
        (t.schedule = [] → step t = .next t)

/-- R200, R201: a reset from any state, busy or not, puts every register and hidden field at its reset value and keeps
every memory byte; a power cycle leaves no memory byte with a value (log entries 9, 15). -/
def Obligations.ResetClearsRegistersKeepsMemory : Prop :=
  ∀ (s : State) (rest : List Turn),
    (s.schedule = .reset :: rest →
      step s = .next { State.reset with
        car := s.car, msg := s.msg, out := s.out, caps := s.caps, schedule := rest, hostGot := s.hostGot,
        draws := s.draws }) ∧
      (s.schedule = .powerOn :: rest →
        step s = .next { State.reset with
          caps := s.caps, schedule := rest, hostGot := s.hostGot, draws := s.draws })

/-! ### The host's accesses -/

/-- R205: while busy the four writable registers and every memory byte ignore the host and set `OVR`; the read-only and
reserved registers ignore it at any time without setting `OVR`; and only acceptance (or a reset) clears `OVR`. That a
reset and a power-on clear it too is R200, R201 and R41. -/
def Obligations.IgnoredHostWrites : Prop :=
  (∀ (s : State) (rest : List Turn) (p : RegPort) (v : Word), s.status.busy = true → p.bytes = 4 →
      (p.offset = 0x00#32 ∨ p.offset = 0x08#32 ∨ p.offset = 0x0C#32 ∨ p.offset = 0x10#32) →
      s.schedule = .host (.regWrite p v) :: rest →
      step s = .next { s with schedule := rest, status := { s.status with ovr := true } }) ∧
    (∀ (s : State) (rest : List Turn) (sp : Space) (a : Word) (b : Byte), s.status.busy = true →
      a.toNat < s.caps.size sp → s.schedule = .host (.memWrite sp a b) :: rest →
      step s = .next { s with schedule := rest, status := { s.status with ovr := true } }) ∧
    (∀ (s : State) (rest : List Turn) (p : RegPort) (v : Word), p.bytes = 4 → p.offset.toNat % 4 = 0 →
      (p.offset = 0x04#32 ∨ 0x14 ≤ p.offset.toNat ∧ p.offset.toNat ≤ 0x3C) →
      s.schedule = .host (.regWrite p v) :: rest → step s = .next { s with schedule := rest }) ∧
    ∀ s t : State, step s = .next t → s.status.ovr = true → t.status.ovr = false →
      ∃ rest, s.schedule = .reset :: rest ∨ s.schedule = .powerOn :: rest ∨
        ∃ p w, s.schedule = .host (.regWrite p w) :: rest ∧ p.offset = 0x00#32 ∧ s.status.busy = false

/-- R22, R23, R24, R26: an idle block takes the host's value into `CAR_SIZE`, `MSG_LEN` and `CFG.PPM_STRICT` and changes
nothing else. -/
def Obligations.IdleRegisterWrites : Prop :=
  ∀ (s : State) (rest : List Turn) (p : RegPort) (v : Word), s.status.busy = false → p.bytes = 4 →
    s.schedule = .host (.regWrite p v) :: rest →
    (p.offset = 0x08#32 → step s = .next { s with schedule := rest, strict := v.getLsbD 0 }) ∧
      (p.offset = 0x0C#32 → step s = .next { s with schedule := rest, carSize := v }) ∧
      (p.offset = 0x10#32 → step s = .next { s with schedule := rest, msgLen := v })

/-- R20, R29, R30, R59: a register read at any time returns the current value, 0 from `CMD` and the reserved offsets,
and changes nothing but what the host holds. That what the host holds is a field is the model's choice (log entry 12).
-/
def Obligations.RegisterReads : Prop :=
  ∀ (s : State) (rest : List Turn) (p : RegPort), p.bytes = 4 → p.offset.toNat % 4 = 0 → p.offset.toNat ≤ 0x3C →
    s.schedule = .host (.regRead p) :: rest →
    ∃ v, step s = .next { s with schedule := rest, hostGot := .word v } ∧
      (p.offset = 0x00#32 → v = 0#32) ∧ (p.offset = 0x04#32 → v = statusWord s.status) ∧
      (p.offset = 0x08#32 → v = cfgWord s.strict) ∧ (p.offset = 0x0C#32 → v = s.carSize) ∧
      (p.offset = 0x10#32 → v = s.msgLen) ∧ (p.offset = 0x14#32 → v = s.outLen) ∧
      (p.offset = 0x18#32 → v = s.maxChars) ∧ (p.offset = 0x1C#32 → v = s.pos) ∧
      (0x20 ≤ p.offset.toNat → v = 0#32)

/-- R21, R26, R180: where each field of `STATUS` and `CFG` stands in the word a host reads, and the codes of `FMT` and
`ERR`; the reserved bits read 0, `FMT` is never 3 and `ERR` never 8 or more. -/
def Obligations.StatusWordLayout : Prop :=
  (∀ f : Status,
      (statusWord f).getLsbD 0 = f.busy ∧ (statusWord f).getLsbD 1 = f.done ∧ (statusWord f).getLsbD 2 = f.found ∧
        (statusWord f).getLsbD 3 = f.capOk ∧ (statusWord f).extractLsb' 4 2 = formatCode f.fmt ∧
        (statusWord f).getLsbD 6 = f.wrap ∧ (statusWord f).getLsbD 7 = f.ovr ∧
        (statusWord f).extractLsb' 8 4 = errorCode f.err ∧ (statusWord f).extractLsb' 12 20 = 0#20 ∧
        (statusWord f).extractLsb' 4 2 ≠ 3#2 ∧ ((statusWord f).extractLsb' 8 4).toNat ≤ 7) ∧
    (∀ b : Bool, (cfgWord b).getLsbD 0 = b ∧ (cfgWord b).extractLsb' 1 31 = 0#31) ∧
    (errorCode .noError = 0#4 ∧ errorCode .unsupportedFormat = 1#4 ∧ errorCode .insufficientCapacity = 2#4 ∧
      errorCode .unterminatedMessage = 3#4 ∧ errorCode .malformedMessage = 4#4 ∧ errorCode .illegalCommand = 5#4 ∧
      errorCode .outputOverflow = 6#4 ∧ errorCode .badConfig = 7#4) ∧
    formatCode .unsupported = 0#2 ∧ formatCode .bmp = 1#2 ∧ formatCode .ppm = 2#2

/-- R206: the three kinds of access the model refuses, in any state. -/
def Obligations.ProtocolViolationsRefused : Prop :=
  ∀ (s : State) (rest : List Turn),
    (∀ p v, (p.bytes ≠ 4 ∨ p.offset.toNat % 4 ≠ 0 ∨ 0x3C < p.offset.toNat) →
      (s.schedule = .host (.regRead p) :: rest → ∃ r, step s = .refused r) ∧
        (s.schedule = .host (.regWrite p v) :: rest → ∃ r, step s = .refused r)) ∧
      (∀ sp a b, s.caps.size sp ≤ a.toNat →
        (s.schedule = .host (.memRead sp a) :: rest → ∃ r, step s = .refused r) ∧
          (s.schedule = .host (.memWrite sp a b) :: rest → ∃ r, step s = .refused r)) ∧
      ∀ a, s.schedule = .secondHost a :: rest → ∃ r, step s = .refused r

/-- R207: a host memory read while busy returns some byte and changes nothing else of the block; whatever
`Config.freeByte` is (log entry 10). -/
def Obligations.BusyMemoryReadReturnsSomeByte : Prop :=
  ∀ (s : State) (rest : List Turn) (sp : Space) (a : Word), s.status.busy = true → a.toNat < s.caps.size sp →
    s.schedule = .host (.memRead sp a) :: rest →
    ∃ b, step s = .next { s with schedule := rest, hostGot := .byte b, draws := s.draws + 1 }

/-- R59, R61: an idle host write is read back by the host, and no other byte and no register changes. That what the
host's read returned is a field is the model's choice (log entry 12). -/
def Obligations.IdleHostWriteReadsBack : Prop :=
  ∀ (s : State) (rest : List Turn) (sp : Space) (a : Word) (b : Byte), s.status.busy = false →
    a.toNat < s.caps.size sp → s.schedule = .host (.memWrite sp a b) :: .host (.memRead sp a) :: rest →
    ∃ t, stepN 2 s = .next t ∧ t.hostGot = .byte b ∧ (t.mem sp).read a.toNat = some b ∧
      (∀ sp' x, (sp' ≠ sp ∨ x ≠ a.toNat) → (t.mem sp').read x = (s.mem sp').read x) ∧
      t = { s with schedule := rest, hostGot := .byte b, car := t.car, msg := t.msg, out := t.out }

/-- R204: an idle host read of a byte nothing has written faults, and so does the engine's first carrier read. That the
host's idle read faults too is the model's reading (log entry 9). -/
def Obligations.UnwrittenReadsFault : Prop :=
  (∀ (s : State) (rest : List Turn) (sp : Space) (a : Word), s.status.busy = false → a.toNat < s.caps.size sp →
      (s.mem sp).read a.toNat = none → s.schedule = .host (.memRead sp a) :: rest →
      step s = .fault (.unwritten sp a.toNat)) ∧
    ∀ (s : State) (i : Instr), s.phase = .sniff none → 2 ≤ s.carSize.toNat → s.car.read 0 = none →
      exec i s = .fault (.unwritten .car 0)

/-! ### The pure functions of the sub-units -/

/-- R101: the sniffer's verdict on every pair of bytes, size and mode, as the code it returns. -/
def Obligations.SniffVerdict : Prop :=
  ∀ (b0 b1 : Byte) (n : Nat) (strict : Bool),
    (formatCode (sniff b0 b1 n strict) = 1#2 ↔ 2 ≤ n ∧ b0 = 0x42#8 ∧ b1 = 0x4D#8) ∧
      (formatCode (sniff b0 b1 n strict) = 2#2 ↔
        2 ≤ n ∧ b0 = 0x50#8 ∧ (b1 = 0x36#8 ∨ strict = true ∧ b1 = 0x33#8)) ∧
      formatCode (sniff b0 b1 n strict) ≠ 3#2

/-- R112: "EOF" is found exactly where its three bytes stand in a row. -/
def Obligations.ContainsEofIffSomewhere : Prop :=
  ∀ m : List Byte, containsEof m = true ↔
    ∃ i, i + 3 ≤ m.length ∧ m[i]? = some 0x45#8 ∧ m[i + 1]? = some 0x4F#8 ∧ m[i + 2]? = some 0x46#8

/-- R114: when the message holds no "EOF", none stands before the real end sentinel in the decoded stream. -/
def Obligations.NoEarlyEofInStream : Prop :=
  ∀ (m : List Byte) (n : Nat), containsEof m = false → n < m.length + 3 → containsEof ((m ++ eof).take n) = false

/-- R110, R120, R141: bit `8*i + k` of a string's bits is bit `7 - k` of its byte `i`, and the payload's bits are those of
the message between its sentinels. -/
def Obligations.PayloadBitsMsbFirst : Prop :=
  (∀ s : List Byte, (toBits s).length = 8 * s.length ∧
      ∀ i k b, k < 8 → s[i]? = some b → (toBits s)[8 * i + k]? = some (b.getLsbD (7 - k))) ∧
    ∀ m : List Byte, frame m = [0x42#8, 0x4F#8, 0x46#8] ++ m ++ [0x45#8, 0x4F#8, 0x46#8] ∧
      (frame m).length = m.length + 6 ∧ payloadBits m = toBits (frame m)

/-- R123: the codec's inverse law, both ways. -/
def Obligations.CodecInverse : Prop :=
  (∀ m : List Byte, fromBits (toBits m) = m) ∧
    ∀ bs : List Bool, bs.length % 8 = 0 → toBits (fromBits bs) = bs

/-- R122: each byte of `fromBits` is the weighted sum of its 8 bits, which is what the engine's shift-in from 0 gives. -/
def Obligations.ShiftInSumsWeights : Prop :=
  ∀ (bs : List Bool) (n : Nat), bs.length = 8 * n →
    (fromBits bs).length = n ∧ ∀ i, i < n → ∃ b, (fromBits bs)[i]? = some b ∧
      b.toNat = ((List.range 8).map fun k => if bs[8 * i + k]? = some true then 2 ^ (7 - k) else 0).sum ∧
      b = ((bs.drop (8 * i)).take 8).foldl shiftIn 0#8

/-- R124, R126, R127, R129: parity is the byte modulo 2; adjust writes exactly when the parity is wrong, writes the byte
plus 1 modulo 256, and leaves the wanted parity; only 0xFF wraps. -/
def Obligations.AdjustFixesParity : Prop :=
  ∀ (b : Byte) (want : Bool),
    (parity b = true ↔ b.toNat % 2 = 1) ∧
      ((adjust b want).1 = true ↔ parity b ≠ want) ∧
      (parity b = want → (adjust b want).2 = b) ∧
      (parity b ≠ want → (adjust b want).2.toNat = (b.toNat + 1) % 256) ∧
      parity (adjust b want).2 = want ∧
      ((adjust b want).2.toNat < b.toNat ↔ b = 0xFF#8 ∧ want = false)

/-! ### Micro-steps -/

/-- R187, R75: every command ends with `BAD_CONFIG` at decode when a length is larger than its memory, and goes on to the
gate otherwise. -/
def Obligations.DecodeChecksLengths : Prop :=
  ∀ (s : State) (i : Instr), s.phase = .decode →
    (¬ s.configured i → exec i s = .next { s with
        status := { s.status with err := .badConfig, busy := false, done := true }, pos := 0#32, outLen := 0#32,
        phase := .idle }) ∧
      (s.configured i → exec i s = .next { s with phase := .sniff none })

/-- R102: the gate's first read of a carrier of two bytes or more, for every command. That the byte is held in `PHASE`
is the model's choice (log entry 4). -/
def Obligations.GateReadsFirstByte : Prop :=
  ∀ (s : State) (i : Instr) (b : Byte), s.phase = .sniff none → 2 ≤ s.carSize.toNat → s.car.read 0 = some b →
    exec i s = .next { s with phase := .sniff (some b) }

/-- R102, R103: IDENTIFY's verdict ends the command without error, for a short carrier at once and otherwise on the second
byte. -/
def Obligations.IdentifyFinishesWithVerdict : Prop :=
  ∀ (s : State),
    (s.phase = .sniff none → s.carSize.toNat < 2 → exec .identify s = .next { s with
        status := { s.status with fmt := .unsupported, err := .noError, busy := false, done := true },
        phase := .idle }) ∧
      ∀ b0 b1, s.phase = .sniff (some b0) → s.car.read 1 = some b1 → exec .identify s = .next { s with
        status := { s.status with
          fmt := sniff b0 b1 s.carSize.toNat s.strl, err := .noError, busy := false, done := true },
        phase := .idle }

/-- R102: for EMBED, CHECK and EXTRACT an unsupported carrier ends the command with `UNSUPPORTED_FORMAT` and a supported
one goes on to the command's next phase. -/
def Obligations.GateAdmitsSupportedCarriers : Prop :=
  ∀ (s : State) (i : Instr), i ≠ .identify →
    (s.phase = .sniff none → s.carSize.toNat < 2 → exec i s = .next { s with
        status := { s.status with fmt := .unsupported, err := .unsupportedFormat, busy := false, done := true },
        pos := 0#32, outLen := 0#32, phase := .idle }) ∧
      ∀ b0 b1, s.phase = .sniff (some b0) → s.car.read 1 = some b1 →
        (sniff b0 b1 s.carSize.toNat s.strl = .unsupported → exec i s = .next { s with
            status := { s.status with fmt := .unsupported, err := .unsupportedFormat, busy := false, done := true },
            pos := 0#32, outLen := 0#32, phase := .idle }) ∧
          (sniff b0 b1 s.carSize.toNat s.strl ≠ .unsupported → exec i s = .next { s with
            status := { s.status with fmt := sniff b0 b1 s.carSize.toNat s.strl },
            phase := if i = .extract then .probe [] .start else .validate [] })

/-- R113: EMBED and CHECK read the message byte by byte, then end with `MALFORMED_MESSAGE` or go on. That the bytes are
held in `PHASE`, to the command's end, and that the check is a micro-step of its own as R211 counts, is the model's
choice (log entries 4, 5, 7). -/
def Obligations.ValidateRejectsEof : Prop :=
  ∀ (s : State) (i : Instr) (m : List Byte), readsMessage i = true → s.phase = .validate m →
    (∀ b, m.length < s.msgLen.toNat → m.length < s.caps.msgCap → s.msg.read m.length = some b →
        exec i s = .next { s with phase := .validate (m ++ [b]) }) ∧
      (s.msgLen.toNat ≤ m.length → containsEof m = true → exec i s = .next { s with
        status := { s.status with err := .malformedMessage, busy := false, done := true }, pos := 0#32, outLen := 0#32,
        phase := .idle }) ∧
      (s.msgLen.toNat ≤ m.length → containsEof m = false → exec i s = .next { s with phase := .capchk m })

/-- R142: EMBED's capacity check. -/
def Obligations.EmbedChecksCapacity : Prop :=
  ∀ (s : State) (m : List Byte), s.phase = .capchk m →
    (s.carSize.toNat < 200 + 8 * (s.msgLen.toNat + 6) → exec .embed s = .next { s with
        status := { s.status with err := .insufficientCapacity, busy := false, done := true }, pos := 0#32,
        outLen := 0#32, phase := .idle }) ∧
      (200 + 8 * (s.msgLen.toNat + 6) ≤ s.carSize.toNat → exec .embed s = .next { s with
        j := 0#32, pos := 200#32, phase := .walk m .read })

/-- R143, R141: the walk's read micro-step on the byte at `HDR + J`: a right parity goes on to the next index, or ends the
command after the last; a wrong one leaves the write of the byte plus 1 to the next micro-step. The wanted bit is the
payload's of the message in `MSG`, each payload byte being the one R111 gives. The model's reading: those bytes are the
ones the validate phase has read, which wait in `PHASE` (log entry 5); the loop's advance and exit are in this
micro-step, so that `J` has advanced while `POS` is still `200 + J` of the byte read (log entry 7, from R28 and R211);
the bytes to write wait in `PHASE` (log entry 4). -/
def Obligations.EmbedWalkReads : Prop :=
  ∀ (s : State) (m : List Byte), s.Inv → s.phase = .walk m .read → s.messageIs m ∧ s.servesPayload m ∧
    ∀ (b : Byte) (want : Bool), s.car.read (200 + s.j.toNat) = some b → (payloadBits m)[s.j.toNat]? = some want →
      (parity b = want → s.j.toNat + 1 < s.nBits → exec .embed s = .next { s with
          pos := BitVec.ofNat 32 (200 + s.j.toNat), j := BitVec.ofNat 32 (s.j.toNat + 1) }) ∧
        (parity b = want → s.j.toNat + 1 = s.nBits → exec .embed s = .next { s with
          pos := BitVec.ofNat 32 (200 + s.nBits), j := BitVec.ofNat 32 s.nBits,
          status := { s.status with err := .noError, busy := false, done := true }, phase := .idle }) ∧
        (parity b ≠ want → exec .embed s = .next { s with
          pos := BitVec.ofNat 32 (200 + s.j.toNat), phase := .walk m (.write b (b + 1#8)) })

/-- R143, R145: the walk's write micro-step stores the incremented byte at `HDR + J` and nothing else, sets `WRAP` when
the byte was 0xFF, and goes on or ends the command. The model's reading: the loop's advance and exit are in the write's
micro-step, `POS` as before until the end (log entry 7, from R28 and R211). -/
def Obligations.EmbedWalkWrites : Prop :=
  ∀ (s : State) (m : List Byte) (b b2 : Byte), s.Inv → s.phase = .walk m (.write b b2) →
    ∃ t, exec .embed s = .next t ∧ t.car.read (200 + s.j.toNat) = some (b + 1#8) ∧
      (∀ a, a ≠ 200 + s.j.toNat → t.car.read a = s.car.read a) ∧
      (s.j.toNat + 1 < s.nBits → t = { s with
        car := t.car, j := BitVec.ofNat 32 (s.j.toNat + 1), phase := .walk m .read,
        status := { s.status with wrap := s.status.wrap || b == 0xFF#8 } }) ∧
      (s.j.toNat + 1 = s.nBits → t = { s with
        car := t.car, j := BitVec.ofNat 32 s.nBits, pos := BitVec.ofNat 32 (200 + s.nBits), phase := .idle,
        status := { s.status with
          wrap := s.status.wrap || b == 0xFF#8, err := .noError, busy := false, done := true } })

/-- R150, R151: CHECK's capacity verdict, with `MAX_CHARS` written whatever it is. -/
def Obligations.CheckGivesCapacityVerdict : Prop :=
  ∀ (s : State) (m : List Byte), s.phase = .capchk m →
    ∃ t, exec .check s = .next t ∧ t.maxChars.toNat = s.carSize.toNat / 8 ∧
      (s.carSize.toNat < 200 + 8 * (s.msgLen.toNat + 6) → t = { s with
        maxChars := t.maxChars, phase := .idle,
        status := { s.status with capOk := false, found := false, err := .noError, busy := false, done := true } }) ∧
      (200 + 8 * (s.msgLen.toNat + 6) ≤ s.carSize.toNat → t = { s with
        maxChars := t.maxChars, j := 0#32, phase := .probe m .start, status := { s.status with capOk := true } })

/-- R152, R141: one read of CHECK's probe: `EQ` keeps whether every parity so far was the payload bit, starting from 1,
with no early exit; after the last index `FOUND` is `EQ` and the command ends. The wanted bit is the payload's of the
message in `MSG`, each payload byte being the one R111 gives. The model's reading: those bytes are the ones the validate
phase has read, which wait in `PHASE` (log entry 5); the set-up is in the first read's micro-step, the advance and the
exit with `FOUND` in the read's own (log entry 7, from R28 and R211). -/
def Obligations.CheckComparesParities : Prop :=
  ∀ (s : State) (m : List Byte) (next : ProbeStep), s.Inv → decode s.opl = .ok .check → s.phase = .probe m next →
    s.messageIs m ∧ s.servesPayload m ∧
      ∀ (b : Byte) (want : Bool), s.car.read (200 + s.j.toNat) = some b → (payloadBits m)[s.j.toNat]? = some want →
        ∃ e, e = ((next = .read → s.eq = true) ∧ parity b = want : Bool) ∧
          (s.j.toNat + 1 < s.nBits → exec .check s = .next { s with
            pos := BitVec.ofNat 32 (200 + s.j.toNat), j := BitVec.ofNat 32 (s.j.toNat + 1), eq := e,
            phase := .probe m .read }) ∧
          (s.j.toNat + 1 = s.nBits → exec .check s = .next { s with
            pos := BitVec.ofNat 32 (200 + s.nBits), j := BitVec.ofNat 32 s.nBits, eq := e,
            status := { s.status with found := e, err := .noError, busy := false, done := true }, phase := .idle })

/-- R155, R156: the BOF probe of EXTRACT: a carrier under 224 bytes ends the command with `FOUND = 0`; otherwise each
read compares one parity with the sentinel's bit, and after 24 of them a mismatch ends the command and a match starts
the scan. The model's reading: the set-up is in the first read's micro-step, `POS = 224`, `FOUND` and the verdict in the
24th read's (log entry 7, from R28 and R211). -/
def Obligations.ExtractProbesForBof : Prop :=
  ∀ (s : State) (m : List Byte) (next : ProbeStep), s.Inv → decode s.opl = .ok .extract → s.phase = .probe m next →
    (next = .start → s.carSize.toNat < 224 → exec .extract s = .next { s with
        status := { s.status with found := false, err := .noError, busy := false, done := true }, phase := .idle }) ∧
      ∀ (b : Byte) (j : Nat) (want : Bool), 224 ≤ s.carSize.toNat →
        j = (if next = .start then 0 else s.j.toNat) →
        s.car.read (200 + j) = some b → (toBits bof)[j]? = some want →
        ∃ e, e = ((next = .read → s.eq = true) ∧ parity b = want : Bool) ∧
          (j + 1 < 24 → exec .extract s = .next { s with
            pos := BitVec.ofNat 32 (200 + j), j := BitVec.ofNat 32 (j + 1), eq := e, phase := .probe [] .read }) ∧
          (j + 1 = 24 → e = false → exec .extract s = .next { s with
            pos := 224#32, j := 24#32, eq := e,
            status := { s.status with found := false, err := .noError, busy := false, done := true },
            phase := .idle }) ∧
          (j + 1 = 24 → e = true → exec .extract s = .next { s with
            pos := 224#32, j := 24#32, eq := e, k := 0#32, tail := 0#24,
            status := { s.status with found := true }, phase := .scan 0 })

/-- R160, R161: a scan chunk that does not fit in the carrier ends the command with `UNTERMINATED_MESSAGE` at its
offset; otherwise each of its 8 bytes shifts its parity into `ACC`, which starts from 0. The model's reading: the guard
is part of the chunk's first read, and a micro-step of its own only when it raises (log entry 7, from R211). -/
def Obligations.ExtractReadsChunk : Prop :=
  ∀ (s : State) (n : Nat), s.Inv → s.phase = .scan n → n < 8 →
    (n = 0 → s.carSize.toNat < s.pos.toNat + 8 → exec .extract s = .next { s with
        status := { s.status with err := .unterminatedMessage, busy := false, done := true }, outLen := 0#32,
        phase := .idle }) ∧
      ∀ b, s.pos.toNat + 8 ≤ s.carSize.toNat → s.car.read (s.pos.toNat + n) = some b →
        ∃ acc, acc.toNat = (2 * (if n = 0 then 0 else s.acc.toNat) + b.toNat % 2) % 256 ∧
          exec .extract s = .next { s with acc := acc, phase := .scan (n + 1) }

/-- R160, R163, R25: after a whole chunk the character is stored at `OUT[K]`, or ends the command with `OUTPUT_OVERFLOW`
when `OUT` is full; at "EOF" the command ends with `OUT_LEN = K - 3` of the new `K`, else the next chunk follows. The
model's reading: the overflow check, the advance of `K` and `POS` and the "EOF" test are in the store's micro-step (log
entry 7, from R28 and R211). -/
def Obligations.ExtractStoresCharacter : Prop :=
  ∀ s : State, s.Inv → s.phase = .scan 8 →
    (s.caps.outCap ≤ s.k.toNat → exec .extract s = .next { s with
        status := { s.status with err := .outputOverflow, busy := false, done := true }, outLen := 0#32,
        phase := .idle }) ∧
      (s.k.toNat < s.caps.outCap →
        ∃ t tail, exec .extract s = .next t ∧ tail.toNat = (s.tail.toNat * 256 + s.acc.toNat) % 2 ^ 24 ∧
          t.out.read s.k.toNat = some s.acc ∧ (∀ a, a ≠ s.k.toNat → t.out.read a = s.out.read a) ∧
          ((2 ≤ s.k.toNat ∧ tail = 0x454F46#24) → t = { s with
            out := t.out, tail := tail, k := BitVec.ofNat 32 (s.k.toNat + 1),
            pos := BitVec.ofNat 32 (s.pos.toNat + 8), outLen := BitVec.ofNat 32 (s.k.toNat - 2),
            status := { s.status with err := .noError, busy := false, done := true }, phase := .idle }) ∧
          (¬ (2 ≤ s.k.toNat ∧ tail = 0x454F46#24) → t = { s with
            out := t.out, tail := tail, k := BitVec.ofNat 32 (s.k.toNat + 1),
            pos := BitVec.ofNat 32 (s.pos.toNat + 8), phase := .scan 0 }))

/-! ### Frames -/

/-- R103, R104: IDENTIFY's micro-steps change no memory, no host-written register and no hidden field but `PHASE`; of
`STATUS` only `FMT`, `ERR`, `BUSY` and `DONE`; `POS` and `OUT_LEN` only to 0, by an error. -/
def Obligations.IdentifyFrame : Prop :=
  ∀ s t : State, exec .identify s = .next t →
    t = { s with
      phase := t.phase, pos := t.pos, outLen := t.outLen,
      status := { s.status with
        fmt := t.status.fmt, err := t.status.err, busy := t.status.busy, done := t.status.done } } ∧
      (t.pos = s.pos ∨ t.pos = 0#32) ∧ (t.outLen = s.outLen ∨ t.outLen = 0#32)

/-- R142, R143, R144, R145: EMBED's micro-steps write `CAR` only in the walk's write, and there only the byte at
`HDR + J`; no other memory, no host-written register, and of the hidden fields only `PHASE` and `J`; of `STATUS` not
`FOUND`, `CAP_OK` or `OVR`. -/
def Obligations.EmbedFrame : Prop :=
  ∀ s t : State, exec .embed s = .next t →
    t = { s with
      phase := t.phase, pos := t.pos, outLen := t.outLen, j := t.j, car := t.car,
      status := { s.status with
        fmt := t.status.fmt, wrap := t.status.wrap, err := t.status.err, busy := t.status.busy,
        done := t.status.done } } ∧
      (t.outLen = s.outLen ∨ t.outLen = 0#32) ∧
      (∀ m b b2, s.phase = .walk m (.write b b2) → ∀ a, a ≠ hdr + s.j.toNat → t.car.read a = s.car.read a) ∧
      ((∀ m b b2, s.phase ≠ .walk m (.write b b2)) → t.car = s.car)

/-- R150, R152: CHECK's micro-steps write no memory, no host-written register, and of the hidden fields only `PHASE`, `J`
and `EQ`; of `STATUS` not `WRAP` or `OVR`. -/
def Obligations.CheckFrame : Prop :=
  ∀ s t : State, exec .check s = .next t →
    t = { s with
      phase := t.phase, pos := t.pos, outLen := t.outLen, maxChars := t.maxChars, j := t.j, eq := t.eq,
      status := { s.status with
        fmt := t.status.fmt, found := t.status.found, capOk := t.status.capOk, err := t.status.err,
        busy := t.status.busy, done := t.status.done } } ∧
      (t.outLen = s.outLen ∨ t.outLen = 0#32) ∧ ((∀ m, s.phase ≠ .capchk m) → t.maxChars = s.maxChars)

/-- R53, R155, R160: EXTRACT's micro-steps write `OUT` only when a whole chunk has been read, and there only the byte at
`K`; no other memory, no host-written register, not `MAX_CHARS`; of `STATUS` not `CAP_OK`, `WRAP` or `OVR`. -/
def Obligations.ExtractFrame : Prop :=
  ∀ s t : State, exec .extract s = .next t →
    t = { s with
      phase := t.phase, pos := t.pos, outLen := t.outLen, j := t.j, k := t.k, acc := t.acc, tail := t.tail,
      eq := t.eq, out := t.out,
      status := { s.status with
        fmt := t.status.fmt, found := t.status.found, err := t.status.err, busy := t.status.busy,
        done := t.status.done } } ∧
      (∀ n, s.phase = .scan n → 8 ≤ n → ∀ a, a ≠ s.k.toNat → t.out.read a = s.out.read a) ∧
      ((∀ n, s.phase = .scan n → n < 8) → t.out = s.out)

/-! ### Rules of the whole machine -/

/-- The invariant holds at reset. -/
def Obligations.InvAtReset : Prop := State.reset.Inv

/-- Every step, whoever's turn it is, keeps the invariant. -/
def Obligations.EveryStepKeepsInv : Prop := ∀ s t : State, s.Inv → step s = .next t → t.Inv

/-- R60, R140, R204: from a state that meets the invariant, the only way a step faults is the read of a byte nothing has
written: no engine access leaves its memory, and no command is without a micro-step. That an unwritten byte has no value
and that unreachable states stop by name is the model's (log entries 9, 11). -/
def Obligations.OnlyUnwrittenBytesFault : Prop :=
  ∀ (s : State) (r : Fault), s.Inv → step s = .fault r → ∃ sp a, r = .unwritten sp a ∧ a < s.caps.size sp

/-- R7, R32, R52, R53, R60, R144: whatever command runs, the engine writes no carrier byte below 200 or at or above
`CAR_SIZE`, none at all unless the command is EMBED, no message byte, and no output byte unless the command is EXTRACT.
R40, R62: in any state a micro-step accesses at most one byte of one memory: it answers the same, but for the memories, on
any memories that hold the same byte there, and it changes no byte but that one. -/
def Obligations.EngineWritesOnlyWhereItMay : Prop :=
  (∀ (s t : State) (i : Instr), s.Inv → exec i s = .next t → decode s.opl = .ok i →
      (∀ a, (a < 200 ∨ s.carSize.toNat ≤ a) → t.car.read a = s.car.read a) ∧ (i ≠ .embed → t.car = s.car) ∧
        t.msg = s.msg ∧ (i ≠ .extract → t.out = s.out)) ∧
    ∀ (s : State) (i : Instr), ∃ sp a,
      (∀ c m o, ((s.withMems c m o).mem sp).read a = (s.mem sp).read a →
        match exec i s, exec i (s.withMems c m o) with
        | .next t, .next u => u = t.withMems u.car u.msg u.out ∧ (u.mem sp).read a = (t.mem sp).read a
        | .fault p, .fault q => p = q
        | .refused p, .refused q => p = q
        | _, _ => False) ∧
      ∀ t, exec i s = .next t → ∀ sp' x, (sp' ≠ sp ∨ x ≠ a) → (t.mem sp').read x = (s.mem sp').read x

/-- R125: what IDENTIFY, CHECK and EXTRACT do depends on the carrier only through its first two bytes and the parities from
offset 200 on: on two carriers that agree there, a command's steps answer the same but for the carrier itself. -/
def Obligations.OnlyParitiesMatter : Prop :=
  ∀ (s : State) (c : Memory) (i : Instr) (n : Nat), i ≠ .embed → s.Inv → s.schedule = [] →
    (∀ a, a < 2 → c.read a = s.car.read a) →
    (∀ a, 200 ≤ a → (c.read a).map parity = (s.car.read a).map parity) →
    stepN n ({ s with car := c }.accept (encode i)) =
      match stepN n (s.accept (encode i)) with
      | .next t => .next { t with car := c }
      | .fault r => .fault r
      | .refused r => .refused r

/-- R211: from acceptance, with the host making no access, every command ends within the bound of the rule; or it stops,
no later, at a byte of the carrier or of the message that nothing has written (log entry 9), so that it ends when the
host has written both. The alternative is R204's. -/
def Obligations.EveryCommandEnds : Prop :=
  ∀ (s : State) (i : Instr), s.Inv → s.status.busy = false → s.schedule = [] →
    ∃ n, n ≤ s.stepBound i ∧
      ((∃ t, stepN n (s.accept (encode i)) = .next t ∧ t.ended) ∨
        ∃ sp a, stepN n (s.accept (encode i)) = .fault (.unwritten sp a) ∧ (s.mem sp).read a = none ∧
          (sp = .car ∧ a < s.carSize.toNat ∨ sp = .msg ∧ a < s.msgLen.toNat))

/-! ### Whole commands -/

/-- R103, R104: IDENTIFY from acceptance to its end: the verdict in `FMT`, no error, and no other change. -/
def Obligations.IdentifyReportsFormat : Prop :=
  ∀ (s : State) (f : Format), s.ready .identify → s.sniffs f →
    ∃ n t, n ≤ 3 ∧ stepN n (s.accept (encode .identify)) = .next t ∧ t.ended ∧
      t.status = { Status.zero with done := true, fmt := f } ∧ t.pos = 0#32 ∧ t.outLen = 0#32 ∧
      t.maxChars = 0#32 ∧ t.car = s.car ∧ t.msg = s.msg ∧ t.out = s.out ∧ t.carSize = s.carSize

/-- R143, R144, R145, R146: EMBED from acceptance to its end, within R211's number of micro-steps: every payload bit is
adjusted into its carrier byte, every other byte of every memory is unchanged, `POS = HDR + N`, and `WRAP` is 1 exactly
when some byte went from 0xFF to 0x00. -/
def Obligations.EmbedWritesPayload : Prop :=
  ∀ (s : State) (f : Format) (m : List Byte), s.ready .embed → s.sniffs f → f ≠ .unsupported → s.messageIs m →
    containsEof m = false → 200 + 8 * (m.length + 6) ≤ s.carSize.toNat → s.car.written 200 (8 * (m.length + 6)) →
    ∃ n t, n ≤ s.stepBound .embed ∧ stepN n (s.accept (encode .embed)) = .next t ∧ t.ended ∧
      t.status.err = .noError ∧ t.status.found = false ∧ t.status.capOk = false ∧ t.status.fmt = f ∧
      t.pos.toNat = 200 + 8 * (m.length + 6) ∧
      (∀ j b want, s.car.read (200 + j) = some b → (payloadBits m)[j]? = some want →
        t.car.read (200 + j) = some (if parity b = want then b else b + 1#8)) ∧
      t.car.carries 200 (payloadBits m) ∧
      (∀ a, (a < 200 ∨ 200 + 8 * (m.length + 6) ≤ a) → t.car.read a = s.car.read a) ∧
      t.msg = s.msg ∧ t.out = s.out ∧
      (t.status.wrap = true ↔
        ∃ j, j < 8 * (m.length + 6) ∧ s.car.read (200 + j) = some 0xFF#8 ∧ t.car.read (200 + j) = some 0x00#8)

/-- R147 (its first sentence), R59: EMBED into a carrier that already holds the message leaves every byte as it is. -/
def Obligations.EmbedTwiceChangesNothing : Prop :=
  ∀ (s : State) (f : Format) (m : List Byte), s.ready .embed → s.sniffs f → f ≠ .unsupported → s.messageIs m →
    containsEof m = false → 200 + 8 * (m.length + 6) ≤ s.carSize.toNat → s.car.carries 200 (payloadBits m) →
    ∃ n t, stepN n (s.accept (encode .embed)) = .next t ∧ t.ended ∧ t.status.err = .noError ∧
      t.status.wrap = false ∧ t.car = s.car

/-- R185: the one error EMBED ends with is the first, in the order of the rule, whose cause holds; without any it ends
without error. -/
def Obligations.EmbedErrorPriority : Prop :=
  ∀ (s : State) (f : Format) (m : List Byte), s.status.busy = false → s.schedule = [] →
    (s.configured .embed → s.sniffs f ∧ s.messageIs m) →
    (200 + 8 * (m.length + 6) ≤ s.carSize.toNat → s.car.written 200 (8 * (m.length + 6))) →
    ∃ n t, stepN n (s.accept (encode .embed)) = .next t ∧ t.ended ∧
      (¬ s.configured .embed → t.status.err = .badConfig) ∧
      (s.configured .embed → f = .unsupported → t.status.err = .unsupportedFormat) ∧
      (s.configured .embed → f ≠ .unsupported → containsEof m = true → t.status.err = .malformedMessage) ∧
      (s.configured .embed → f ≠ .unsupported → containsEof m = false →
        s.carSize.toNat < 200 + 8 * (m.length + 6) → t.status.err = .insufficientCapacity) ∧
      (s.configured .embed → f ≠ .unsupported → containsEof m = false →
        200 + 8 * (m.length + 6) ≤ s.carSize.toNat → t.status.err = .noError)

/-- R142, R183: an EMBED that ends with an error has not changed `CAR`, whatever state it was accepted in. -/
def Obligations.FailedEmbedLeavesCarrier : Prop :=
  ∀ (s t : State) (n : Nat), s.schedule = [] → stepN n (s.accept (encode .embed)) = .next t → t.ended →
    t.status.err ≠ .noError → t.car = s.car

/-- R202, R201: when a reset ends EMBED in its walk, every carrier byte below the walk index is adjusted and every byte
from there on is as it was. -/
def Obligations.ResetLeavesEmbeddedPrefix : Prop :=
  ∀ (s t u : State) (m : List Byte) (n : Nat) (m' : List Byte) (next : WalkStep), s.ready .embed → s.messageIs m →
    stepN n (s.accept (encode .embed)) = .next t → t.phase = .walk m' next →
    step { t with schedule := [.reset] } = .next u →
    u.status = Status.zero ∧ u.phase = .idle ∧
      (∀ j b want, j < t.j.toNat → s.car.read (200 + j) = some b → (payloadBits m)[j]? = some want →
        u.car.read (200 + j) = some (if parity b = want then b else b + 1#8)) ∧
      ∀ a, (a < 200 ∨ 200 + t.j.toNat ≤ a) → u.car.read a = s.car.read a

/-- R150, R151, R152, R153: CHECK from acceptance to its end, within R211's number of micro-steps: `CAP_OK` is the
capacity law, `MAX_CHARS = CAR_SIZE / 8`, and `FOUND` is 1 exactly when the payload fits and every parity is its bit. -/
def Obligations.CheckReportsPresence : Prop :=
  ∀ (s : State) (f : Format) (m : List Byte), s.ready .check → s.sniffs f → f ≠ .unsupported → s.messageIs m →
    containsEof m = false →
    (200 + 8 * (m.length + 6) ≤ s.carSize.toNat → s.car.written 200 (8 * (m.length + 6))) →
    ∃ n t, n ≤ s.stepBound .check ∧ stepN n (s.accept (encode .check)) = .next t ∧ t.ended ∧
      t.status.err = .noError ∧ t.status.fmt = f ∧ t.status.wrap = false ∧ t.outLen = 0#32 ∧
      t.maxChars.toNat = s.carSize.toNat / 8 ∧
      (t.status.capOk = true ↔ 8 * (frame m).length + 200 ≤ s.carSize.toNat) ∧
      (t.status.found = true ↔
        200 + 8 * (m.length + 6) ≤ s.carSize.toNat ∧ s.car.carries 200 (payloadBits m)) ∧
      t.car = s.car ∧ t.msg = s.msg ∧ t.out = s.out

/-- R153 (the negative probe): a carrier that carries the payload of one message without "EOF" does not carry the payload
of another, so that CHECK of the other reports not found. -/
def Obligations.CarrierHoldsOneMessage : Prop :=
  ∀ (c : Memory) (m1 m2 : List Byte), containsEof m1 = false → containsEof m2 = false →
    c.carries 200 (payloadBits m1) → c.carries 200 (payloadBits m2) → m1 = m2

/-- R156: EXTRACT on a carrier under 224 bytes. -/
def Obligations.ExtractShortCarrier : Prop :=
  ∀ (s : State) (f : Format), s.ready .extract → s.sniffs f → f ≠ .unsupported → s.carSize.toNat < 224 →
    ∃ n t, n ≤ s.stepBound .extract ∧ stepN n (s.accept (encode .extract)) = .next t ∧ t.ended ∧
      t.status.found = false ∧ t.status.err = .noError ∧ t.pos = 0#32 ∧ t.outLen = 0#32 ∧
      t.car = s.car ∧ t.msg = s.msg ∧ t.out = s.out

/-- R157: EXTRACT on a carrier whose first 24 parities are not those of "BOF". -/
def Obligations.ExtractWithoutBof : Prop :=
  ∀ (s : State) (f : Format) (bits : List Bool), s.ready .extract → s.sniffs f → f ≠ .unsupported →
    224 ≤ s.carSize.toNat → s.car.carries 200 bits → bits.length = 24 → bits ≠ toBits bof →
    ∃ n t, n ≤ 27 ∧ stepN n (s.accept (encode .extract)) = .next t ∧ t.ended ∧
      t.status.found = false ∧ t.status.err = .noError ∧ t.pos = 224#32 ∧ t.outLen = 0#32 ∧
      t.car = s.car ∧ t.msg = s.msg ∧ t.out = s.out

/-- R160, R162, R165: EXTRACT on a carrier that carries "BOF", then `p`, then the first "EOF" of the stream: `OUT` holds
`p` and the sentinel, and `OUT_LEN` is the length of `p`; bytes after the sentinel do not matter. -/
def Obligations.ExtractDecodesToFirstEof : Prop :=
  ∀ (s : State) (f : Format) (p : List Byte), s.ready .extract → s.sniffs f → f ≠ .unsupported →
    s.car.carries 200 (toBits (bof ++ p ++ eof)) → 200 + 8 * (p.length + 6) ≤ s.carSize.toNat →
    (∀ n, n < p.length + 3 → containsEof ((p ++ eof).take n) = false) → p.length + 3 ≤ s.caps.outCap →
    ∃ n t, n ≤ s.stepBound .extract ∧ stepN n (s.accept (encode .extract)) = .next t ∧ t.ended ∧
      t.status = { Status.zero with done := true, found := true, fmt := f } ∧ t.outLen.toNat = p.length ∧
      t.pos.toNat = 224 + 8 * (p.length + 3) ∧ t.out.holds 0 (p ++ eof) ∧
      (∀ a, p.length + 3 ≤ a → t.out.read a = s.out.read a) ∧ t.car = s.car ∧ t.msg = s.msg

/-- R161: EXTRACT on a carrier whose whole chunks carry "BOF" and then no "EOF". -/
def Obligations.ExtractUnterminated : Prop :=
  ∀ (s : State) (f : Format) (p : List Byte), s.ready .extract → s.sniffs f → f ≠ .unsupported →
    s.car.carries 200 (toBits (bof ++ p)) → 200 + 8 * (p.length + 3) ≤ s.carSize.toNat →
    s.carSize.toNat < 200 + 8 * (p.length + 4) → containsEof p = false → p.length ≤ s.caps.outCap →
    ∃ n t, n ≤ s.stepBound .extract ∧ stepN n (s.accept (encode .extract)) = .next t ∧ t.ended ∧
      t.status.err = .unterminatedMessage ∧ t.status.found = true ∧ t.pos.toNat = 224 + 8 * p.length ∧
      t.outLen = 0#32 ∧ t.out.holds 0 p ∧ (∀ a, p.length ≤ a → t.out.read a = s.out.read a) ∧
      t.car = s.car ∧ t.msg = s.msg

/-- R163: EXTRACT on a carrier that carries "BOF" and then more characters than `OUT` holds before any "EOF". -/
def Obligations.ExtractOverflows : Prop :=
  ∀ (s : State) (f : Format) (p : List Byte), s.ready .extract → s.sniffs f → f ≠ .unsupported →
    s.car.carries 200 (toBits (bof ++ p)) → 200 + 8 * (p.length + 3) ≤ s.carSize.toNat →
    p.length = s.caps.outCap + 1 → containsEof (p.take s.caps.outCap) = false →
    ∃ n t, n ≤ s.stepBound .extract ∧ stepN n (s.accept (encode .extract)) = .next t ∧ t.ended ∧
      t.status.err = .outputOverflow ∧ t.status.found = true ∧ t.pos.toNat = 224 + 8 * s.caps.outCap ∧
      t.outLen = 0#32 ∧ t.out.holds 0 (p.take s.caps.outCap) ∧ t.car = s.car ∧ t.msg = s.msg

/-- R164: EMBED of a message without "EOF" that ends without error, then EXTRACT, gives the message back. -/
def Obligations.RoundTrip : Prop :=
  ∀ (s : State) (f : Format) (m : List Byte), s.ready .embed → s.sniffs f → f ≠ .unsupported → s.messageIs m →
    containsEof m = false → 200 + 8 * (m.length + 6) ≤ s.carSize.toNat → s.car.written 200 (8 * (m.length + 6)) →
    m.length + 3 ≤ s.caps.outCap →
    ∃ n t n' u, stepN n (s.accept (encode .embed)) = .next t ∧ t.ended ∧ t.status.err = .noError ∧
      stepN n' (t.accept (encode .extract)) = .next u ∧ u.ended ∧ u.status.err = .noError ∧
      u.status.found = true ∧ u.outLen.toNat = m.length ∧ u.out.holds 0 m

/-- R39: no command's outcome depends on what an earlier one left in the hidden fields: from acceptance the visible
registers, the memories and any fault are the same after every number of steps. -/
def Obligations.HiddenFieldsDoNotLeak : Prop :=
  ∀ (s : State) (w : Word) (opl : Word) (strl : Bool) (ph : Phase) (j k : Word) (acc : Byte) (tail : BitVec 24) (eq : Bool)
    (n : Nat), s.schedule = [] →
    match stepN n (s.accept w),
      stepN n ({ s with
        opl := opl, strl := strl, phase := ph, j := j, k := k, acc := acc, tail := tail, eq := eq }.accept w) with
    | .next t, .next u => u = { t with j := u.j, k := u.k, acc := u.acc, tail := u.tail, eq := u.eq }
    | .fault q, .fault r => q = r
    | .refused q, .refused r => q = r
    | _, _ => False
end

