-- ==== Sys2Proof/Laws/Memory.lean ====
section
/-! SUPPORT. The laws of a memory: a read after a write, and that a write keeps the canonical form and the capacity. -/

namespace Sys2Proof.Machine

@[simp] theorem read_nil (a : Nat) : Memory.read [] a = none := rfl

/-- A read of the address just written gives the byte written. -/
@[simp] theorem read_write_same (m : Memory) (a : Nat) (b : Byte) : (Memory.write m a b).read a = some b := by
  induction m with
  | nil => simp [Memory.write, Memory.read]
  | cons c m ih =>
    unfold Memory.write
    split
    · simp [Memory.read]
    · split
      · simp [Memory.read]
      · rename_i h1 h2
        have h3 : ¬ c.1 = a := fun h => h2 h.symm
        simp [Memory.read, h3, ih]

/-- A write leaves every other address alone. -/
theorem read_write_other (m : Memory) (a x : Nat) (b : Byte) (h : x ≠ a) : (Memory.write m a b).read x = m.read x := by
  induction m with
  | nil => simp [Memory.write, Memory.read, h.symm]
  | cons c m ih =>
    unfold Memory.write
    split
    · simp [Memory.read, h.symm]
    · split
      · rename_i h2
        have h3 : ¬ c.1 = x := fun h' => h (h'.symm.trans h2.symm)
        simp [Memory.read, h.symm, h3]
      · simp [Memory.read, ih]

/-- The first address of a written memory is the address written or the first one before. -/
theorem write_head (m : Memory) (a : Nat) (b : Byte) (lo : Nat) (ha : lo < a) (hm : ∀ c ∈ m.head?, lo < c.1) :
    ∀ c ∈ (Memory.write m a b).head?, lo < c.1 := by
  cases m with
  | nil => simp [Memory.write]; exact ha
  | cons c m =>
    unfold Memory.write
    split
    · simp; exact ha
    · split
      · simp; exact ha
      · simpa using hm

/-- A memory is canonical when its tail is and its first address is below the tail's first. -/
theorem wf_cons (c : Host.Cell) (m : Memory) :
    Memory.wf (c :: m) = true ↔ (∀ d ∈ m.head?, c.1 < d.1) ∧ Memory.wf m = true := by
  cases m with
  | nil => simp [Memory.wf]
  | cons d m => simp [Memory.wf]

/-- A write keeps the canonical form. -/
theorem write_wf (m : Memory) (a : Nat) (b : Byte) (h : m.wf = true) : (Memory.write m a b).wf = true := by
  induction m with
  | nil => rfl
  | cons c m ih =>
    have hc := (wf_cons c m).mp h
    unfold Memory.write
    split
    · rename_i h1
      exact (wf_cons _ _).mpr ⟨by simpa using h1, h⟩
    · split
      · rename_i h1 h2
        subst h2
        exact (wf_cons _ _).mpr ⟨hc.1, hc.2⟩
      · rename_i h1 h2
        exact (wf_cons _ _).mpr ⟨write_head m a b c.1 (by omega) hc.1, ih hc.2⟩

/-- A write below the capacity keeps every address below it. -/
theorem write_below (m : Memory) (cap a : Nat) (b : Byte) (ha : a < cap) (h : m.below cap = true) :
    (Memory.write m a b).below cap = true := by
  induction m with
  | nil => simp [Memory.write, Memory.below, ha]
  | cons c m ih =>
    simp only [Memory.below, List.all_cons, Bool.and_eq_true] at h ih
    unfold Memory.write
    split
    · simp [Memory.below, ha] at h ⊢
      exact h
    · split
      · simp [Memory.below, ha] at h ⊢
        exact h.2
      · have := ih h.2
        simp [Memory.below] at h this ⊢
        exact ⟨h.1, this⟩

/-- A byte that can be read lies below the capacity. -/
theorem read_below (m : Memory) (cap a : Nat) (b : Byte) (h : m.below cap = true) (hr : m.read a = some b) : a < cap := by
  induction m with
  | nil => simp at hr
  | cons c m ih =>
    simp only [Memory.below, List.all_cons, Bool.and_eq_true, decide_eq_true_eq] at h
    unfold Memory.read at hr
    split at hr
    · rename_i h1
      exact h1 ▸ h.1
    · exact ih h.2 hr

/-- The memories are canonical at reset. -/
theorem reset_memory_wf (sp : Space) : (State.reset.mem sp).wf = true := by cases sp <;> rfl

end Sys2Proof.Machine
end

