-- ==== Sys2Proof/Laws/State.lean ====
section
/-! SUPPORT. One lemma per field of State per update, each true by unfolding the update once. -/

namespace Sys2Proof.Machine

@[simp] theorem statusEnded_busy (e : ErrCode) (f : Status) : (statusEnded e f).busy = false := rfl
@[simp] theorem statusEnded_done (e : ErrCode) (f : Status) : (statusEnded e f).done = true := rfl
@[simp] theorem statusEnded_found (e : ErrCode) (f : Status) : (statusEnded e f).found = f.found := rfl
@[simp] theorem statusEnded_capOk (e : ErrCode) (f : Status) : (statusEnded e f).capOk = f.capOk := rfl
@[simp] theorem statusEnded_fmt (e : ErrCode) (f : Status) : (statusEnded e f).fmt = f.fmt := rfl
@[simp] theorem statusEnded_wrap (e : ErrCode) (f : Status) : (statusEnded e f).wrap = f.wrap := rfl
@[simp] theorem statusEnded_ovr (e : ErrCode) (f : Status) : (statusEnded e f).ovr = f.ovr := rfl
@[simp] theorem statusEnded_err (e : ErrCode) (f : Status) : (statusEnded e f).err = e := rfl
@[simp] theorem statusAccepted_busy : statusAccepted.busy = true := rfl
@[simp] theorem statusAccepted_done : statusAccepted.done = false := rfl
@[simp] theorem statusAccepted_found : statusAccepted.found = false := rfl
@[simp] theorem statusAccepted_capOk : statusAccepted.capOk = false := rfl
@[simp] theorem statusAccepted_fmt : statusAccepted.fmt = .unsupported := rfl
@[simp] theorem statusAccepted_wrap : statusAccepted.wrap = false := rfl
@[simp] theorem statusAccepted_ovr : statusAccepted.ovr = false := rfl
@[simp] theorem statusAccepted_err : statusAccepted.err = .noError := rfl
@[simp] theorem statusZero_busy : Status.zero.busy = false := rfl
@[simp] theorem statusZero_done : Status.zero.done = false := rfl
@[simp] theorem statusZero_found : Status.zero.found = false := rfl
@[simp] theorem statusZero_capOk : Status.zero.capOk = false := rfl
@[simp] theorem statusZero_fmt : Status.zero.fmt = .unsupported := rfl
@[simp] theorem statusZero_wrap : Status.zero.wrap = false := rfl
@[simp] theorem statusZero_ovr : Status.zero.ovr = false := rfl
@[simp] theorem statusZero_err : Status.zero.err = .noError := rfl

@[simp] theorem setFmt_status (s : State) (v : Format) : (s.setFmt v).status = { s.status with fmt := v } := rfl
@[simp] theorem setFmt_strict (s : State) (v : Format) : (s.setFmt v).strict = s.strict := rfl
@[simp] theorem setFmt_carSize (s : State) (v : Format) : (s.setFmt v).carSize = s.carSize := rfl
@[simp] theorem setFmt_msgLen (s : State) (v : Format) : (s.setFmt v).msgLen = s.msgLen := rfl
@[simp] theorem setFmt_outLen (s : State) (v : Format) : (s.setFmt v).outLen = s.outLen := rfl
@[simp] theorem setFmt_maxChars (s : State) (v : Format) : (s.setFmt v).maxChars = s.maxChars := rfl
@[simp] theorem setFmt_pos (s : State) (v : Format) : (s.setFmt v).pos = s.pos := rfl
@[simp] theorem setFmt_phase (s : State) (v : Format) : (s.setFmt v).phase = s.phase := rfl
@[simp] theorem setFmt_opl (s : State) (v : Format) : (s.setFmt v).opl = s.opl := rfl
@[simp] theorem setFmt_strl (s : State) (v : Format) : (s.setFmt v).strl = s.strl := rfl
@[simp] theorem setFmt_j (s : State) (v : Format) : (s.setFmt v).j = s.j := rfl
@[simp] theorem setFmt_k (s : State) (v : Format) : (s.setFmt v).k = s.k := rfl
@[simp] theorem setFmt_acc (s : State) (v : Format) : (s.setFmt v).acc = s.acc := rfl
@[simp] theorem setFmt_tail (s : State) (v : Format) : (s.setFmt v).tail = s.tail := rfl
@[simp] theorem setFmt_eq (s : State) (v : Format) : (s.setFmt v).eq = s.eq := rfl
@[simp] theorem setFmt_car (s : State) (v : Format) : (s.setFmt v).car = s.car := rfl
@[simp] theorem setFmt_msg (s : State) (v : Format) : (s.setFmt v).msg = s.msg := rfl
@[simp] theorem setFmt_out (s : State) (v : Format) : (s.setFmt v).out = s.out := rfl
@[simp] theorem setFmt_caps (s : State) (v : Format) : (s.setFmt v).caps = s.caps := rfl
@[simp] theorem setFmt_schedule (s : State) (v : Format) : (s.setFmt v).schedule = s.schedule := rfl
@[simp] theorem setFmt_hostGot (s : State) (v : Format) : (s.setFmt v).hostGot = s.hostGot := rfl
@[simp] theorem setFmt_draws (s : State) (v : Format) : (s.setFmt v).draws = s.draws := rfl

@[simp] theorem setFound_status (s : State) (v : Bool) : (s.setFound v).status = { s.status with found := v } := rfl
@[simp] theorem setFound_strict (s : State) (v : Bool) : (s.setFound v).strict = s.strict := rfl
@[simp] theorem setFound_carSize (s : State) (v : Bool) : (s.setFound v).carSize = s.carSize := rfl
@[simp] theorem setFound_msgLen (s : State) (v : Bool) : (s.setFound v).msgLen = s.msgLen := rfl
@[simp] theorem setFound_outLen (s : State) (v : Bool) : (s.setFound v).outLen = s.outLen := rfl
@[simp] theorem setFound_maxChars (s : State) (v : Bool) : (s.setFound v).maxChars = s.maxChars := rfl
@[simp] theorem setFound_pos (s : State) (v : Bool) : (s.setFound v).pos = s.pos := rfl
@[simp] theorem setFound_phase (s : State) (v : Bool) : (s.setFound v).phase = s.phase := rfl
@[simp] theorem setFound_opl (s : State) (v : Bool) : (s.setFound v).opl = s.opl := rfl
@[simp] theorem setFound_strl (s : State) (v : Bool) : (s.setFound v).strl = s.strl := rfl
@[simp] theorem setFound_j (s : State) (v : Bool) : (s.setFound v).j = s.j := rfl
@[simp] theorem setFound_k (s : State) (v : Bool) : (s.setFound v).k = s.k := rfl
@[simp] theorem setFound_acc (s : State) (v : Bool) : (s.setFound v).acc = s.acc := rfl
@[simp] theorem setFound_tail (s : State) (v : Bool) : (s.setFound v).tail = s.tail := rfl
@[simp] theorem setFound_eq (s : State) (v : Bool) : (s.setFound v).eq = s.eq := rfl
@[simp] theorem setFound_car (s : State) (v : Bool) : (s.setFound v).car = s.car := rfl
@[simp] theorem setFound_msg (s : State) (v : Bool) : (s.setFound v).msg = s.msg := rfl
@[simp] theorem setFound_out (s : State) (v : Bool) : (s.setFound v).out = s.out := rfl
@[simp] theorem setFound_caps (s : State) (v : Bool) : (s.setFound v).caps = s.caps := rfl
@[simp] theorem setFound_schedule (s : State) (v : Bool) : (s.setFound v).schedule = s.schedule := rfl
@[simp] theorem setFound_hostGot (s : State) (v : Bool) : (s.setFound v).hostGot = s.hostGot := rfl
@[simp] theorem setFound_draws (s : State) (v : Bool) : (s.setFound v).draws = s.draws := rfl

@[simp] theorem setCapOk_status (s : State) (v : Bool) : (s.setCapOk v).status = { s.status with capOk := v } := rfl
@[simp] theorem setCapOk_strict (s : State) (v : Bool) : (s.setCapOk v).strict = s.strict := rfl
@[simp] theorem setCapOk_carSize (s : State) (v : Bool) : (s.setCapOk v).carSize = s.carSize := rfl
@[simp] theorem setCapOk_msgLen (s : State) (v : Bool) : (s.setCapOk v).msgLen = s.msgLen := rfl
@[simp] theorem setCapOk_outLen (s : State) (v : Bool) : (s.setCapOk v).outLen = s.outLen := rfl
@[simp] theorem setCapOk_maxChars (s : State) (v : Bool) : (s.setCapOk v).maxChars = s.maxChars := rfl
@[simp] theorem setCapOk_pos (s : State) (v : Bool) : (s.setCapOk v).pos = s.pos := rfl
@[simp] theorem setCapOk_phase (s : State) (v : Bool) : (s.setCapOk v).phase = s.phase := rfl
@[simp] theorem setCapOk_opl (s : State) (v : Bool) : (s.setCapOk v).opl = s.opl := rfl
@[simp] theorem setCapOk_strl (s : State) (v : Bool) : (s.setCapOk v).strl = s.strl := rfl
@[simp] theorem setCapOk_j (s : State) (v : Bool) : (s.setCapOk v).j = s.j := rfl
@[simp] theorem setCapOk_k (s : State) (v : Bool) : (s.setCapOk v).k = s.k := rfl
@[simp] theorem setCapOk_acc (s : State) (v : Bool) : (s.setCapOk v).acc = s.acc := rfl
@[simp] theorem setCapOk_tail (s : State) (v : Bool) : (s.setCapOk v).tail = s.tail := rfl
@[simp] theorem setCapOk_eq (s : State) (v : Bool) : (s.setCapOk v).eq = s.eq := rfl
@[simp] theorem setCapOk_car (s : State) (v : Bool) : (s.setCapOk v).car = s.car := rfl
@[simp] theorem setCapOk_msg (s : State) (v : Bool) : (s.setCapOk v).msg = s.msg := rfl
@[simp] theorem setCapOk_out (s : State) (v : Bool) : (s.setCapOk v).out = s.out := rfl
@[simp] theorem setCapOk_caps (s : State) (v : Bool) : (s.setCapOk v).caps = s.caps := rfl
@[simp] theorem setCapOk_schedule (s : State) (v : Bool) : (s.setCapOk v).schedule = s.schedule := rfl
@[simp] theorem setCapOk_hostGot (s : State) (v : Bool) : (s.setCapOk v).hostGot = s.hostGot := rfl
@[simp] theorem setCapOk_draws (s : State) (v : Bool) : (s.setCapOk v).draws = s.draws := rfl

@[simp] theorem noteWrap_status (s : State) (b : Byte) : (s.noteWrap b).status = { s.status with wrap := s.status.wrap || b == 0xFF#8 } := rfl
@[simp] theorem noteWrap_strict (s : State) (b : Byte) : (s.noteWrap b).strict = s.strict := rfl
@[simp] theorem noteWrap_carSize (s : State) (b : Byte) : (s.noteWrap b).carSize = s.carSize := rfl
@[simp] theorem noteWrap_msgLen (s : State) (b : Byte) : (s.noteWrap b).msgLen = s.msgLen := rfl
@[simp] theorem noteWrap_outLen (s : State) (b : Byte) : (s.noteWrap b).outLen = s.outLen := rfl
@[simp] theorem noteWrap_maxChars (s : State) (b : Byte) : (s.noteWrap b).maxChars = s.maxChars := rfl
@[simp] theorem noteWrap_pos (s : State) (b : Byte) : (s.noteWrap b).pos = s.pos := rfl
@[simp] theorem noteWrap_phase (s : State) (b : Byte) : (s.noteWrap b).phase = s.phase := rfl
@[simp] theorem noteWrap_opl (s : State) (b : Byte) : (s.noteWrap b).opl = s.opl := rfl
@[simp] theorem noteWrap_strl (s : State) (b : Byte) : (s.noteWrap b).strl = s.strl := rfl
@[simp] theorem noteWrap_j (s : State) (b : Byte) : (s.noteWrap b).j = s.j := rfl
@[simp] theorem noteWrap_k (s : State) (b : Byte) : (s.noteWrap b).k = s.k := rfl
@[simp] theorem noteWrap_acc (s : State) (b : Byte) : (s.noteWrap b).acc = s.acc := rfl
@[simp] theorem noteWrap_tail (s : State) (b : Byte) : (s.noteWrap b).tail = s.tail := rfl
@[simp] theorem noteWrap_eq (s : State) (b : Byte) : (s.noteWrap b).eq = s.eq := rfl
@[simp] theorem noteWrap_car (s : State) (b : Byte) : (s.noteWrap b).car = s.car := rfl
@[simp] theorem noteWrap_msg (s : State) (b : Byte) : (s.noteWrap b).msg = s.msg := rfl
@[simp] theorem noteWrap_out (s : State) (b : Byte) : (s.noteWrap b).out = s.out := rfl
@[simp] theorem noteWrap_caps (s : State) (b : Byte) : (s.noteWrap b).caps = s.caps := rfl
@[simp] theorem noteWrap_schedule (s : State) (b : Byte) : (s.noteWrap b).schedule = s.schedule := rfl
@[simp] theorem noteWrap_hostGot (s : State) (b : Byte) : (s.noteWrap b).hostGot = s.hostGot := rfl
@[simp] theorem noteWrap_draws (s : State) (b : Byte) : (s.noteWrap b).draws = s.draws := rfl

@[simp] theorem setOvr_status (s : State) : (s.setOvr).status = { s.status with ovr := true } := rfl
@[simp] theorem setOvr_strict (s : State) : (s.setOvr).strict = s.strict := rfl
@[simp] theorem setOvr_carSize (s : State) : (s.setOvr).carSize = s.carSize := rfl
@[simp] theorem setOvr_msgLen (s : State) : (s.setOvr).msgLen = s.msgLen := rfl
@[simp] theorem setOvr_outLen (s : State) : (s.setOvr).outLen = s.outLen := rfl
@[simp] theorem setOvr_maxChars (s : State) : (s.setOvr).maxChars = s.maxChars := rfl
@[simp] theorem setOvr_pos (s : State) : (s.setOvr).pos = s.pos := rfl
@[simp] theorem setOvr_phase (s : State) : (s.setOvr).phase = s.phase := rfl
@[simp] theorem setOvr_opl (s : State) : (s.setOvr).opl = s.opl := rfl
@[simp] theorem setOvr_strl (s : State) : (s.setOvr).strl = s.strl := rfl
@[simp] theorem setOvr_j (s : State) : (s.setOvr).j = s.j := rfl
@[simp] theorem setOvr_k (s : State) : (s.setOvr).k = s.k := rfl
@[simp] theorem setOvr_acc (s : State) : (s.setOvr).acc = s.acc := rfl
@[simp] theorem setOvr_tail (s : State) : (s.setOvr).tail = s.tail := rfl
@[simp] theorem setOvr_eq (s : State) : (s.setOvr).eq = s.eq := rfl
@[simp] theorem setOvr_car (s : State) : (s.setOvr).car = s.car := rfl
@[simp] theorem setOvr_msg (s : State) : (s.setOvr).msg = s.msg := rfl
@[simp] theorem setOvr_out (s : State) : (s.setOvr).out = s.out := rfl
@[simp] theorem setOvr_caps (s : State) : (s.setOvr).caps = s.caps := rfl
@[simp] theorem setOvr_schedule (s : State) : (s.setOvr).schedule = s.schedule := rfl
@[simp] theorem setOvr_hostGot (s : State) : (s.setOvr).hostGot = s.hostGot := rfl
@[simp] theorem setOvr_draws (s : State) : (s.setOvr).draws = s.draws := rfl

@[simp] theorem raised_status (s : State) (e : ErrCode) (p : Word) : (s.raised e p).status = statusEnded e s.status := rfl
@[simp] theorem raised_strict (s : State) (e : ErrCode) (p : Word) : (s.raised e p).strict = s.strict := rfl
@[simp] theorem raised_carSize (s : State) (e : ErrCode) (p : Word) : (s.raised e p).carSize = s.carSize := rfl
@[simp] theorem raised_msgLen (s : State) (e : ErrCode) (p : Word) : (s.raised e p).msgLen = s.msgLen := rfl
@[simp] theorem raised_outLen (s : State) (e : ErrCode) (p : Word) : (s.raised e p).outLen = 0#32 := rfl
@[simp] theorem raised_maxChars (s : State) (e : ErrCode) (p : Word) : (s.raised e p).maxChars = s.maxChars := rfl
@[simp] theorem raised_pos (s : State) (e : ErrCode) (p : Word) : (s.raised e p).pos = p := rfl
@[simp] theorem raised_phase (s : State) (e : ErrCode) (p : Word) : (s.raised e p).phase = .idle := rfl
@[simp] theorem raised_opl (s : State) (e : ErrCode) (p : Word) : (s.raised e p).opl = s.opl := rfl
@[simp] theorem raised_strl (s : State) (e : ErrCode) (p : Word) : (s.raised e p).strl = s.strl := rfl
@[simp] theorem raised_j (s : State) (e : ErrCode) (p : Word) : (s.raised e p).j = s.j := rfl
@[simp] theorem raised_k (s : State) (e : ErrCode) (p : Word) : (s.raised e p).k = s.k := rfl
@[simp] theorem raised_acc (s : State) (e : ErrCode) (p : Word) : (s.raised e p).acc = s.acc := rfl
@[simp] theorem raised_tail (s : State) (e : ErrCode) (p : Word) : (s.raised e p).tail = s.tail := rfl
@[simp] theorem raised_eq (s : State) (e : ErrCode) (p : Word) : (s.raised e p).eq = s.eq := rfl
@[simp] theorem raised_car (s : State) (e : ErrCode) (p : Word) : (s.raised e p).car = s.car := rfl
@[simp] theorem raised_msg (s : State) (e : ErrCode) (p : Word) : (s.raised e p).msg = s.msg := rfl
@[simp] theorem raised_out (s : State) (e : ErrCode) (p : Word) : (s.raised e p).out = s.out := rfl
@[simp] theorem raised_caps (s : State) (e : ErrCode) (p : Word) : (s.raised e p).caps = s.caps := rfl
@[simp] theorem raised_schedule (s : State) (e : ErrCode) (p : Word) : (s.raised e p).schedule = s.schedule := rfl
@[simp] theorem raised_hostGot (s : State) (e : ErrCode) (p : Word) : (s.raised e p).hostGot = s.hostGot := rfl
@[simp] theorem raised_draws (s : State) (e : ErrCode) (p : Word) : (s.raised e p).draws = s.draws := rfl

@[simp] theorem finished_status (s : State) : (s.finished).status = statusEnded .noError s.status := rfl
@[simp] theorem finished_strict (s : State) : (s.finished).strict = s.strict := rfl
@[simp] theorem finished_carSize (s : State) : (s.finished).carSize = s.carSize := rfl
@[simp] theorem finished_msgLen (s : State) : (s.finished).msgLen = s.msgLen := rfl
@[simp] theorem finished_outLen (s : State) : (s.finished).outLen = s.outLen := rfl
@[simp] theorem finished_maxChars (s : State) : (s.finished).maxChars = s.maxChars := rfl
@[simp] theorem finished_pos (s : State) : (s.finished).pos = s.pos := rfl
@[simp] theorem finished_phase (s : State) : (s.finished).phase = .idle := rfl
@[simp] theorem finished_opl (s : State) : (s.finished).opl = s.opl := rfl
@[simp] theorem finished_strl (s : State) : (s.finished).strl = s.strl := rfl
@[simp] theorem finished_j (s : State) : (s.finished).j = s.j := rfl
@[simp] theorem finished_k (s : State) : (s.finished).k = s.k := rfl
@[simp] theorem finished_acc (s : State) : (s.finished).acc = s.acc := rfl
@[simp] theorem finished_tail (s : State) : (s.finished).tail = s.tail := rfl
@[simp] theorem finished_eq (s : State) : (s.finished).eq = s.eq := rfl
@[simp] theorem finished_car (s : State) : (s.finished).car = s.car := rfl
@[simp] theorem finished_msg (s : State) : (s.finished).msg = s.msg := rfl
@[simp] theorem finished_out (s : State) : (s.finished).out = s.out := rfl
@[simp] theorem finished_caps (s : State) : (s.finished).caps = s.caps := rfl
@[simp] theorem finished_schedule (s : State) : (s.finished).schedule = s.schedule := rfl
@[simp] theorem finished_hostGot (s : State) : (s.finished).hostGot = s.hostGot := rfl
@[simp] theorem finished_draws (s : State) : (s.finished).draws = s.draws := rfl

@[simp] theorem accept_status (s : State) (w : Word) : (s.accept w).status = statusAccepted := rfl
@[simp] theorem accept_strict (s : State) (w : Word) : (s.accept w).strict = s.strict := rfl
@[simp] theorem accept_carSize (s : State) (w : Word) : (s.accept w).carSize = s.carSize := rfl
@[simp] theorem accept_msgLen (s : State) (w : Word) : (s.accept w).msgLen = s.msgLen := rfl
@[simp] theorem accept_outLen (s : State) (w : Word) : (s.accept w).outLen = 0#32 := rfl
@[simp] theorem accept_maxChars (s : State) (w : Word) : (s.accept w).maxChars = 0#32 := rfl
@[simp] theorem accept_pos (s : State) (w : Word) : (s.accept w).pos = 0#32 := rfl
@[simp] theorem accept_phase (s : State) (w : Word) : (s.accept w).phase = .decode := rfl
@[simp] theorem accept_opl (s : State) (w : Word) : (s.accept w).opl = w := rfl
@[simp] theorem accept_strl (s : State) (w : Word) : (s.accept w).strl = s.strict := rfl
@[simp] theorem accept_j (s : State) (w : Word) : (s.accept w).j = s.j := rfl
@[simp] theorem accept_k (s : State) (w : Word) : (s.accept w).k = s.k := rfl
@[simp] theorem accept_acc (s : State) (w : Word) : (s.accept w).acc = s.acc := rfl
@[simp] theorem accept_tail (s : State) (w : Word) : (s.accept w).tail = 0#24 := rfl
@[simp] theorem accept_eq (s : State) (w : Word) : (s.accept w).eq = s.eq := rfl
@[simp] theorem accept_car (s : State) (w : Word) : (s.accept w).car = s.car := rfl
@[simp] theorem accept_msg (s : State) (w : Word) : (s.accept w).msg = s.msg := rfl
@[simp] theorem accept_out (s : State) (w : Word) : (s.accept w).out = s.out := rfl
@[simp] theorem accept_caps (s : State) (w : Word) : (s.accept w).caps = s.caps := rfl
@[simp] theorem accept_schedule (s : State) (w : Word) : (s.accept w).schedule = s.schedule := rfl
@[simp] theorem accept_hostGot (s : State) (w : Word) : (s.accept w).hostGot = s.hostGot := rfl
@[simp] theorem accept_draws (s : State) (w : Word) : (s.accept w).draws = s.draws := rfl

@[simp] theorem applyReset_status (s : State) : (s.applyReset).status = .zero := rfl
@[simp] theorem applyReset_strict (s : State) : (s.applyReset).strict = false := rfl
@[simp] theorem applyReset_carSize (s : State) : (s.applyReset).carSize = 0#32 := rfl
@[simp] theorem applyReset_msgLen (s : State) : (s.applyReset).msgLen = 0#32 := rfl
@[simp] theorem applyReset_outLen (s : State) : (s.applyReset).outLen = 0#32 := rfl
@[simp] theorem applyReset_maxChars (s : State) : (s.applyReset).maxChars = 0#32 := rfl
@[simp] theorem applyReset_pos (s : State) : (s.applyReset).pos = 0#32 := rfl
@[simp] theorem applyReset_phase (s : State) : (s.applyReset).phase = .idle := rfl
@[simp] theorem applyReset_opl (s : State) : (s.applyReset).opl = 0#32 := rfl
@[simp] theorem applyReset_strl (s : State) : (s.applyReset).strl = false := rfl
@[simp] theorem applyReset_j (s : State) : (s.applyReset).j = 0#32 := rfl
@[simp] theorem applyReset_k (s : State) : (s.applyReset).k = 0#32 := rfl
@[simp] theorem applyReset_acc (s : State) : (s.applyReset).acc = 0#8 := rfl
@[simp] theorem applyReset_tail (s : State) : (s.applyReset).tail = 0#24 := rfl
@[simp] theorem applyReset_eq (s : State) : (s.applyReset).eq = false := rfl
@[simp] theorem applyReset_car (s : State) : (s.applyReset).car = s.car := rfl
@[simp] theorem applyReset_msg (s : State) : (s.applyReset).msg = s.msg := rfl
@[simp] theorem applyReset_out (s : State) : (s.applyReset).out = s.out := rfl
@[simp] theorem applyReset_caps (s : State) : (s.applyReset).caps = s.caps := rfl
@[simp] theorem applyReset_schedule (s : State) : (s.applyReset).schedule = s.schedule := rfl
@[simp] theorem applyReset_hostGot (s : State) : (s.applyReset).hostGot = s.hostGot := rfl
@[simp] theorem applyReset_draws (s : State) : (s.applyReset).draws = s.draws := rfl

@[simp] theorem applyPowerOn_status (s : State) : (s.applyPowerOn).status = .zero := rfl
@[simp] theorem applyPowerOn_strict (s : State) : (s.applyPowerOn).strict = false := rfl
@[simp] theorem applyPowerOn_carSize (s : State) : (s.applyPowerOn).carSize = 0#32 := rfl
@[simp] theorem applyPowerOn_msgLen (s : State) : (s.applyPowerOn).msgLen = 0#32 := rfl
@[simp] theorem applyPowerOn_outLen (s : State) : (s.applyPowerOn).outLen = 0#32 := rfl
@[simp] theorem applyPowerOn_maxChars (s : State) : (s.applyPowerOn).maxChars = 0#32 := rfl
@[simp] theorem applyPowerOn_pos (s : State) : (s.applyPowerOn).pos = 0#32 := rfl
@[simp] theorem applyPowerOn_phase (s : State) : (s.applyPowerOn).phase = .idle := rfl
@[simp] theorem applyPowerOn_opl (s : State) : (s.applyPowerOn).opl = 0#32 := rfl
@[simp] theorem applyPowerOn_strl (s : State) : (s.applyPowerOn).strl = false := rfl
@[simp] theorem applyPowerOn_j (s : State) : (s.applyPowerOn).j = 0#32 := rfl
@[simp] theorem applyPowerOn_k (s : State) : (s.applyPowerOn).k = 0#32 := rfl
@[simp] theorem applyPowerOn_acc (s : State) : (s.applyPowerOn).acc = 0#8 := rfl
@[simp] theorem applyPowerOn_tail (s : State) : (s.applyPowerOn).tail = 0#24 := rfl
@[simp] theorem applyPowerOn_eq (s : State) : (s.applyPowerOn).eq = false := rfl
@[simp] theorem applyPowerOn_car (s : State) : (s.applyPowerOn).car = [] := rfl
@[simp] theorem applyPowerOn_msg (s : State) : (s.applyPowerOn).msg = [] := rfl
@[simp] theorem applyPowerOn_out (s : State) : (s.applyPowerOn).out = [] := rfl
@[simp] theorem applyPowerOn_caps (s : State) : (s.applyPowerOn).caps = s.caps := rfl
@[simp] theorem applyPowerOn_schedule (s : State) : (s.applyPowerOn).schedule = s.schedule := rfl
@[simp] theorem applyPowerOn_hostGot (s : State) : (s.applyPowerOn).hostGot = s.hostGot := rfl
@[simp] theorem applyPowerOn_draws (s : State) : (s.applyPowerOn).draws = s.draws := rfl

@[simp] theorem setMem_status (s : State) (sp : Space) (m : Memory) : (s.setMem sp m).status = s.status := by
  cases sp <;> rfl
@[simp] theorem setMem_strict (s : State) (sp : Space) (m : Memory) : (s.setMem sp m).strict = s.strict := by
  cases sp <;> rfl
@[simp] theorem setMem_carSize (s : State) (sp : Space) (m : Memory) : (s.setMem sp m).carSize = s.carSize := by
  cases sp <;> rfl
@[simp] theorem setMem_msgLen (s : State) (sp : Space) (m : Memory) : (s.setMem sp m).msgLen = s.msgLen := by
  cases sp <;> rfl
@[simp] theorem setMem_outLen (s : State) (sp : Space) (m : Memory) : (s.setMem sp m).outLen = s.outLen := by
  cases sp <;> rfl
@[simp] theorem setMem_maxChars (s : State) (sp : Space) (m : Memory) : (s.setMem sp m).maxChars = s.maxChars := by
  cases sp <;> rfl
@[simp] theorem setMem_pos (s : State) (sp : Space) (m : Memory) : (s.setMem sp m).pos = s.pos := by
  cases sp <;> rfl
@[simp] theorem setMem_phase (s : State) (sp : Space) (m : Memory) : (s.setMem sp m).phase = s.phase := by
  cases sp <;> rfl
@[simp] theorem setMem_opl (s : State) (sp : Space) (m : Memory) : (s.setMem sp m).opl = s.opl := by
  cases sp <;> rfl
@[simp] theorem setMem_strl (s : State) (sp : Space) (m : Memory) : (s.setMem sp m).strl = s.strl := by
  cases sp <;> rfl
@[simp] theorem setMem_j (s : State) (sp : Space) (m : Memory) : (s.setMem sp m).j = s.j := by
  cases sp <;> rfl
@[simp] theorem setMem_k (s : State) (sp : Space) (m : Memory) : (s.setMem sp m).k = s.k := by
  cases sp <;> rfl
@[simp] theorem setMem_acc (s : State) (sp : Space) (m : Memory) : (s.setMem sp m).acc = s.acc := by
  cases sp <;> rfl
@[simp] theorem setMem_tail (s : State) (sp : Space) (m : Memory) : (s.setMem sp m).tail = s.tail := by
  cases sp <;> rfl
@[simp] theorem setMem_eq (s : State) (sp : Space) (m : Memory) : (s.setMem sp m).eq = s.eq := by
  cases sp <;> rfl
@[simp] theorem setMem_car_car (s : State) (m : Memory) : (s.setMem .car m).car = m := rfl
@[simp] theorem setMem_msg_car (s : State) (m : Memory) : (s.setMem .msg m).car = s.car := rfl
@[simp] theorem setMem_out_car (s : State) (m : Memory) : (s.setMem .out m).car = s.car := rfl
@[simp] theorem setMem_car_msg (s : State) (m : Memory) : (s.setMem .car m).msg = s.msg := rfl
@[simp] theorem setMem_msg_msg (s : State) (m : Memory) : (s.setMem .msg m).msg = m := rfl
@[simp] theorem setMem_out_msg (s : State) (m : Memory) : (s.setMem .out m).msg = s.msg := rfl
@[simp] theorem setMem_car_out (s : State) (m : Memory) : (s.setMem .car m).out = s.out := rfl
@[simp] theorem setMem_msg_out (s : State) (m : Memory) : (s.setMem .msg m).out = s.out := rfl
@[simp] theorem setMem_out_out (s : State) (m : Memory) : (s.setMem .out m).out = m := rfl
@[simp] theorem setMem_caps (s : State) (sp : Space) (m : Memory) : (s.setMem sp m).caps = s.caps := by
  cases sp <;> rfl
@[simp] theorem setMem_schedule (s : State) (sp : Space) (m : Memory) : (s.setMem sp m).schedule = s.schedule := by
  cases sp <;> rfl
@[simp] theorem setMem_hostGot (s : State) (sp : Space) (m : Memory) : (s.setMem sp m).hostGot = s.hostGot := by
  cases sp <;> rfl
@[simp] theorem setMem_draws (s : State) (sp : Space) (m : Memory) : (s.setMem sp m).draws = s.draws := by
  cases sp <;> rfl

@[simp] theorem mem_car (s : State) : s.mem .car = s.car := rfl
@[simp] theorem mem_msg (s : State) : s.mem .msg = s.msg := rfl
@[simp] theorem mem_out (s : State) : s.mem .out = s.out := rfl
@[simp] theorem size_car (c : Caps) : c.size .car = c.carCap := rfl
@[simp] theorem size_msg (c : Caps) : c.size .msg = c.msgCap := rfl
@[simp] theorem size_out (c : Caps) : c.size .out = c.outCap := rfl

/-- Replacing the memory of a space is seen in that space and in no other. -/
theorem mem_setMem (s : State) (sp sp' : Space) (m : Memory) :
    (s.setMem sp m).mem sp' = if sp' = sp then m else s.mem sp' := by
  cases sp <;> cases sp' <;> rfl

end Sys2Proof.Machine
end

