-- ==== Sys2Proof/Laws/Ops.lean ====
section
/-! SUPPORT. For each shared operation, once, everything it can do: what holds if it answers a next state, and what it
answers when its operands are there. -/

namespace Sys2Proof.Machine

/-- A read that goes on found a written byte below the capacity. -/
theorem memRead_next {sp : Space} {a : Nat} {s t : State} {next : Byte → Result} (h : memRead sp a s next = .next t) :
    a < s.caps.size sp ∧ ∃ b, (s.mem sp).read a = some b ∧ next b = .next t := by
  unfold memRead at h
  split at h
  · rename_i hc
    split at h
    · exact ⟨hc, _, ‹_›, h⟩
    · cases h
  · cases h

/-- A read of a written byte below the capacity goes on with it. -/
theorem memRead_some {sp : Space} {a : Nat} {s : State} {next : Byte → Result} {b : Byte} (hc : a < s.caps.size sp)
    (hb : (s.mem sp).read a = some b) : memRead sp a s next = next b := by
  simp [memRead, hc, hb]

/-- How a read can fault: at its own address, or later. -/
theorem memRead_fault {sp : Space} {a : Nat} {s : State} {next : Byte → Result} {r : Fault}
    (h : memRead sp a s next = .fault r) :
    (a < s.caps.size sp ∧ (s.mem sp).read a = none ∧ r = .unwritten sp a) ∨
      (¬ a < s.caps.size sp ∧ r = .absent sp a) ∨ ∃ b, (s.mem sp).read a = some b ∧ next b = .fault r := by
  unfold memRead at h
  split at h
  · rename_i hc
    split at h
    · exact .inr (.inr ⟨_, ‹_›, h⟩)
    · exact .inl ⟨hc, ‹_›, by simpa using h.symm⟩
  · exact .inr (.inl ⟨‹_›, by simpa using h.symm⟩)

/-- A read never refuses unless what follows does. -/
theorem memRead_refused {sp : Space} {a : Nat} {s : State} {next : Byte → Result} {r : Refusal}
    (h : memRead sp a s next = .refused r) : ∃ b, next b = .refused r := by
  unfold memRead at h
  split at h
  · split at h
    · exact ⟨_, h⟩
    · cases h
  · cases h

/-- A write that goes on was below the capacity, and goes on with that one byte written. -/
theorem memWrite_next {sp : Space} {a : Nat} {v : Byte} {s t : State} {next : State → Result}
    (h : memWrite sp a v s next = .next t) :
    a < s.caps.size sp ∧ next (s.setMem sp ((s.mem sp).write a v)) = .next t := by
  unfold memWrite at h
  split at h
  · exact ⟨‹_›, h⟩
  · cases h

/-- A write below the capacity goes on. -/
theorem memWrite_below {sp : Space} {a : Nat} {v : Byte} {s : State} {next : State → Result}
    (hc : a < s.caps.size sp) : memWrite sp a v s next = next (s.setMem sp ((s.mem sp).write a v)) := by
  simp [memWrite, hc]

@[simp] theorem noMicroStep_eq (s : State) : noMicroStep s = .fault (.noMicroStep s.phase) := rfl
@[simp] theorem raise_eq (e : ErrCode) (p : Word) (s : State) : raise e p s = .next (s.raised e p) := rfl
@[simp] theorem finish_eq (s : State) : finish s = .next s.finished := rfl
@[simp] theorem endPhase_eq (s : State) : endPhase s = .next { s with phase := .idle } := rfl

/-- `payload_byte(i)` of the message read is the frame's byte `i`. -/
theorem payloadByte_of_message {s : State} {m : List Byte} {i : Nat} {next : Byte → Result}
    (hl : m.length = s.msgLen.toNat) (hi : i < m.length + 6) :
    ∃ b, (frame m)[i]? = some b ∧ payloadByte m i s next = next b := by
  unfold payloadByte frame bof eof
  split
  · have : i = 0 ∨ i = 1 ∨ i = 2 := by omega
    rcases this with rfl | rfl | rfl <;> exact ⟨_, rfl, rfl⟩
  · obtain ⟨k, rfl⟩ : ∃ k, i = k + 3 := ⟨i - 3, by omega⟩
    split
    · have hk : k < m.length := by omega
      exact ⟨m[k], by simp [List.getElem?_append, hk], by simp [hk]⟩
    · have h3 : k - m.length = 0 ∨ k - m.length = 1 ∨ k - m.length = 2 := by omega
      have hk : ¬ k < m.length := by omega
      rw [show k + 3 - s.msgLen.toNat - 3 = k - m.length by omega]
      rcases h3 with h3 | h3 | h3 <;> rw [h3] <;> exact ⟨_, by simp [List.getElem?_append, hk, h3], rfl⟩

/-- The message's bytes of the payload are those a read of `MSG` gives (41_framer R111; log entry 5). -/
theorem payloadByte_eq_memRead {s : State} {m : List Byte} {i : Nat} {next : Byte → Result}
    (hl : m.length = s.msgLen.toNat) (hm : ∀ k, k < m.length → s.msg.read k = m[k]?) (hc : s.msgLen.toNat ≤ s.caps.msgCap)
    (h3 : 3 ≤ i) (hi : i < s.msgLen.toNat + 3) : payloadByte m i s next = memRead .msg (i - 3) s next := by
  have hk : i - 3 < m.length := by omega
  have hr : (s.mem .msg).read (i - 3) = some m[i - 3] := by simp [hm _ hk, hk]
  rw [memRead_some (by simp only [size_msg]; omega) hr]
  simp [payloadByte, show ¬ i < 3 by omega, hi, hk]

/-- A payload byte that goes on leads to a byte. -/
theorem payloadByte_next {m : List Byte} {i : Nat} {s t : State} {next : Byte → Result}
    (h : payloadByte m i s next = .next t) : ∃ b, next b = .next t := by
  unfold payloadByte at h
  split at h
  · exact ⟨_, h⟩
  · split at h
    · split at h
      · exact ⟨_, h⟩
      · cases h
    · exact ⟨_, h⟩

/-- A payload bit that goes on leads to a bit. -/
theorem payloadBit_next {m : List Byte} {j : Nat} {s t : State} {next : Bool → Result}
    (h : payloadBit m j s next = .next t) : ∃ w, next w = .next t := by
  obtain ⟨b, h⟩ := payloadByte_next h
  exact ⟨_, h⟩

/-- The decode micro-step of a command either raises `BAD_CONFIG` or goes on to the gate. -/
theorem decodeStep_cases (readsMsg : Bool) (s : State) :
    (decodeStep readsMsg s = .next (s.raised .badConfig 0#32) ∧
        (s.caps.carCap < s.carSize.toNat ∨ (readsMsg = true ∧ s.caps.msgCap < s.msgLen.toNat))) ∨
      (decodeStep readsMsg s = .next { s with phase := .sniff none } ∧ s.carSize.toNat ≤ s.caps.carCap ∧
        (readsMsg = true → s.msgLen.toNat ≤ s.caps.msgCap)) := by
  unfold decodeStep
  split
  · exact .inl ⟨rfl, .inl ‹_›⟩
  · split
    · exact .inl ⟨rfl, .inr ‹_›⟩
    · rename_i h1 h2
      exact .inr ⟨rfl, by omega, fun h => by
        by_contra h3
        exact h2 ⟨h, by omega⟩⟩

/-- A gate that goes on read `CAR[0]`, or reached its verdict. -/
theorem sniffGate_next {b0 : Option Byte} {s t : State} {verdict : State → Result}
    (h : sniffGate b0 s verdict = .next t) :
    (b0 = none ∧ 2 ≤ s.carSize.toNat ∧ ∃ b, s.car.read 0 = some b ∧ t = { s with phase := .sniff (some b) }) ∨
      ∃ f, verdict (s.setFmt f) = .next t := by
  unfold sniffGate at h
  split at h
  · split at h
    · obtain ⟨_, b, hb, h⟩ := memRead_next h
      exact .inl ⟨rfl, ‹_›, b, hb, by simpa using h.symm⟩
    · exact .inr ⟨_, h⟩
  · obtain ⟨_, b, hb, h⟩ := memRead_next h
    exact .inr ⟨_, h⟩

/-- The gate's ending either raises `UNSUPPORTED_FORMAT` or goes on. -/
theorem gateThen_cases (next : Phase) (s : State) :
    (s.status.fmt = .unsupported ∧ gateThen next s = .next (s.raised .unsupportedFormat 0#32)) ∨
      (s.status.fmt ≠ .unsupported ∧ gateThen next s = .next { s with phase := next }) := by
  unfold gateThen
  split
  · exact .inl ⟨‹_›, rfl⟩
  · exact .inr ⟨‹_›, rfl⟩

/-- EMBED's capacity check either raises `INSUFFICIENT_CAPACITY` or starts the walk. -/
theorem embedCapchk_cases (m : List Byte) (s : State) :
    (s.carSize.toNat < hdr + s.nBits ∧ embedCapchk m s = .next (s.raised .insufficientCapacity 0#32)) ∨
      (hdr + s.nBits ≤ s.carSize.toNat ∧
        embedCapchk m s = .next { s with j := 0#32, pos := BitVec.ofNat 32 hdr, phase := .walk m .read }) := by
  unfold embedCapchk
  split
  · exact .inl ⟨‹_›, rfl⟩
  · exact .inr ⟨by omega, rfl⟩

/-- CHECK's capacity verdict either ends the command with `FOUND = 0` or starts the probe. -/
theorem checkCapchk_cases (m : List Byte) (s : State) :
    (s.carSize.toNat < hdr + s.nBits ∧ checkCapchk m s =
        .next (({ s with maxChars := s.carSize / 8#32 }.setCapOk false).setFound false).finished) ∨
      (hdr + s.nBits ≤ s.carSize.toNat ∧ checkCapchk m s = .next
        { { s with maxChars := s.carSize / 8#32 }.setCapOk true with j := 0#32, phase := .probe m .start }) := by
  unfold checkCapchk
  by_cases h : hdr + s.nBits ≤ s.carSize.toNat
  · exact .inr ⟨h, by simp only [h, decide_true, if_true]⟩
  · exact .inl ⟨by omega, by simp only [h, decide_false]; rfl⟩

/-- The head of the walk's loop goes on or ends the command. -/
theorem walkLoop_cases (m : List Byte) (s : State) :
    (s.j.toNat < s.nBits ∧ walkLoop m s = .next { s with phase := .walk m .read }) ∨
      (s.nBits ≤ s.j.toNat ∧ walkLoop m s = .next { s with pos := BitVec.ofNat 32 (hdr + s.nBits) }.finished) := by
  unfold walkLoop
  split
  · exact .inl ⟨‹_›, rfl⟩
  · exact .inr ⟨by omega, rfl⟩

/-- The head of CHECK's probe loop goes on or ends the command. -/
theorem checkLoop_cases (m : List Byte) (s : State) :
    (s.j.toNat < s.nBits ∧ checkLoop m s = .next { s with phase := .probe m .read }) ∨
      (s.nBits ≤ s.j.toNat ∧
        checkLoop m s = .next ({ s with pos := BitVec.ofNat 32 (hdr + s.nBits) }.setFound s.eq).finished) := by
  unfold checkLoop
  split
  · exact .inl ⟨‹_›, rfl⟩
  · exact .inr ⟨by omega, rfl⟩

/-- The head of the BOF probe's loop goes on, ends the command, or starts the scan. -/
theorem bofLoop_cases (s : State) :
    (s.j.toNat < bofBits ∧ bofLoop s = .next { s with phase := .probe [] .read }) ∨
      (bofBits ≤ s.j.toNat ∧ s.eq = false ∧
        bofLoop s = .next ({ s with pos := BitVec.ofNat 32 scanStart }.setFound false).finished) ∨
      (bofBits ≤ s.j.toNat ∧ s.eq = true ∧
        bofLoop s = .next { { s with pos := BitVec.ofNat 32 scanStart }.setFound true with
          k := 0#32, tail := 0#24, phase := .scan 0 }) := by
  unfold bofLoop
  split
  · exact .inl ⟨‹_›, rfl⟩
  · cases h : s.eq
    · exact .inr (.inl ⟨by omega, rfl, rfl⟩)
    · exact .inr (.inr ⟨by omega, rfl, rfl⟩)

end Sys2Proof.Machine
end

