-- ==== Sys2Proof/Laws/Codec.lean ====
section
/-! SUPPORT. The small lemmas of the codec and the framer: lengths, single bits, and a chunk's bits rebuilding its byte. -/

namespace Sys2Proof.Machine

@[simp] theorem toBits_length (m : List Byte) : (toBits m).length = 8 * m.length := by
  induction m with
  | nil => rfl
  | cons b m ih => simp only [toBits, List.length_cons, ih]; omega

/-- Bit `j` of a byte string's bits is bit `j mod 8` of byte `j / 8`. -/
theorem toBits_getElem? (m : List Byte) (j : Nat) :
    (toBits m)[j]? = (m[j / 8]?).map fun b => msbBit b (j % 8) := by
  induction m generalizing j with
  | nil => simp [toBits]
  | cons b m ih =>
    by_cases hj : j < 8
    · have h : j = 0 ∨ j = 1 ∨ j = 2 ∨ j = 3 ∨ j = 4 ∨ j = 5 ∨ j = 6 ∨ j = 7 := by omega
      rcases h with rfl | rfl | rfl | rfl | rfl | rfl | rfl | rfl <;> rfl
    · obtain ⟨i, rfl⟩ : ∃ i, j = i + 8 := ⟨j - 8, by omega⟩
      have h1 : (i + 8) / 8 = i / 8 + 1 := by omega
      have h2 : (i + 8) % 8 = i % 8 := by omega
      rw [h1, h2]
      simpa [toBits] using ih i

theorem toBits_append (a b : List Byte) : toBits (a ++ b) = toBits a ++ toBits b := by
  induction a with
  | nil => rfl
  | cons x a ih => simp [toBits, ih]

/-- The 8 bits of a byte, shifted in from any start, leave that byte. -/
theorem shiftIn_bits (acc b : Byte) :
    shiftIn (shiftIn (shiftIn (shiftIn (shiftIn (shiftIn (shiftIn (shiftIn acc (msbBit b 0)) (msbBit b 1))
      (msbBit b 2)) (msbBit b 3)) (msbBit b 4)) (msbBit b 5)) (msbBit b 6)) (msbBit b 7) = b := by
  have key : ∀ (x : Byte) (v : Bool), shiftIn x v = BitVec.ofNat 8 (2 * x.toNat + v.toNat) := by
    intro x v
    apply BitVec.eq_of_toNat_eq
    cases v <;> simp [shiftIn, BitVec.toNat_add, BitVec.toNat_mul]
  have hb : ∀ k, k < 8 → (b.getLsbD k).toNat = b.toNat / 2 ^ k % 2 := by
    intro k _
    rw [BitVec.getLsbD, Nat.testBit_eq_decide_div_mod_eq]
    by_cases h : b.toNat / 2 ^ k % 2 = 1
    · simp [h]
    · simp [h]; omega
  apply BitVec.eq_of_toNat_eq
  have hlt := b.isLt
  simp only [key, msbBit, BitVec.toNat_ofNat]
  have h0 := hb 0 (by omega); have h1 := hb 1 (by omega); have h2 := hb 2 (by omega); have h3 := hb 3 (by omega)
  have h4 := hb 4 (by omega); have h5 := hb 5 (by omega); have h6 := hb 6 (by omega); have h7 := hb 7 (by omega)
  norm_num at h0 h1 h2 h3 h4 h5 h6 h7 ⊢
  simp only [h0, h1, h2, h3, h4, h5, h6, h7]
  omega

@[simp] theorem frame_length (m : List Byte) : (frame m).length = m.length + 6 := by
  simp [frame, bof, eof]

@[simp] theorem payloadBits_length (m : List Byte) : (payloadBits m).length = 8 * (m.length + 6) := by
  simp [payloadBits]

/-- A bit of the payload: the byte of the frame it belongs to. -/
theorem payloadBits_getElem? (m : List Byte) (j : Nat) :
    (payloadBits m)[j]? = ((frame m)[j / 8]?).map fun b => msbBit b (j % 8) := toBits_getElem? _ _

/-- The bits of "BOF" the probe compares with. -/
theorem bofBit_eq (j : Nat) (h : j < 24) : (toBits bof)[j]? = some (bofBit j) := by
  have : ∀ i : Fin 24, (toBits bof)[i.val]? = some (bofBit i.val) := by decide
  exact this ⟨j, h⟩

/-- `payload_bit(j)` of the message read (43_engine R141). -/
theorem payloadBit_of_message {s : State} {m : List Byte} {j : Nat} {next : Bool → Result} (hm : s.messageIs m)
    (hj : j < s.nBits) : ∃ w, (payloadBits m)[j]? = some w ∧ payloadBit m j s next = next w := by
  have hn : s.nBits = 8 * (m.length + 6) := by simp [State.nBits, hm.1]
  obtain ⟨b, hb, he⟩ := payloadByte_of_message (s := s) (m := m) (i := j / 8)
    (next := fun b => next (msbBit b (j % 8))) hm.1 (by omega)
  exact ⟨msbBit b (j % 8), by rw [payloadBits_getElem?, hb]; rfl, he⟩

/-- The message the validate phase has read serves the payload as `MSG` does (41_framer R111; log entry 5). -/
theorem servesPayload_of_message {s : State} {m : List Byte} (hm : s.messageIs m) (hc : s.msgLen.toNat ≤ s.caps.msgCap) :
    s.servesPayload m := by
  intro i next hi
  by_cases h3 : i < 3
  · simp [payloadByte, h3]
  · by_cases hl : i < s.msgLen.toNat + 3
    · rw [if_neg h3, if_pos hl]
      exact payloadByte_eq_memRead hm.1 (fun k hk => by simpa using hm.2 k hk) hc (by omega) hl
    · simp [payloadByte, h3, hl]

/-- The wanted bit that a walk or a probe goes on with is the payload's. -/
theorem payloadBit_eq {s : State} {m : List Byte} {j : Nat} {want : Bool} (next : Bool → Result) (hm : s.messageIs m)
    (hj : j < s.nBits) (hw : (payloadBits m)[j]? = some want) : payloadBit m j s next = next want := by
  obtain ⟨w, hw', h⟩ := payloadBit_of_message (next := next) hm hj
  rw [hw, Option.some.injEq] at hw'
  rw [h, hw']

/-- A byte whose parity is right is left as it is (42_bitcodec R126). -/
theorem adjust_of_eq {b : Byte} {want : Bool} (h : parity b = want) : adjust b want = (false, b) := by
  simp [adjust, h]

/-- A byte whose parity is wrong is written, incremented (42_bitcodec R126). -/
theorem adjust_of_ne {b : Byte} {want : Bool} (h : parity b ≠ want) : adjust b want = (true, b + 1#8) := by
  simp [adjust, h]

/-- The walk goes on from a byte whose parity is right (43_engine R143). -/
theorem walkAdjust_of_eq {b : Byte} {want : Bool} (m : List Byte) (s : State) (h : parity b = want) :
    walkAdjust m b want s = walkLoop m { s with j := s.j + 1#32 } := by
  rw [walkAdjust, adjust_of_eq h]; rfl

/-- The walk leaves the write of a byte whose parity is wrong to the next micro-step (43_engine R143). -/
theorem walkAdjust_of_ne {b : Byte} {want : Bool} (m : List Byte) (s : State) (h : parity b ≠ want) :
    walkAdjust m b want s = .next { s with phase := .walk m (.write b (b + 1#8)) } := by
  rw [walkAdjust, adjust_of_ne h]; rfl

/-- Incrementing a byte flips its parity. -/
theorem parity_succ (b : Byte) : parity (b + 1#8) = !parity b := by
  revert b; decide

theorem eof_length : eof.length = 3 := rfl
theorem bof_length : bof.length = 3 := rfl

/-- "EOF" in a string is in every extension of it. -/
theorem containsEof_append_left (a b : List Byte) (h : containsEof a = true) : containsEof (a ++ b) = true := by
  induction a with
  | nil => simp [containsEof] at h
  | cons x a ih =>
    simp only [containsEof, Bool.or_eq_true, List.cons_append] at h ⊢
    rcases h with h | h
    · left
      match a, h with
      | y :: z :: a, h => simpa [startsEof] using h
      | [y], h => simp [startsEof, eof] at h
      | [], h => simp [startsEof, eof] at h
    · exact .inr (ih h)

theorem containsEof_append_right (a b : List Byte) (h : containsEof b = true) : containsEof (a ++ b) = true := by
  induction a with
  | nil => simpa using h
  | cons x a ih => simp [containsEof, ih]

end Sys2Proof.Machine
end

