-- ==== Sys2Proof/Laws/Phases.lean ====
section
/-! SUPPORT. Which operation a command's micro-step is in each phase (43_engine R140). -/

namespace Sys2Proof.Machine

theorem exec_identify_decode {s : State} (hp : s.phase = .decode) :
    exec .identify s = decodeStep false s := by
  cases s; dsimp only at hp; subst hp; rfl

theorem exec_identify_sniff {s : State} {b0 : Option Byte} (hp : s.phase = .sniff b0) :
    exec .identify s = sniffGate b0 s finish := by
  cases s; dsimp only at hp; subst hp; rfl

theorem exec_embed_decode {s : State} (hp : s.phase = .decode) :
    exec .embed s = decodeStep true s := by
  cases s; dsimp only at hp; subst hp; rfl

theorem exec_embed_sniff {s : State} {b0 : Option Byte} (hp : s.phase = .sniff b0) :
    exec .embed s = sniffGate b0 s (gateThen (.validate [])) := by
  cases s; dsimp only at hp; subst hp; rfl

theorem exec_embed_validate {s : State} {m : List Byte} (hp : s.phase = .validate m) :
    exec .embed s = validateStep m s := by
  cases s; dsimp only at hp; subst hp; rfl

theorem exec_embed_capchk {s : State} {m : List Byte} (hp : s.phase = .capchk m) :
    exec .embed s = embedCapchk m s := by
  cases s; dsimp only at hp; subst hp; rfl

theorem exec_embed_walkRead {s : State} {m : List Byte} (hp : s.phase = .walk m .read) :
    exec .embed s = walkRead m s := by
  cases s; dsimp only at hp; subst hp; rfl

theorem exec_embed_walkWrite {s : State} {m : List Byte} {b b2 : Byte} (hp : s.phase = .walk m (.write b b2)) :
    exec .embed s = walkWrite m b b2 s := by
  cases s; dsimp only at hp; subst hp; rfl

theorem exec_check_decode {s : State} (hp : s.phase = .decode) :
    exec .check s = decodeStep true s := by
  cases s; dsimp only at hp; subst hp; rfl

theorem exec_check_sniff {s : State} {b0 : Option Byte} (hp : s.phase = .sniff b0) :
    exec .check s = sniffGate b0 s (gateThen (.validate [])) := by
  cases s; dsimp only at hp; subst hp; rfl

theorem exec_check_validate {s : State} {m : List Byte} (hp : s.phase = .validate m) :
    exec .check s = validateStep m s := by
  cases s; dsimp only at hp; subst hp; rfl

theorem exec_check_capchk {s : State} {m : List Byte} (hp : s.phase = .capchk m) :
    exec .check s = checkCapchk m s := by
  cases s; dsimp only at hp; subst hp; rfl

theorem exec_check_probeFirst {s : State} {m : List Byte} (hp : s.phase = .probe m .start) :
    exec .check s = checkProbe m { s with eq := true } := by
  cases s; dsimp only at hp; subst hp; rfl

theorem exec_check_probeNext {s : State} {m : List Byte} (hp : s.phase = .probe m .read) :
    exec .check s = checkProbe m s := by
  cases s; dsimp only at hp; subst hp; rfl

theorem exec_extract_decode {s : State} (hp : s.phase = .decode) :
    exec .extract s = decodeStep false s := by
  cases s; dsimp only at hp; subst hp; rfl

theorem exec_extract_sniff {s : State} {b0 : Option Byte} (hp : s.phase = .sniff b0) :
    exec .extract s = sniffGate b0 s (gateThen (.probe [] .start)) := by
  cases s; dsimp only at hp; subst hp; rfl

theorem exec_extract_probeFirst {s : State} {m : List Byte} (hp : s.phase = .probe m .start) :
    exec .extract s = bofStart s := by
  cases s; dsimp only at hp; subst hp; rfl

theorem exec_extract_probeNext {s : State} {m : List Byte} (hp : s.phase = .probe m .read) :
    exec .extract s = bofProbe s := by
  cases s; dsimp only at hp; subst hp; rfl

theorem exec_extract_scan {s : State} {k : Nat} (hp : s.phase = .scan k) :
    exec .extract s = scanStep k s := by
  cases s; dsimp only at hp; subst hp; rfl

end Sys2Proof.Machine
end

