-- ==== Sys2Proof/Laws/Run.lean ====
section
/-! SUPPORT. How several steps compose, and that a step without a host turn is the latched command's micro-step. -/

namespace Sys2Proof.Machine

@[simp] theorem stepN_zero (s : State) : stepN 0 s = .next s := rfl

@[simp] theorem stepN_one (s : State) : stepN 1 s = step s := by
  simp only [stepN]
  split <;> simp_all

/-- The first of several steps. -/
theorem stepN_succ {s t : State} (n : Nat) (h : step s = .next t) : stepN (n + 1) s = stepN n t := by
  simp [stepN, h]

/-- `a` steps, then `b` more. -/
theorem stepN_trans {a b : Nat} {s t : State} {r : Result} (h : stepN a s = .next t) (h' : stepN b t = r) :
    stepN (a + b) s = r := by
  induction a generalizing s with
  | zero => simp only [stepN_zero, Host.Outcome.next.injEq] at h; subst h; simpa using h'
  | succ a ih =>
    rw [show a + 1 + b = (a + b) + 1 by omega]
    simp only [stepN] at h ⊢
    split at h
    · exact ih h
    · cases h
    · cases h

/-- The last of several steps: `n` steps lead to a state whose step is the last one. -/
theorem stepN_last {n : Nat} {s u : State} (h : stepN (n + 1) s = .next u) :
    ∃ t, stepN n s = .next t ∧ step t = .next u := by
  induction n generalizing s with
  | zero =>
    simp only [stepN] at h
    split at h
    · rename_i t ht
      simp only [Host.Outcome.next.injEq] at h
      exact ⟨s, rfl, h ▸ ht⟩
    · cases h
    · cases h
  | succ n ih =>
    rw [stepN] at h
    split at h
    · rename_i t ht
      obtain ⟨v, hv, hu⟩ := ih h
      exact ⟨v, by rw [stepN_succ n ht, hv], hu⟩
    · cases h
    · cases h

/-- What holds at the start and is kept by every step holds after any number of steps. -/
theorem stepN_keeps {P : State → Prop} (hP : ∀ s t, P s → step s = .next t → P t) {n : Nat} {s t : State} (h0 : P s)
    (h : stepN n s = .next t) : P t := by
  induction n generalizing s with
  | zero => simp only [stepN_zero, Host.Outcome.next.injEq] at h; exact h ▸ h0
  | succ n ih =>
    rw [stepN] at h
    split at h
    · exact ih (hP _ _ h0 ‹_›) h
    · cases h
    · cases h

/-- A step of a busy block without a host turn is the latched command's micro-step. -/
theorem step_command {s : State} {i : Instr} (hs : s.schedule = []) (hb : s.status.busy = true)
    (hd : decode s.opl = .ok i) : step s = exec i s := by
  simp [step, scheduledTurn, hs, engineTurn, hb, hd]

/-- A step of an idle block without a host turn changes nothing. -/
theorem step_idle {s : State} (hs : s.schedule = []) (hb : s.status.busy = false) : step s = .next s := by
  simp [step, scheduledTurn, hs, engineTurn, hb]

/-- A step whose schedule has a turn takes it. -/
theorem step_turn {s : State} {t : Turn} {rest : List Turn} (hs : s.schedule = t :: rest) :
    step s = takeTurn t { s with schedule := rest } := by
  simp [step, scheduledTurn, hs]

/-- A well-formed register write always answers a next state. -/
theorem hostAccess_regWrite {s : State} {p : RegPort} (v : Word) (hp : p.wellFormed = true) :
    hostAccess (.regWrite p v) s = .next (s.writeReg (regAt p.offset.toNat) v) := by
  simp [hostAccess, HostAccess.wellFormed, hp]

/-- A well-formed register read always answers a next state. -/
theorem hostAccess_regRead {s : State} {p : RegPort} (hp : p.wellFormed = true) :
    hostAccess (.regRead p) s = .next { s with hostGot := .word (s.readReg (regAt p.offset.toNat)) } := by
  simp [hostAccess, HostAccess.wellFormed, hp]

/-- A memory write below the capacity always answers a next state. -/
theorem hostAccess_memWrite {s : State} {sp : Space} {a : Word} (b : Byte) (ha : a.toNat < s.caps.size sp) :
    hostAccess (.memWrite sp a b) s = .next (s.hostWrite sp a.toNat b) := by
  simp [hostAccess, HostAccess.wellFormed, ha]

/-- A memory read below the capacity is `hostRead`. -/
theorem hostAccess_memRead {s : State} {sp : Space} {a : Word} (ha : a.toNat < s.caps.size sp) :
    hostAccess (.memRead sp a) s = hostRead sp a.toNat s := by
  simp [hostAccess, HostAccess.wellFormed, ha]

/-- What is not well-formed is refused. -/
theorem hostAccess_refused {s : State} {a : HostAccess} (ha : a.wellFormed s.caps = false) :
    hostAccess a s = .refused (refusalOf a) := by
  simp [hostAccess, ha]

@[simp] theorem decode_encode (i : Instr) : decode (encode i) = .ok i := by cases i <;> rfl

@[simp] theorem withMems_status (s : State) (c m o : Memory) : (s.withMems c m o).status = s.status := rfl
@[simp] theorem withMems_strict (s : State) (c m o : Memory) : (s.withMems c m o).strict = s.strict := rfl
@[simp] theorem withMems_carSize (s : State) (c m o : Memory) : (s.withMems c m o).carSize = s.carSize := rfl
@[simp] theorem withMems_msgLen (s : State) (c m o : Memory) : (s.withMems c m o).msgLen = s.msgLen := rfl
@[simp] theorem withMems_outLen (s : State) (c m o : Memory) : (s.withMems c m o).outLen = s.outLen := rfl
@[simp] theorem withMems_maxChars (s : State) (c m o : Memory) : (s.withMems c m o).maxChars = s.maxChars := rfl
@[simp] theorem withMems_pos (s : State) (c m o : Memory) : (s.withMems c m o).pos = s.pos := rfl
@[simp] theorem withMems_phase (s : State) (c m o : Memory) : (s.withMems c m o).phase = s.phase := rfl
@[simp] theorem withMems_opl (s : State) (c m o : Memory) : (s.withMems c m o).opl = s.opl := rfl
@[simp] theorem withMems_strl (s : State) (c m o : Memory) : (s.withMems c m o).strl = s.strl := rfl
@[simp] theorem withMems_j (s : State) (c m o : Memory) : (s.withMems c m o).j = s.j := rfl
@[simp] theorem withMems_k (s : State) (c m o : Memory) : (s.withMems c m o).k = s.k := rfl
@[simp] theorem withMems_acc (s : State) (c m o : Memory) : (s.withMems c m o).acc = s.acc := rfl
@[simp] theorem withMems_tail (s : State) (c m o : Memory) : (s.withMems c m o).tail = s.tail := rfl
@[simp] theorem withMems_eq (s : State) (c m o : Memory) : (s.withMems c m o).eq = s.eq := rfl
@[simp] theorem withMems_caps (s : State) (c m o : Memory) : (s.withMems c m o).caps = s.caps := rfl
@[simp] theorem withMems_schedule (s : State) (c m o : Memory) : (s.withMems c m o).schedule = s.schedule := rfl
@[simp] theorem withMems_hostGot (s : State) (c m o : Memory) : (s.withMems c m o).hostGot = s.hostGot := rfl
@[simp] theorem withMems_draws (s : State) (c m o : Memory) : (s.withMems c m o).draws = s.draws := rfl
@[simp] theorem withMems_car (s : State) (c m o : Memory) : (s.withMems c m o).car = c := rfl
@[simp] theorem withMems_msg (s : State) (c m o : Memory) : (s.withMems c m o).msg = m := rfl
@[simp] theorem withMems_out (s : State) (c m o : Memory) : (s.withMems c m o).out = o := rfl

/-- One micro-step of a command that runs alone. -/
theorem stepN_one_command {s : State} {i : Instr} {r : Result} (hs : s.schedule = []) (hb : s.status.busy = true)
    (hd : decode s.opl = .ok i) (he : exec i s = r) : stepN 1 s = r := by
  rw [stepN_one, step_command hs hb hd, he]

/-- The state after `n` and one more micro-steps of a command that runs alone. -/
theorem stepN_command {s t : State} {i : Instr} {n : Nat} {r : Result} (hs : s.schedule = []) (hb : s.status.busy = true)
    (hd : decode s.opl = .ok i) (he : exec i s = .next t) (h : stepN n t = r) : stepN (n + 1) s = r := by
  rw [stepN_succ n (by rw [step_command hs hb hd, he]), h]

end Sys2Proof.Machine
end

