-- ==== Sys2Proof/Laws/Loops.lean ====
section
/-! SUPPORT. The loops of the commands as runs: the gate, the validate phase, EMBED's walk, CHECK's and EXTRACT's probes
and EXTRACT's scan, each by induction on the iterations left. -/

namespace Sys2Proof.Machine

theorem carCap_ge (c : Caps) : 2 ≤ c.carCap := by simp [Caps.carCap]

/-- `J + 1` does not wrap when the loop's bound is a 32-bit number. -/
theorem toNat_succ {j : Word} {n : Nat} (h : j.toNat < n) (hn : n < 2 ^ 32) : (j + 1#32).toNat = j.toNat + 1 := by
  simp only [BitVec.toNat_add, BitVec.toNat_ofNat]; omega

/-- A command that is set up and whose gate passes stands before its second phase after three micro-steps. -/
theorem run_gate {s : State} {i : Instr} {f : Format} (hi : i ≠ .identify) (hr : s.ready i) (hf : s.sniffs f)
    (hne : f ≠ .unsupported) :
    stepN 3 (s.accept (encode i)) = .next { s.accept (encode i) with
      status := { statusAccepted with fmt := f },
      phase := if i = .extract then .probe [] .start else .validate [] } := by
  obtain ⟨_, hs, hcar, hmsg⟩ := hr
  obtain ⟨h1, h2⟩ | ⟨h2, b0, b1, hb0, hb1, hf⟩ := hf
  · exact absurd h2 hne
  have hc := carCap_ge s.caps
  have e1 : exec i (s.accept (encode i)) = .next { s.accept (encode i) with phase := .sniff none } := by
    have hd : ∀ r, (r = true → s.msgLen.toNat ≤ s.caps.msgCap) →
        decodeStep r (s.accept (encode i)) = .next { s.accept (encode i) with phase := .sniff none } := by
      intro r hr
      have h : ¬ (r = true ∧ s.caps.msgCap < s.msgLen.toNat) := fun h => by have := hr h.1; omega
      rw [decodeStep, if_neg (by simp only [accept_caps, accept_carSize]; omega), if_neg (by simpa using h)]
    cases i
    · exact hd _ (by simp)
    · exact hd _ hmsg
    · exact hd _ hmsg
    · exact hd _ (by simp)
  have e2 : exec i { s.accept (encode i) with phase := .sniff none } =
      .next { s.accept (encode i) with phase := .sniff (some b0) } := by
    cases i <;> simp [exec, execIdentify, execEmbed, execCheck, execExtract, sniffGate, h2] <;>
      rw [memRead_some (b := b0) (by simp; omega) (by simpa using hb0)]
  have e3 : exec i { s.accept (encode i) with phase := .sniff (some b0) } =
      .next { s.accept (encode i) with
        status := { statusAccepted with fmt := f },
        phase := if i = .extract then .probe [] .start else .validate [] } := by
    have hne' : sniff b0 b1 s.carSize.toNat s.strict ≠ .unsupported := hf ▸ hne
    cases i
    · exact absurd rfl hi
    all_goals
      simp only [exec, execEmbed, execCheck, execExtract, sniffGate]
      rw [memRead_some (b := b1) (by simp; omega) (by simpa using hb1)]
      simp [gateThen, hne', hf, State.setFmt]
  exact stepN_command hs rfl (decode_encode i) e1 (stepN_command hs rfl (decode_encode i) e2
    (stepN_command hs rfl (decode_encode i) e3 rfl))

/-- The validate phase of a message without "EOF" reads the rest of it and goes on. -/
theorem run_validate {i : Instr} {m : List Byte} (hi : readsMessage i = true) (heof : containsEof m = false) :
    ∀ (k : Nat) (s : State), s.schedule = [] → s.status.busy = true → decode s.opl = .ok i → s.messageIs m →
      s.msgLen.toNat ≤ s.caps.msgCap → k ≤ m.length → s.phase = .validate (m.take (m.length - k)) →
      stepN (k + 1) s = .next { s with phase := .capchk m } := by
  have hexec : ∀ (s : State) (l : List Byte), s.phase = .validate l → exec i s = validateStep l s := by
    intro s l hp
    cases i <;> simp [readsMessage] at hi <;> simp [exec, execEmbed, execCheck, hp]
  intro k
  induction k with
  | zero =>
    intro s hs hb hd hm hc _ hp
    rw [Nat.sub_zero, List.take_length] at hp
    refine stepN_command hs hb hd (t := { s with phase := .capchk m }) ?_ rfl
    rw [hexec s m hp]
    simp [validateStep, hm.1, heof]
  | succ k ih =>
    intro s hs hb hd hm hc hk hp
    have hlen : (m.take (m.length - (k + 1))).length = m.length - (k + 1) := by simp
    have hlt : m.length - (k + 1) < m.length := by omega
    have hread := hm.2 _ hlt
    rw [Nat.zero_add, List.getElem?_eq_getElem hlt] at hread
    have hnext : m.take (m.length - (k + 1)) ++ [m[m.length - (k + 1)]] = m.take (m.length - k) := by
      rw [show m.length - k = (m.length - (k + 1)) + 1 by omega, List.take_add_one, List.getElem?_eq_getElem hlt]; rfl
    refine stepN_command hs hb hd (t := { s with phase := .validate (m.take (m.length - k)) }) ?_
      (ih _ hs hb hd hm hc (by omega) rfl)
    rw [hexec s _ hp, validateStep, hlen, if_pos (by rw [← hm.1]; exact hlt),
      memRead_some (b := m[m.length - (k + 1)]) (by simp only [size_msg]; have := hm.1; omega) (by simpa using hread),
      hnext]

/-- What EMBED's walk leaves in `CAR` for the indices from `j` on (43_engine R143): `c'` against `c`. -/
structure Walked (bits : List Bool) (j : Nat) (c c' : Memory) : Prop where
  adjusted : ∀ i b want, j ≤ i → c.read (hdr + i) = some b → bits[i]? = some want →
    c'.read (hdr + i) = some (if parity b = want then b else b + 1#8)
  outside : ∀ a, (a < hdr + j ∨ hdr + bits.length ≤ a) → c'.read a = c.read a
  already : (∀ i b want, j ≤ i → c.read (hdr + i) = some b → bits[i]? = some want → parity b = want) → c' = c

/-- One iteration of the walk before the loop's head: the read and, where the parity is wrong, the write. -/
theorem run_walk_iteration {s : State} {m : List Byte} {b : Byte} {want : Bool} (hs : s.schedule = [])
    (hb : s.status.busy = true) (hd : decode s.opl = .ok .embed) (hm : s.messageIs m)
    (hfit : hdr + s.nBits ≤ s.carSize.toNat) (hcap : s.carSize.toNat ≤ s.caps.carCap) (hj : s.j.toNat < s.nBits)
    (hp : s.phase = .walk m .read) (hread : s.car.read (hdr + s.j.toNat) = some b)
    (hw : (payloadBits m)[s.j.toNat]? = some want) :
    ∃ n c p, n ≤ 2 ∧
      stepN n s = walkLoop m { s with
        pos := BitVec.ofNat 32 (hdr + s.j.toNat), j := s.j + 1#32, car := c, phase := p,
        status := { s.status with wrap := s.status.wrap || (decide (parity b ≠ want) && b == 0xFF#8) } } ∧
      c.read (hdr + s.j.toNat) = some (if parity b = want then b else b + 1#8) ∧
      (∀ a, a ≠ hdr + s.j.toNat → c.read a = s.car.read a) ∧ (parity b = want → c = s.car) := by
  have hex : exec .embed s = walkAdjust m b want { s with pos := BitVec.ofNat 32 (hdr + s.j.toNat) } := by
    rw [exec_embed_walkRead hp, walkRead, memRead_some (b := b) (by simp only [size_car]; omega) (by simpa using hread)]
    exact payloadBit_eq _ hm hj hw
  by_cases hpar : parity b = want
  · refine ⟨1, s.car, s.phase, by omega, stepN_one_command hs hb hd ?_, by simp [hpar, hread], fun _ _ => rfl, fun _ => rfl⟩
    rw [hex, walkAdjust_of_eq _ _ hpar]
    simp [hpar]
  · refine ⟨2, s.car.write (hdr + s.j.toNat) (b + 1#8), .walk m (.write b (b + 1#8)), by omega, ?_, by simp [hpar],
      fun a ha => read_write_other _ _ _ _ ha, fun h => absurd h hpar⟩
    refine stepN_command (n := 1) hs hb hd (hex.trans (walkAdjust_of_ne _ _ hpar)) (stepN_one_command hs hb hd ?_)
    rw [exec_embed_walkWrite rfl, walkWrite, memWrite_below (by simp only [size_car]; omega)]
    simp [hpar, State.noteWrap, State.setMem]

/-- EMBED's walk from index `J` to its end: every remaining bit is adjusted into its byte and nothing else changes. -/
theorem run_walk {m : List Byte} :
    ∀ (d : Nat) (s : State), s.schedule = [] → s.status.busy = true → decode s.opl = .ok .embed → s.messageIs m →
      hdr + s.nBits ≤ s.carSize.toNat → s.carSize.toNat ≤ s.caps.carCap →
      s.j.toNat + (d + 1) = s.nBits → s.phase = .walk m .read →
      (∀ i, s.j.toNat ≤ i → i < s.nBits → ∃ b, s.car.read (hdr + i) = some b) →
      ∃ n c w, n ≤ 2 * (d + 1) ∧
        stepN n s = .next { s with
          j := BitVec.ofNat 32 s.nBits, pos := BitVec.ofNat 32 (hdr + s.nBits), car := c, phase := .idle,
          status := statusEnded .noError { s.status with wrap := w } } ∧
        Walked (payloadBits m) s.j.toNat s.car c ∧
        (w = true ↔ s.status.wrap = true ∨
          ∃ i, s.j.toNat ≤ i ∧ s.car.read (hdr + i) = some 0xFF#8 ∧ (payloadBits m)[i]? = some false) := by
  intro d
  induction d with
  | zero =>
    intro s hs hb hd hm hfit hcap hj hp hw
    have hn : (payloadBits m).length = s.nBits := by simp [State.nBits, hm.1]
    obtain ⟨b, hread⟩ := hw s.j.toNat (by omega) (by omega)
    obtain ⟨want, hwant⟩ : ∃ want, (payloadBits m)[s.j.toNat]? = some want :=
      ⟨_, List.getElem?_eq_getElem (by omega)⟩
    obtain ⟨n, c, p, hn2, hrun, hsame, hother, halready⟩ :=
      run_walk_iteration hs hb hd hm hfit hcap (by omega) hp hread hwant
    have hbound : s.nBits < 2 ^ 32 := by have := s.carSize.isLt; omega
    have hj1 : (s.j + 1#32).toNat = s.nBits := by rw [toNat_succ (n := s.nBits) (by omega) hbound]; omega
    refine ⟨n, c, s.status.wrap || (decide (parity b ≠ want) && b == 0xFF#8), by omega, ?_, ⟨?_, ?_, ?_⟩, ?_⟩
    · rw [hrun, walkLoop, if_neg (by simp only [State.nBits] at hj1 ⊢; omega)]
      have : s.j + 1#32 = BitVec.ofNat 32 s.nBits := by
        apply BitVec.eq_of_toNat_eq; simp [hj1]; omega
      simp only [finish, State.finished, this]
      rfl
    · intro i b' want' hi hr hwb
      have : i = s.j.toNat := by
        have : i < (payloadBits m).length := by
          by_contra h; rw [List.getElem?_eq_none (by omega)] at hwb; cases hwb
        omega
      subst this
      rw [hread] at hr; rw [hwant] at hwb
      simp only [Option.some.injEq] at hr hwb
      subst hr hwb
      exact hsame
    · intro a ha
      exact hother a (by omega)
    · intro hall
      exact halready (hall _ _ _ (le_refl _) hread hwant)
    · simp only [Bool.or_eq_true, Bool.and_eq_true, decide_eq_true_eq, beq_iff_eq]
      refine or_congr Iff.rfl ⟨fun ⟨h1, h2⟩ => ⟨s.j.toNat, le_refl _, h2 ▸ hread, ?_⟩, fun ⟨i, hi, hr, hwb⟩ => ?_⟩
      · subst h2
        rw [hwant]
        cases want
        · rfl
        · exact absurd (by decide) h1
      · have : i = s.j.toNat := by
          have : i < (payloadBits m).length := by
            by_contra h; rw [List.getElem?_eq_none (by omega)] at hwb; cases hwb
          omega
        subst this
        rw [hread] at hr; rw [hwant] at hwb
        simp only [Option.some.injEq] at hr hwb
        subst hr hwb
        exact ⟨by decide, rfl⟩
  | succ d ih =>
    intro s hs hb hd hm hfit hcap hj hp hw
    have hn : (payloadBits m).length = s.nBits := by simp [State.nBits, hm.1]
    obtain ⟨b, hread⟩ := hw s.j.toNat (by omega) (by omega)
    obtain ⟨want, hwant⟩ : ∃ want, (payloadBits m)[s.j.toNat]? = some want :=
      ⟨_, List.getElem?_eq_getElem (by omega)⟩
    obtain ⟨n, c, p, hn2, hrun, hsame, hother, halready⟩ :=
      run_walk_iteration hs hb hd hm hfit hcap (by omega) hp hread hwant
    have hbound : s.nBits < 2 ^ 32 := by have := s.carSize.isLt; omega
    have hj1 : (s.j + 1#32).toNat = s.j.toNat + 1 := toNat_succ (n := s.nBits) (by omega) hbound
    rw [walkLoop, if_pos (by simp only [State.nBits] at hj ⊢; omega)] at hrun
    obtain ⟨n', c', w', hn', hrun', ⟨ha', ho', hal'⟩, hw'⟩ := ih
      { s with
        pos := BitVec.ofNat 32 (hdr + s.j.toNat), j := s.j + 1#32, car := c, phase := .walk m .read,
        status := { s.status with wrap := s.status.wrap || (decide (parity b ≠ want) && b == 0xFF#8) } }
      hs hb hd hm hfit hcap (by simp only [hj1]; simp only [State.nBits] at hj ⊢; omega) rfl
      (by
        intro i hi hin
        simp only [hj1] at hi
        obtain ⟨b', hb'⟩ := hw i (by omega) hin
        exact ⟨b', by simp only []; rw [hother _ (by omega), hb']⟩)
    simp only [hj1] at ha' ho' hal' hw'
    have hstep : ∀ i, s.j.toNat + 1 ≤ i → c.read (hdr + i) = s.car.read (hdr + i) :=
      fun i hi => hother _ (by omega)
    refine ⟨n + n', c', w', by omega, stepN_trans hrun hrun', ⟨?_, ?_, ?_⟩, ?_⟩
    · intro i b' want' hi hr hwb
      by_cases he : i = s.j.toNat
      · subst he
        rw [hread] at hr; rw [hwant] at hwb
        simp only [Option.some.injEq] at hr hwb
        subst hr hwb
        rw [ho' _ (by omega), hsame]
      · exact ha' i b' want' (by omega) (by rw [hstep i (by omega), hr]) hwb
    · intro a ha
      rw [ho' a (by omega), hother a (by omega)]
    · intro hall
      have hcc := halready (hall _ _ _ (le_refl _) hread hwant)
      rw [hal' (fun i b' want' hi hr hwb => hall i b' want' (by omega) (by rw [← hstep i hi, hr]) hwb), hcc]
    · rw [hw']
      simp only [Bool.or_eq_true, Bool.and_eq_true, decide_eq_true_eq, beq_iff_eq]
      constructor
      · rintro ((h | ⟨h1, h2⟩) | ⟨i, hi, hr, hwb⟩)
        · exact .inl h
        · subst h2
          refine .inr ⟨s.j.toNat, le_refl _, hread, ?_⟩
          rw [hwant]
          cases want
          · rfl
          · exact absurd (by decide) h1
        · exact .inr ⟨i, by omega, by rw [← hstep i hi, hr], hwb⟩
      · rintro (h | ⟨i, hi, hr, hwb⟩)
        · exact .inl (.inl h)
        · by_cases he : i = s.j.toNat
          · subst he
            rw [hread] at hr; rw [hwant] at hwb
            simp only [Option.some.injEq] at hr hwb
            subst hr hwb
            exact .inl (.inr ⟨by decide, rfl⟩)
          · exact .inr ⟨i, by omega, by rw [hstep i (by omega), hr], hwb⟩

/-- One read of CHECK's probe before the loop's head, `EQ` being `e`. -/
theorem check_iteration {s : State} {m : List Byte} {b : Byte} {want e : Bool} (hm : s.messageIs m)
    (hfit : hdr + s.nBits ≤ s.carSize.toNat) (hcap : s.carSize.toNat ≤ s.caps.carCap) (hj : s.j.toNat < s.nBits)
    (hp : exec .check s = checkProbe m { s with eq := e }) (hread : s.car.read (hdr + s.j.toNat) = some b)
    (hw : (payloadBits m)[s.j.toNat]? = some want) :
    exec .check s = checkLoop m { s with
      pos := BitVec.ofNat 32 (hdr + s.j.toNat), j := s.j + 1#32, eq := e && (parity b == want) } := by
  rw [hp, checkProbe, memRead_some (b := b) (by simp only [size_car]; omega) (by simpa using hread)]
  exact payloadBit_eq (s := { s with eq := e }) _ hm hj hw

/-- CHECK's probe from index `J` to its end, `EQ` being `e`: `FOUND` says whether `e` was 1 and every remaining parity is
its bit. -/
theorem run_check_probe {m : List Byte} :
    ∀ (d : Nat) (e : Bool) (s : State), s.schedule = [] → s.status.busy = true → decode s.opl = .ok .check →
      s.messageIs m → hdr + s.nBits ≤ s.carSize.toNat →
      s.carSize.toNat ≤ s.caps.carCap → s.j.toNat + (d + 1) = s.nBits →
      exec .check s = checkProbe m { s with eq := e } →
      (∀ i, s.j.toNat ≤ i → i < s.nBits → ∃ b, s.car.read (hdr + i) = some b) →
      ∃ v, stepN (d + 1) s = .next { s with
          j := BitVec.ofNat 32 s.nBits, pos := BitVec.ofNat 32 (hdr + s.nBits), eq := v, phase := .idle,
          status := statusEnded .noError { s.status with found := v } } ∧
        (v = true ↔ e = true ∧
          ∀ i b want, s.j.toNat ≤ i → s.car.read (hdr + i) = some b → (payloadBits m)[i]? = some want →
            parity b = want) := by
  intro d
  induction d with
  | zero =>
    intro e s hs hb hd hm hfit hcap hj hp hw
    have hn : (payloadBits m).length = s.nBits := by simp [State.nBits, hm.1]
    obtain ⟨b, hread⟩ := hw s.j.toNat (by omega) (by omega)
    obtain ⟨want, hwant⟩ : ∃ want, (payloadBits m)[s.j.toNat]? = some want :=
      ⟨_, List.getElem?_eq_getElem (by omega)⟩
    have hex := check_iteration hm hfit hcap (by omega) hp hread hwant
    have hbound : s.nBits < 2 ^ 32 := by have := s.carSize.isLt; omega
    have hj1 : (s.j + 1#32).toNat = s.nBits := by rw [toNat_succ (n := s.nBits) (by omega) hbound]; omega
    refine ⟨e && (parity b == want), stepN_one_command hs hb hd ?_, ?_⟩
    · rw [hex, checkLoop, if_neg (by simp only [State.nBits] at hj1 ⊢; omega)]
      have : s.j + 1#32 = BitVec.ofNat 32 s.nBits := by
        apply BitVec.eq_of_toNat_eq; simp [hj1]; omega
      simp only [finish, State.finished, State.setFound, this]
      rfl
    · simp only [Bool.and_eq_true, beq_iff_eq]
      refine and_congr Iff.rfl ⟨fun h i b' want' hi hr hwb => ?_, fun h => h _ _ _ (le_refl _) hread hwant⟩
      have : i = s.j.toNat := by
        have : i < (payloadBits m).length := by
          by_contra h; rw [List.getElem?_eq_none (by omega)] at hwb; cases hwb
        omega
      subst this
      rw [hread] at hr; rw [hwant] at hwb
      simp only [Option.some.injEq] at hr hwb
      subst hr hwb
      exact h
  | succ d ih =>
    intro e s hs hb hd hm hfit hcap hj hp hw
    have hn : (payloadBits m).length = s.nBits := by simp [State.nBits, hm.1]
    obtain ⟨b, hread⟩ := hw s.j.toNat (by omega) (by omega)
    obtain ⟨want, hwant⟩ : ∃ want, (payloadBits m)[s.j.toNat]? = some want :=
      ⟨_, List.getElem?_eq_getElem (by omega)⟩
    have hex := check_iteration hm hfit hcap (by omega) hp hread hwant
    have hbound : s.nBits < 2 ^ 32 := by have := s.carSize.isLt; omega
    have hj1 : (s.j + 1#32).toNat = s.j.toNat + 1 := toNat_succ (n := s.nBits) (by omega) hbound
    rw [checkLoop, if_pos (by simp only [State.nBits] at hj ⊢; omega)] at hex
    obtain ⟨v, hrun, hv⟩ := ih (e && (parity b == want))
      { s with
        pos := BitVec.ofNat 32 (hdr + s.j.toNat), j := s.j + 1#32, eq := e && (parity b == want),
        phase := .probe m .read }
      hs hb hd hm hfit hcap (by simp only [hj1]; simp only [State.nBits] at hj ⊢; omega)
      (by rw [exec_check_probeNext rfl])
      (by intro i hi hin; simp only [hj1] at hi; exact hw i (by omega) hin)
    simp only [hj1] at hv
    refine ⟨v, stepN_command hs hb hd hex hrun, ?_⟩
    rw [hv]
    simp only [Bool.and_eq_true, beq_iff_eq]
    constructor
    · rintro ⟨⟨h1, h2⟩, h3⟩
      refine ⟨h1, fun i b' want' hi hr hwb => ?_⟩
      by_cases hij : i = s.j.toNat
      · subst hij
        rw [hread] at hr; rw [hwant] at hwb
        simp only [Option.some.injEq] at hr hwb
        subst hr hwb
        exact h2
      · exact h3 i b' want' (by omega) hr hwb
    · rintro ⟨h1, h2⟩
      exact ⟨⟨h1, h2 _ _ _ (le_refl _) hread hwant⟩, fun i b' want' hi hr hwb => h2 i b' want' (by omega) hr hwb⟩

/-- What EXTRACT's BOF probe leads to, by the verdict (43_engine R155, R157). -/
def bofVerdict (s : State) (e : Bool) : State :=
  if e then
    { s with
      j := 24#32, pos := 224#32, eq := e, k := 0#32, tail := 0#24, phase := .scan 0,
      status := { s.status with found := true } }
  else
    { s with
      j := 24#32, pos := 224#32, eq := e, phase := .idle,
      status := statusEnded .noError { s.status with found := false } }

/-- EXTRACT's BOF probe from index `J` to its verdict. -/
theorem run_bof_probe :
    ∀ (d : Nat) (s : State), s.schedule = [] → s.status.busy = true → decode s.opl = .ok .extract →
      scanStart ≤ s.carSize.toNat → s.carSize.toNat ≤ s.caps.carCap → s.j.toNat + (d + 1) = 24 →
      s.phase = .probe [] .read → (∀ i, s.j.toNat ≤ i → i < 24 → ∃ b, s.car.read (hdr + i) = some b) →
      ∃ e, stepN (d + 1) s = .next (bofVerdict s e) ∧
        (e = true ↔ s.eq = true ∧
          ∀ i b, s.j.toNat ≤ i → i < 24 → s.car.read (hdr + i) = some b → parity b = bofBit i) := by
  have iter : ∀ (s : State), scanStart ≤ s.carSize.toNat → s.carSize.toNat ≤ s.caps.carCap → s.j.toNat < 24 →
      s.phase = .probe [] .read → ∀ b, s.car.read (hdr + s.j.toNat) = some b →
      exec .extract s = bofLoop { s with
        pos := BitVec.ofNat 32 (hdr + s.j.toNat), j := s.j + 1#32, eq := s.eq && (parity b == bofBit s.j.toNat) } := by
    intro s hsz hcap hj hp b hread
    simp only [scanStart] at hsz
    rw [exec_extract_probeNext hp, bofProbe,
      memRead_some (b := b) (by simp only [size_car, hdr]; omega) (by simpa using hread)]
  intro d
  induction d with
  | zero =>
    intro s hs hb hd hsz hcap hj hp hw
    obtain ⟨b, hread⟩ := hw s.j.toNat (by omega) (by omega)
    have hex := iter s hsz hcap (by omega) hp b hread
    have hj1 : s.j + 1#32 = 24#32 := by
      apply BitVec.eq_of_toNat_eq; rw [toNat_succ (n := 24) (by omega) (by omega)]; simp; omega
    refine ⟨s.eq && (parity b == bofBit s.j.toNat), ?_, ?_⟩
    · rw [stepN_one, step_command hs hb hd, hex, bofLoop, hj1,
        if_neg (show ¬ (24#32 : Word).toNat < bofBits by decide)]
      cases h : s.eq && (parity b == bofBit s.j.toNat) <;>
        simp [bofVerdict, finish, State.finished, State.setFound, scanStart]
    · simp only [Bool.and_eq_true, beq_iff_eq]
      refine and_congr Iff.rfl ⟨fun h i b' hi hi2 hr => ?_, fun h => h _ _ (le_refl _) (by omega) hread⟩
      have : i = s.j.toNat := by omega
      subst this
      rw [hread] at hr
      simp only [Option.some.injEq] at hr
      exact hr ▸ h
  | succ d ih =>
    intro s hs hb hd hsz hcap hj hp hw
    obtain ⟨b, hread⟩ := hw s.j.toNat (by omega) (by omega)
    have hex := iter s hsz hcap (by omega) hp b hread
    have hj1 : (s.j + 1#32).toNat = s.j.toNat + 1 := toNat_succ (n := 24) (by omega) (by omega)
    rw [bofLoop, if_pos (by simp only [hj1, bofBits]; omega)] at hex
    obtain ⟨e, hrun, he⟩ := ih
      { s with
        pos := BitVec.ofNat 32 (hdr + s.j.toNat), j := s.j + 1#32, eq := s.eq && (parity b == bofBit s.j.toNat),
        phase := .probe [] .read }
      hs hb hd hsz hcap (by simp only [hj1]; omega) rfl
      (by intro i hi hin; simp only [hj1] at hi; exact hw i (by omega) hin)
    refine ⟨e, ?_, ?_⟩
    · rw [stepN_command hs hb hd hex hrun]
      cases e <;> rfl
    · rw [he]
      simp only [hj1, Bool.and_eq_true, beq_iff_eq]
      constructor
      · rintro ⟨⟨h1, h2⟩, h3⟩
        refine ⟨h1, fun i b' hi hi2 hr => ?_⟩
        by_cases hij : i = s.j.toNat
        · subst hij
          rw [hread] at hr
          simp only [Option.some.injEq] at hr
          exact hr ▸ h2
        · exact h3 i b' (by omega) hi2 hr
      · rintro ⟨h1, h2⟩
        exact ⟨⟨h1, h2 _ _ (le_refl _) (by omega) hread⟩, fun i b' hi hi2 hr => h2 i b' (by omega) hi2 hr⟩

/-- One chunk of the scan: 8 micro-steps rebuild the byte whose bits are its parities (42_bitcodec R122, R123). -/
theorem run_scan_chunk {s : State} {c : Byte} (hs : s.schedule = []) (hb : s.status.busy = true)
    (hd : decode s.opl = .ok .extract) (hfit : s.pos.toNat + 8 ≤ s.carSize.toNat)
    (hcap : s.carSize.toNat ≤ s.caps.carCap) (hp : s.phase = .scan 0)
    (hcar : ∀ k, k < 8 → ∃ b, s.car.read (s.pos.toNat + k) = some b ∧ parity b = msbBit c k) :
    stepN 8 s = .next { s with acc := c, phase := .scan 8 } := by
  have byte : ∀ (k : Nat) (u : State), k < 8 → u.car = s.car → u.pos = s.pos → u.caps = s.caps →
      scanByte k u = .next { u with acc := shiftIn u.acc (msbBit c k), phase := .scan (k + 1) } := by
    intro k u hk hu1 hu2 hu3
    obtain ⟨b, hread, hpar⟩ := hcar k hk
    rw [scanByte, memRead_some (b := b) (by simp only [hu2, hu3, size_car]; omega) (by simp [hu1, hu2, hread]), hpar]
  have first : exec .extract s = .next { s with acc := shiftIn 0#8 (msbBit c 0), phase := .scan 1 } := by
    rw [exec_extract_scan hp, scanStep, if_pos rfl, scanHead, if_neg (by simp only [chunk]; omega),
      byte 0 { s with acc := 0#8 } (by omega) rfl rfl rfl]
  have later : ∀ (k : Nat) (a : Byte), 0 < k → k < 8 →
      exec .extract { s with acc := a, phase := .scan k } =
        .next { s with acc := shiftIn a (msbBit c k), phase := .scan (k + 1) } := by
    intro k a h0 h8
    rw [exec_extract_scan rfl, scanStep, if_neg (by omega), if_pos (by simpa [chunk] using h8), byte k { s with acc := a, phase := .scan k } h8
      rfl rfl rfl]
  refine stepN_command (n := 7) hs hb hd first ?_
  refine stepN_command (n := 6) hs hb hd (later 1 _ (by omega) (by omega)) ?_
  refine stepN_command (n := 5) hs hb hd (later 2 _ (by omega) (by omega)) ?_
  refine stepN_command (n := 4) hs hb hd (later 3 _ (by omega) (by omega)) ?_
  refine stepN_command (n := 3) hs hb hd (later 4 _ (by omega) (by omega)) ?_
  refine stepN_command (n := 2) hs hb hd (later 5 _ (by omega) (by omega)) ?_
  refine stepN_command (n := 1) hs hb hd (later 6 _ (by omega) (by omega)) ?_
  refine stepN_command (n := 0) hs hb hd (later 7 _ (by omega) (by omega)) ?_
  rw [shiftIn_bits]
  rfl

/-- The last three characters of a buffer as `TAIL` holds them, from 0 (43_engine R160). -/
def tailOf (l : List Byte) : BitVec 24 := l.foldl (fun t b => t * 256#24 + b.setWidth 24) 0#24

theorem tailOf_snoc (l : List Byte) (b : Byte) : tailOf (l ++ [b]) = tailOf l * 256#24 + b.setWidth 24 := by
  simp [tailOf]

/-- `TAIL` holds "EOF", with three characters decoded, exactly when the buffer ends in "EOF" (10_state R37). -/
theorem tailOf_eof (l : List Byte) : (3 ≤ l.length ∧ tailOf l = 0x454F46#24) ↔ ∃ p, l = p ++ eof := by
  constructor
  · rintro ⟨h3, ht⟩
    obtain ⟨p, x, y, z, rfl⟩ : ∃ p x y z, l = p ++ [x, y, z] := by
      refine ⟨l.take (l.length - 3), l[l.length - 3], l[l.length - 3 + 1], l[l.length - 3 + 1 + 1], ?_⟩
      have := List.take_append_drop (l.length - 3) l
      rw [List.drop_eq_getElem_cons (by omega), List.drop_eq_getElem_cons (by omega),
        List.drop_eq_getElem_cons (by omega), List.drop_eq_nil_of_le (by omega)] at this
      exact this.symm
    rw [show p ++ [x, y, z] = ((p ++ [x]) ++ [y]) ++ [z] by simp, tailOf_snoc, tailOf_snoc, tailOf_snoc] at ht
    have := congrArg BitVec.toNat ht
    simp only [BitVec.toNat_add, BitVec.toNat_mul, BitVec.toNat_setWidth, BitVec.toNat_ofNat] at this
    have hx := x.isLt; have hy := y.isLt; have hz := z.isLt; have htl := (tailOf p).isLt
    refine ⟨p, ?_⟩
    have ex : x = 0x45#8 := by apply BitVec.eq_of_toNat_eq; simp; omega
    have ey : y = 0x4F#8 := by apply BitVec.eq_of_toNat_eq; simp; omega
    have ez : z = 0x46#8 := by apply BitVec.eq_of_toNat_eq; simp; omega
    rw [ex, ey, ez]; rfl
  · rintro ⟨p, rfl⟩
    refine ⟨by simp [eof], ?_⟩
    rw [show p ++ eof = ((p ++ [0x45#8]) ++ [0x4F#8]) ++ [0x46#8] by simp [eof], tailOf_snoc, tailOf_snoc, tailOf_snoc]
    apply BitVec.eq_of_toNat_eq
    simp only [BitVec.toNat_add, BitVec.toNat_mul, BitVec.toNat_setWidth, BitVec.toNat_ofNat]
    have htl := (tailOf p).isLt
    omega

/-- A carried character, bit by bit. -/
theorem carries_char {c : Memory} {a : Nat} {l : List Byte} (h : c.carries a (toBits l)) {i : Nat} {x : Byte}
    (hx : l[i]? = some x) {k : Nat} (hk : k < 8) :
    ∃ b, c.read (a + 8 * i + k) = some b ∧ parity b = msbBit x k := by
  have hi : i < l.length := by
    by_contra h'; rw [List.getElem?_eq_none (by omega)] at hx; cases hx
  obtain ⟨b, hb, hp⟩ := h (8 * i + k) (by rw [toBits_length]; omega)
  rw [toBits_getElem?, show (8 * i + k) / 8 = i by omega, show (8 * i + k) % 8 = k by omega, hx] at hp
  exact ⟨b, by rw [Nat.add_assoc]; exact hb, by simpa using hp⟩

/-- The state after one stored character, before the test for "EOF" (43_engine R160). -/
def afterChar (s : State) (c : Byte) : State :=
  { s with
    acc := c, tail := s.tail * 256#24 + c.setWidth 24, k := s.k + 1#32, pos := s.pos + 8#32,
    out := s.out.write s.k.toNat c, phase := .scan 0 }

/-- One character of the scan: 8 reads and the store, then the test for "EOF". -/
theorem run_scan_char {s : State} {c : Byte} (hs : s.schedule = []) (hb : s.status.busy = true)
    (hd : decode s.opl = .ok .extract) (hfit : s.pos.toNat + 8 ≤ s.carSize.toNat)
    (hcap : s.carSize.toNat ≤ s.caps.carCap) (hp : s.phase = .scan 0) (hout : s.k.toNat < s.caps.outCap)
    (hcar : ∀ k, k < 8 → ∃ b, s.car.read (s.pos.toNat + k) = some b ∧ parity b = msbBit c k) :
    stepN 9 s = if sawEof (afterChar s c) then
        .next { afterChar s c with outLen := (afterChar s c).k - 3#32 }.finished
      else .next (afterChar s c) := by
  refine stepN_trans (a := 8) (b := 1) (run_scan_chunk hs hb hd hfit hcap hp hcar) ?_
  rw [stepN_one, step_command (s := { s with acc := c, phase := .scan 8 }) (i := .extract) hs hb hd,
    exec_extract_scan rfl, scanStep, if_neg (by omega),
    if_neg (show ¬ 8 < chunk by decide), scanStore, if_neg (by simp only []; omega),
    memWrite_below (by simp only [size_out]; omega)]
  rfl

/-- The scan up to its `d`-th character, when no "EOF" has ended it. -/
theorem run_scan_to {l : List Byte} {s : State} (hs : s.schedule = []) (hb : s.status.busy = true)
    (hd : decode s.opl = .ok .extract) (hcap : s.carSize.toNat ≤ s.caps.carCap) (hp : s.phase = .scan 0)
    (hk : s.k = 0#32) (htail : s.tail = 0#24) (hpos : s.pos = 224#32) (hcar : s.car.carries 224 (toBits l)) :
    ∀ d, d ≤ l.length → containsEof (l.take d) = false → 224 + 8 * d ≤ s.carSize.toNat → d ≤ s.caps.outCap →
      ∃ acc o, stepN (9 * d) s = .next { s with
          acc := acc, tail := tailOf (l.take d), k := BitVec.ofNat 32 d, pos := BitVec.ofNat 32 (224 + 8 * d),
          out := o, phase := .scan 0 } ∧
        o.holds 0 (l.take d) ∧ ∀ a, d ≤ a → o.read a = s.out.read a := by
  intro d
  induction d with
  | zero =>
    intro _ _ _ _
    refine ⟨s.acc, s.out, ?_, fun i hi => by simp at hi, fun _ _ => rfl⟩
    cases s
    simp_all [tailOf]
  | succ d ih =>
    intro hlen heof hfit hout
    have hx : l[d]? = some l[d] := List.getElem?_eq_getElem (by omega)
    have htake : l.take (d + 1) = l.take d ++ [l[d]] := by rw [List.take_add_one, hx]; rfl
    have heof' : containsEof (l.take d) = false := by
      cases h : containsEof (l.take d)
      · rfl
      · rw [htake, containsEof_append_left _ _ h] at heof; cases heof
    obtain ⟨acc, o, hrun, hholds, hbeyond⟩ := ih (by omega) heof' (by omega) (by omega)
    have hsz := s.carSize.isLt
    have hd32 : (BitVec.ofNat 32 d).toNat = d := by simp; omega
    have hp32 : (BitVec.ofNat 32 (224 + 8 * d)).toNat = 224 + 8 * d := by simp; omega
    have hchar := run_scan_char (c := l[d])
      (s := { s with
        acc := acc, tail := tailOf (l.take d), k := BitVec.ofNat 32 d, pos := BitVec.ofNat 32 (224 + 8 * d),
        out := o, phase := .scan 0 }) hs hb hd (by simp only [hp32]; omega) hcap rfl (by simp only [hd32]; omega)
      (by intro k hk8; simp only [hp32]; exact carries_char hcar hx hk8)
    have hk1 : BitVec.ofNat 32 d + 1#32 = BitVec.ofNat 32 (d + 1) := by
      apply BitVec.eq_of_toNat_eq; simp
    have hp1 : BitVec.ofNat 32 (224 + 8 * d) + 8#32 = BitVec.ofNat 32 (224 + 8 * (d + 1)) := by
      apply BitVec.eq_of_toNat_eq; simp; omega
    have hlen1 : (l.take (d + 1)).length = d + 1 := by simp; omega
    rw [if_neg] at hchar
    · refine ⟨l[d], o.write d l[d], ?_, ?_, ?_⟩
      · rw [show 9 * (d + 1) = 9 * d + 9 by omega, stepN_trans hrun hchar]
        simp only [afterChar, hk1, hp1, hd32, ← tailOf_snoc, ← htake]
      · intro i hi
        rw [hlen1] at hi
        rw [Nat.zero_add, htake]
        by_cases hid : i = d
        · subst hid
          rw [read_write_same, List.getElem?_append_right (by simp)]
          simp [Nat.min_eq_left (show i ≤ l.length by omega)]
        · rw [read_write_other _ _ _ _ hid, List.getElem?_append_left (by simp; omega)]
          have := hholds i (by simp; omega)
          rwa [Nat.zero_add] at this
      · intro a ha
        rw [read_write_other _ _ _ _ (by omega), hbeyond a (by omega)]
    · intro hsaw
      have h3 : 3 ≤ (l.take (d + 1)).length ∧ tailOf (l.take (d + 1)) = 0x454F46#24 := by
        simp only [sawEof, afterChar, Bool.and_eq_true, decide_eq_true_eq, beq_iff_eq, hk1, ← tailOf_snoc,
          ← htake] at hsaw
        refine ⟨?_, hsaw.2⟩
        rw [hlen1]
        have := hsaw.1
        simp at this; omega
      obtain ⟨p, hp'⟩ := (tailOf_eof _).mp h3
      rw [hp', containsEof_append_right p eof (by decide)] at heof
      cases heof

end Sys2Proof.Machine
end

