-- ==== Sys2Proof/Laws/PerInstr.lean ====
section
/-! SUPPORT. The encoding law, command by command (30_encoding R70, R71): each command is well-formed, its word has
`RSV = 0`, and the decoder reads the command back from the word. -/

namespace Sys2Proof.Laws.Encoding

/-- What the encoding says of one command. -/
def Statement (i : Sys2Proof.Instr) : Prop :=
  i.wellFormed = true ∧ Sys2Proof.rsvField (Sys2Proof.encode i) = 0#28 ∧
    Sys2Proof.opField (Sys2Proof.encode i) = Sys2Proof.opOf i ∧
    Sys2Proof.decode (Sys2Proof.encode i) = .ok i

theorem identify : Statement .identify := ⟨rfl, by decide, by decide, rfl⟩

theorem embed : Statement .embed := ⟨rfl, by decide, by decide, rfl⟩

theorem check : Statement .check := ⟨rfl, by decide, by decide, rfl⟩

theorem extract : Statement .extract := ⟨rfl, by decide, by decide, rfl⟩

end Sys2Proof.Laws.Encoding
end

