-- ==== Sys2Proof/Tests/Slice0.lean ====
section
/-! SUPPORT. The model's own tests. Expected values come from the tables and examples of spec/95_test_vectors.md (named in
each comment) or are written out by hand from the rule named. After them stands, for each statement with hypotheses, a
theorem witness_<its name>: states and operands that meet the hypotheses, clause by clause and at the ends of the ranges. -/

namespace Sys2Proof.Tests

open Sys2Proof.Machine

-- One theorem at a time: side by side they take more thread stacks than the sandbox allows.
set_option Elab.async false

/-! ### Small states -/

/-- `CAR_CAP = 272`, `MSG_CAP = 4`, `OUT_CAP = 3` (the least R10 allows). -/
def tCaps : Caps := { carAbove2 := 270, msgSize := 4, outAbove3 := 0 }

/-- Bytes at consecutive addresses. -/
def cells : Nat → List Byte → Memory
  | _, [] => []
  | a, b :: bs => (a, b) :: cells (a + 1) bs

/-- One carrier byte a bit, 0x01 or 0x00 (as program P1 leaves them). -/
def tBytes (bits : List Bool) : List Byte := bits.map fun b => if b then 0x01#8 else 0x00#8

/-- A BMP carrier whose bytes from 200 up are `bs`; nothing else is written. -/
def tCarrier (bs : List Byte) : Memory := [(0, 0x42#8), (1, 0x4D#8)] ++ cells 200 bs

/-- An idle block with this carrier and message. -/
def tIdle (car : Memory) (size : Nat) (m : List Byte) : State :=
  { State.reset with
    caps := tCaps, car := car, carSize := BitVec.ofNat 32 size, msg := cells 0 m, msgLen := BitVec.ofNat 32 m.length }

/-- The same block with command `i` accepted and in phase `ph`. -/
def tRun (i : Instr) (ph : Phase) (car : Memory) (size : Nat) (m : List Byte) : State :=
  { (tIdle car size m).accept (encode i) with phase := ph }

/-- The block with one host access to come. -/
def tHost (busy : Bool) (a : HostAccess) : State :=
  { (if busy then tRun .embed (.capchk []) [] 248 [] else tIdle [] 248 []) with schedule := [.host a] }

/-- A whole-word port. -/
def tPort (offset : Nat) : RegPort := { offset := BitVec.ofNat 32 offset, bytes := 4 }

/-- The next state, if there is one. -/
def after : Result → Option State
  | .next t => some t
  | .fault _ => none
  | .refused _ => none

/-- What a test looks at: the word of `STATUS`, `POS`, `OUT_LEN` and `MAX_CHARS`. -/
def seen (r : Result) : Option (Word × Word × Word × Word) :=
  (after r).map fun t => (statusWord t.status, t.pos, t.outLen, t.maxChars)

/-! ### Well-formedness: an ill-formed term for each check -/

theorem test_refuses_narrow_register_access : ({ offset := 0x04#32, bytes := 1 } : RegPort).wellFormed = false := by decide
theorem test_refuses_misaligned_register_access : ({ offset := 0x06#32, bytes := 4 } : RegPort).wellFormed = false := by
  decide
theorem test_refuses_register_above_0x3C : ({ offset := 0x40#32, bytes := 4 } : RegPort).wellFormed = false := by decide
theorem test_takes_last_reserved_register : ({ offset := 0x3C#32, bytes := 4 } : RegPort).wellFormed = true := by decide
theorem test_refuses_memory_at_capacity :
    (HostAccess.memRead .car 272#32).wellFormed tCaps = false ∧ (HostAccess.memWrite .msg 4#32 0#8).wellFormed tCaps = false ∧
      (HostAccess.memRead .out 3#32).wellFormed tCaps = false ∧ (HostAccess.memRead .car 271#32).wellFormed tCaps = true := by
  decide
theorem test_refuses_second_host : (Turn.secondHost (.regRead (tPort 0x04))).wellFormed tCaps = false := by decide

/-! ### Decoding: words written out from the field layout of 30_encoding R70 and R71 -/

theorem test_word_identify : decode 0b0000_0000_0000_0000_0000_0000_0000_0001#32 = .ok .identify := by decide
theorem test_word_embed : decode 0b0000_0000_0000_0000_0000_0000_0000_0010#32 = .ok .embed := by decide
theorem test_word_check : decode 0b0000_0000_0000_0000_0000_0000_0000_0011#32 = .ok .check := by decide
theorem test_word_extract : decode 0b0000_0000_0000_0000_0000_0000_0000_0100#32 = .ok .extract := by decide
theorem test_illegal_words :
    decode 0x00000000#32 = .error .illegalOpcode ∧ decode 0x00000005#32 = .error .illegalOpcode ∧
      decode 0x00000012#32 = .error .reservedNonzero ∧ decode 0x80000001#32 = .error .reservedNonzero := by decide
theorem test_table_words :
    decodeTableWord 32 1 = some .identify ∧ decodeTableWord 32 2 = some .embed ∧ decodeTableWord 32 3 = some .check ∧
      decodeTableWord 32 4 = some .extract ∧ decodeTableWord 32 6 = none := by decide

/-! ### Sub-units: V-SNIFF, V-FRAME, V-CODEC, V-ADJUST -/

theorem test_sniff :
    sniff 0x42#8 0x4D#8 2 false = .bmp ∧ sniff 0x50#8 0x36#8 2 false = .ppm ∧ sniff 0x50#8 0x33#8 100 false = .unsupported ∧
      sniff 0x50#8 0x33#8 100 true = .ppm ∧ sniff 0x4D#8 0x42#8 100 false = .unsupported ∧
      sniff 0x42#8 0x4D#8 1 false = .unsupported ∧ sniff 0x50#8 0x35#8 100 true = .unsupported := by decide
theorem test_frame_hi :
    frame [0x68#8, 0x69#8] = [0x42#8, 0x4F#8, 0x46#8, 0x68#8, 0x69#8, 0x45#8, 0x4F#8, 0x46#8] := by decide
theorem test_contains_eof :
    containsEof [0x45#8, 0x4F#8, 0x45#8, 0x4F#8, 0x46#8] = true ∧ containsEof [0x45#8, 0x4F#8] = false ∧
      containsEof [0x65#8, 0x6F#8, 0x66#8] = false ∧ containsEof [0x42#8, 0x4F#8, 0x46#8] = false := by decide
theorem test_strip_eof :
    stripEof [0x68#8, 0x69#8, 0x45#8, 0x4F#8, 0x46#8] = [0x68#8, 0x69#8] ∧ stripEof [0x45#8, 0x4F#8, 0x46#8] = [] := by
  decide
theorem test_toBits : toBits [0x42#8] = [false, true, false, false, false, false, true, false] := by decide
theorem test_fromBits : fromBits [false, true, true, false, true, false, false, false] = [0x68#8] := by decide
theorem test_adjust :
    adjust 0x00#8 true = (true, 0x01#8) ∧ adjust 0x01#8 false = (true, 0x02#8) ∧ adjust 0x01#8 true = (false, 0x01#8) ∧
      adjust 0xFE#8 true = (true, 0xFF#8) ∧ adjust 0xFF#8 false = (true, 0x00#8) := by decide

/-! ### One step -/

/-- A command placed for fetching runs as the first step after reset. -/
theorem test_first_step_runs_command :
    (after (step (State.reset.withFetchWord 32 4))).map (fun t => (t.opl, t.phase)) = some (4#32, .sniff none) := by
  decide +kernel

/-- S2: `CAR_SIZE = 1`, IDENTIFY gives `STATUS = 0x02`. -/
theorem test_identify_short :
    seen (exec .identify (tRun .identify (.sniff none) [] 1 [])) = some (0x02#32, 0#32, 0#32, 0#32) := by decide

/-- S4: header `50 33` with `PPM_STRICT = 1` gives `STATUS = 0x22`. -/
theorem test_identify_strict_ppm :
    seen (exec .identify { tRun .identify (.sniff (some 0x50#8)) [(0, 0x50#8), (1, 0x33#8)] 100 [] with strl := true }) =
      some (0x22#32, 0#32, 0#32, 0#32) := by decide

/-- V-EMBED: `CAR_SIZE = 247`, message "": `ERR = 2`, `POS = 0`, with a BMP header `STATUS = 0x212`. -/
theorem test_embed_one_byte_short :
    seen (exec .embed ((tRun .embed (.capchk []) [] 247 []).setFmt .bmp)) = some (0x212#32, 0#32, 0#32, 0#32) := by decide

/-- V-EMBED: the all-0xFF carrier ends with `STATUS = 0x52` and `POS = 248`; the last bit of "EOF" (0x46) is 0. -/
theorem test_embed_wraps_last_byte :
    let r := exec .embed ({ tRun .embed (.walk [] (.write 0xFF#8 0x00#8)) [(247, 0xFF#8)] 248 [] with j := 47#32 }.setFmt .bmp)
    seen r = some (0x52#32, 248#32, 0#32, 0#32) ∧ (after r).map (fun t => t.car) = some [(247, 0x00#8)] := by decide

/-- R211, R141: bit 25 is 1 in "h" (0x68), at the parity 0 of 0x10: the byte's one read micro-step finds that an adjust is
to be written. -/
theorem test_embed_reads_bit_in_one_step :
    (after (exec .embed { tRun .embed (.walk [0x68#8] .read) [(225, 0x10#8)] 256 [0x68#8] with j := 25#32 })).map
      (fun t => t.phase) = some (.walk [0x68#8] (.write 0x10#8 0x11#8)) := by decide +kernel

/-- R211, R141: CHECK at the same bit and byte: `EQ` falls in the one micro-step. -/
theorem test_check_reads_bit_in_one_step :
    (after (exec .check { tRun .check (.probe [0x68#8] .read) [(225, 0x10#8)] 256 [0x68#8] with
      j := 25#32, eq := true })).map (fun t => (t.phase, t.eq, t.j)) = some (.probe [0x68#8] .read, false, 26#32) := by
  decide +kernel

/-- V-CHECK: `CAR_SIZE = 150`, message "hi": `MAX_CHARS = 18`, `POS = 0`, `STATUS = 0x12`. -/
theorem test_check_without_capacity :
    seen (exec .check ((tRun .check (.capchk [0x68#8, 0x69#8]) [] 150 [0x68#8, 0x69#8]).setFmt .bmp)) = some (0x12#32, 0#32, 0#32, 18#32) := by
  decide

/-- V-CHECK: the last read of CHECK "hi" on its own carrier: `POS = 264`, `STATUS = 0x1E`. -/
theorem test_check_finds_hi :
    seen (exec .check (({ tRun .check (.probe [0x68#8, 0x69#8] .read) [(263, 0x00#8)] 264 [0x68#8, 0x69#8] with
      j := 63#32, eq := true, maxChars := 33#32 }.setFmt .bmp).setCapOk true)) = some (0x1E#32, 264#32, 0#32, 33#32) := by
  decide

/-- V-EXTRACT: "F" after "hiEO": `OUT_LEN = 2`, `POS = 264`, `STATUS = 0x16`. -/
theorem test_extract_ends_at_eof :
    seen (exec .extract (({ tRun .extract (.scan 8) [] 264 [] with
      caps := { tCaps with outAbove3 := 2 }, k := 4#32, pos := 256#32, acc := 0x46#8, tail := 0x69454F#24 }.setFmt
        .bmp).setFound true)) = some (0x16#32, 264#32, 2#32, 0#32) := by decide

/-- V-EXTRACT: the same carrier with `OUT_CAP = 3`: `POS = 248`, `STATUS = 0x616`. -/
theorem test_extract_overflows :
    seen (exec .extract (({ tRun .extract (.scan 8) [] 264 [] with
      k := 3#32, pos := 248#32, acc := 0x4F#8, tail := 0x686945#24 }.setFmt .bmp).setFound true)) =
      some (0x616#32, 248#32, 0#32, 0#32) := by decide

/-- V-ERR: the word 5 gives `STATUS = 0x502`; `CAR_SIZE = CAR_CAP + 1` gives `0x702`. -/
theorem test_errors_at_decode :
    seen (step { (tIdle [] 248 []).accept 5#32 with schedule := [.engine] }) = some (0x502#32, 0#32, 0#32, 0#32) ∧
      seen (exec .identify (tRun .identify .decode [] 273 [])) = some (0x702#32, 0#32, 0#32, 0#32) := by decide

/-- V-HAZARD: a `CFG` write while busy leaves `CFG` and sets `OVR` (bit 7). -/
theorem test_busy_cfg_write_ignored :
    (after (step (tHost true (.regWrite (tPort 0x08) 1#32)))).map (fun t => (t.strict, (statusWord t.status).getLsbD 7)) =
      some (false, true) := by decide

/-- Program P1, lines 4 and 5: `setmsg "hi"` and `embed` as register writes. -/
theorem test_notation_of_P1 :
    setmsg [0x68#8, 0x69#8] = [.host (.memWrite .msg 0#32 0x68#8), .host (.memWrite .msg 1#32 0x69#8),
        .host (.regWrite (tPort 0x10) 2#32)] ∧
      command .embed = [.host (.regWrite (tPort 0x00) 0x00000002#32)] := by decide +kernel

/-- R77: a `wait` poll of a busy block gives the engine a turn and comes back; of an idle one it is over. -/
theorem test_wait_polls :
    (after (step { tRun .embed (.capchk []) [] 248 [] with schedule := wait })).map (fun t => (t.hostGot, t.schedule)) =
        some (.word 1#32, [.engine, .wait]) ∧
      (after (step { tIdle [] 248 [] with schedule := wait })).map (fun t => (t.hostGot, t.schedule)) =
        some (.word 0#32, []) := by decide +kernel

/-! ### Witnesses -/

/-- A way to show that a memory carries bits. -/
theorem carries_of {m : Memory} {a : Nat} {bits : List Bool}
    (h : ∀ i, i < bits.length → (m.read (a + i)).map parity = bits[i]?) : m.carries a bits := by
  intro i hi
  have h1 := h i hi
  rw [List.getElem?_eq_getElem hi] at h1 ⊢
  obtain ⟨b, hb, hp⟩ := Option.map_eq_some_iff.mp h1
  exact ⟨b, hb, by rw [hp]⟩

/-- A way to show that bytes are written. -/
theorem written_of {m : Memory} {a n : Nat} (h : ∀ i, i < n → (m.read (a + i)).isSome = true) : m.written a n :=
  fun i hi => Option.isSome_iff_exists.mp (h i hi)

/-- The invariant of a busy state whose result registers are still clear. -/
theorem inv_of {s : State} (hc : s.car.wf = true ∧ s.car.below s.caps.carCap = true)
    (hm : s.msg.wf = true ∧ s.msg.below s.caps.msgCap = true) (ho : s.out.wf = true ∧ s.out.below s.caps.outCap = true)
    (hp : s.phase ≠ .idle) (hok : s.phaseOk) (hs : s.status = { statusAccepted with fmt := .bmp, found := s.status.found })
    (hf : s.status.found = true → decode s.opl = .ok .extract) (hz : s.maxChars = 0#32 ∧ s.outLen = 0#32) : s.Inv := by
  refine ⟨fun sp => ?_, fun sp => ?_, ?_, hok, ?_⟩
  · cases sp
    · exact hc.1
    · exact hm.1
    · exact ho.1
  · cases sp
    · exact hc.2
    · exact hm.2
    · exact ho.2
  · rw [hs]; exact ⟨fun _ => hp, fun _ => rfl⟩
  · refine ⟨?_, ?_, fun h => .inr (hf h), ?_, ?_, fun h => absurd hz.1 h, fun h => absurd hz.2 h⟩ <;> rw [hs] <;> simp [statusAccepted]

/-- The payload of the empty message on a carrier of exactly 248 bytes. -/
def tFull : Memory := tCarrier (tBytes (payloadBits []))

/-- A running command on that carrier, the gate passed. -/
def tWith (i : Instr) (ph : Phase) (j : Nat) : State :=
  { tRun i ph tFull 248 [] with
    j := BitVec.ofNat 32 j, pos := BitVec.ofNat 32 (200 + j), status := { statusAccepted with fmt := .bmp } }

/-- The payload of the message "h" on a carrier of exactly 256 bytes; bits 24 to 31 are the message's. -/
def tOne : Memory := tCarrier (tBytes (payloadBits [0x68#8]))

/-- A running command on that carrier, the gate passed. -/
def tMsg (i : Instr) (ph : Phase) (j : Nat) : State :=
  { tRun i ph tOne 256 [0x68#8] with
    j := BitVec.ofNat 32 j, pos := BitVec.ofNat 32 (200 + j), status := { statusAccepted with fmt := .bmp } }

/-- EXTRACT in the middle of its scan of that carrier, `k` characters decoded. -/
def tScan (n k : Nat) (acc : Byte) (tail : BitVec 24) : State :=
  { tRun .extract (.scan n) tFull 248 [] with
    k := BitVec.ofNat 32 k, pos := BitVec.ofNat 32 (224 + 8 * k), acc := acc, tail := tail,
    status := { statusAccepted with fmt := .bmp, found := true } }

theorem tFull_ok : tFull.wf = true ∧ tFull.below tCaps.carCap = true := by decide +kernel

theorem no_message (s : State) (h : s.msgLen = 0#32) : s.messageIs [] := ⟨by rw [h]; rfl, fun _ h => absurd h (by simp)⟩

theorem tMsg_message (i : Instr) (ph : Phase) (j : Nat) : (tMsg i ph j).messageIs [0x68#8] :=
  ⟨rfl, fun i h => by
    have : i = 0 := by simp at h; omega
    subst this; rfl⟩

theorem tOne_ok : tOne.wf = true ∧ tOne.below tCaps.carCap = true := by decide +kernel

theorem tWith_walk (j : Nat) (h : j < 48) (next : WalkStep) (hn : (tWith .embed (.walk [] next) j).walkStepOk next) :
    (tWith .embed (.walk [] next) j).Inv := by
  refine inv_of tFull_ok ⟨rfl, rfl⟩ ⟨rfl, rfl⟩ (by simp [tWith, tRun]) ?_ rfl (by simp [tWith, statusAccepted]) ⟨rfl, rfl⟩
  refine ⟨decode_encode _, ⟨Nat.le_of_ble_eq_true rfl, fun _ => Nat.le_of_ble_eq_true rfl⟩, no_message _ rfl, rfl,
    Nat.le_of_ble_eq_true rfl, ?_, hn⟩
  show (BitVec.ofNat 32 j).toNat < 48
  simp; omega

theorem tWith_check (j : Nat) (h : j < 48) (next : ProbeStep) (hn : (tWith .check (.probe [] next) j).checkStepOk next) :
    (tWith .check (.probe [] next) j).Inv := by
  refine inv_of tFull_ok ⟨rfl, rfl⟩ ⟨rfl, rfl⟩ (by simp [tWith, tRun]) ?_ rfl (by simp [tWith, statusAccepted]) ⟨rfl, rfl⟩
  refine .inl ⟨decode_encode _, ⟨Nat.le_of_ble_eq_true rfl, fun _ => Nat.le_of_ble_eq_true rfl⟩, no_message _ rfl, rfl,
    Nat.le_of_ble_eq_true rfl, ?_, hn⟩
  show (BitVec.ofNat 32 j).toNat < 48
  simp; omega

theorem tWith_extract (j : Nat) (h : j < 24) (next : ProbeStep) : (tWith .extract (.probe [] next) j).Inv := by
  refine inv_of tFull_ok ⟨rfl, rfl⟩ ⟨rfl, rfl⟩ (by simp [tWith, tRun]) ?_ rfl (by simp [tWith, statusAccepted]) ⟨rfl, rfl⟩
  refine .inr ⟨decode_encode _, ⟨Nat.le_of_ble_eq_true rfl, fun _ => Nat.le_of_ble_eq_true rfl⟩, rfl, ?_⟩
  cases next
  · trivial
  · refine ⟨Nat.le_of_ble_eq_true rfl, ?_⟩
    show (BitVec.ofNat 32 j).toNat < 24
    simp; omega

theorem tMsg_walk (j : Nat) (h : j < 56) (next : WalkStep) (hn : (tMsg .embed (.walk [0x68#8] next) j).walkStepOk next) :
    (tMsg .embed (.walk [0x68#8] next) j).Inv := by
  refine inv_of tOne_ok ⟨rfl, rfl⟩ ⟨rfl, rfl⟩ (by simp [tMsg, tRun]) ?_ rfl (by simp [tMsg, statusAccepted]) ⟨rfl, rfl⟩
  refine ⟨decode_encode _, ⟨Nat.le_of_ble_eq_true rfl, fun _ => Nat.le_of_ble_eq_true rfl⟩, tMsg_message _ _ _, rfl,
    Nat.le_of_ble_eq_true rfl, ?_, hn⟩
  show (BitVec.ofNat 32 j).toNat < 56
  simp; omega

theorem tMsg_check (j : Nat) (h : j < 56) (next : ProbeStep)
    (hn : (tMsg .check (.probe [0x68#8] next) j).checkStepOk next) : (tMsg .check (.probe [0x68#8] next) j).Inv := by
  refine inv_of tOne_ok ⟨rfl, rfl⟩ ⟨rfl, rfl⟩ (by simp [tMsg, tRun]) ?_ rfl (by simp [tMsg, statusAccepted]) ⟨rfl, rfl⟩
  refine .inl ⟨decode_encode _, ⟨Nat.le_of_ble_eq_true rfl, fun _ => Nat.le_of_ble_eq_true rfl⟩, tMsg_message _ _ _, rfl,
    Nat.le_of_ble_eq_true rfl, ?_, hn⟩
  show (BitVec.ofNat 32 j).toNat < 56
  simp; omega

theorem tScan_inv (n k : Nat) (acc : Byte) (tail : BitVec 24) (hn : n ≤ 8) (hk : k ≤ 3) (h : 0 < n → k ≤ 2) :
    (tScan n k acc tail).Inv := by
  have hj : (BitVec.ofNat 32 k).toNat = k := by simp; omega
  have hp : (BitVec.ofNat 32 (224 + 8 * k)).toNat = 224 + 8 * k := by simp; omega
  refine inv_of tFull_ok ⟨rfl, rfl⟩ ⟨rfl, rfl⟩ (by simp [tScan, tRun]) ?_ rfl (fun _ => decode_encode _) ⟨rfl, rfl⟩
  refine ⟨decode_encode _, ⟨Nat.le_of_ble_eq_true rfl, fun _ => Nat.le_of_ble_eq_true rfl⟩, hn, rfl, ?_, ?_, ?_, ?_⟩
  · show (BitVec.ofNat 32 (224 + 8 * k)).toNat = 224 + 8 * (BitVec.ofNat 32 k).toNat
    omega
  · show (BitVec.ofNat 32 (224 + 8 * k)).toNat ≤ 248
    omega
  · show 0 < n → (BitVec.ofNat 32 (224 + 8 * k)).toNat + 8 ≤ 248
    omega
  · show (BitVec.ofNat 32 k).toNat ≤ 3
    omega

/-! Steps, acceptance, reset and the host's accesses. -/

theorem witness_StepRunsLatchedCommand :
    ((tWith .embed (.capchk []) 0).status.busy = true ∧ decode (tWith .embed (.capchk []) 0).opl = .ok .embed ∧
        (tWith .embed (.capchk []) 0).schedule = [] ∧
        ({ tWith .embed (.capchk []) 0 with schedule := [.engine] } : State).schedule = .engine :: []) ∧
      (tIdle [] 0 []).status.busy = false ∧ (tIdle [] 0 []).schedule = [] ∧
      ({ tIdle [] 0 [] with schedule := [.engine] } : State).schedule = .engine :: [] := by decide

theorem witness_AcceptanceLatchesAndClears :
    (tHost false (.regWrite { offset := 0x00#32, bytes := 4 } 2#32)).status.busy = false ∧
      (tHost false (.regWrite { offset := 0x00#32, bytes := 4 } 2#32)).schedule =
        .host (.regWrite { offset := 0x00#32, bytes := 4 } 2#32) :: [] := by decide

/-- V-ERR: the words 0, 5 and 0x12. -/
theorem witness_IllegalWordEndsAtDecode :
    ((∀ i, 0x00#32 ≠ encode i) ∧ (∀ i, 0x05#32 ≠ encode i) ∧ ∀ i, 0x12#32 ≠ encode i) ∧
      (tHost false (.regWrite { offset := 0x00#32, bytes := 4 } 0x12#32)).status.busy = false ∧
      (tHost false (.regWrite { offset := 0x00#32, bytes := 4 } 0x12#32)).schedule =
        [.host (.regWrite { offset := 0x00#32, bytes := 4 } 0x12#32)] :=
  ⟨⟨fun i => by cases i <;> decide, fun i => by cases i <;> decide, fun i => by cases i <;> decide⟩, rfl, rfl⟩

theorem witness_ResetStateIsIdleAndZero :
    ({ tWith .embed (.walk [] .read) 3 with schedule := [.reset] } : State).schedule = .reset :: [] ∧
      (after (step { tWith .embed (.walk [] .read) 3 with schedule := [.reset] })).map (fun t => t.schedule) = some [] := by
  decide +kernel

theorem witness_ResetClearsRegistersKeepsMemory :
    ({ tWith .embed (.capchk []) 0 with schedule := [.reset] } : State).schedule = .reset :: [] ∧
      ({ tWith .embed (.capchk []) 0 with schedule := [.powerOn] } : State).schedule = .powerOn :: [] := by decide

theorem witness_IgnoredHostWrites :
    (∀ n ∈ [0x00, 0x08, 0x0C, 0x10],
        (tHost true (.regWrite (tPort n) 1#32)).status.busy = true ∧ (tPort n).bytes = 4 ∧
          ((tPort n).offset = 0x00#32 ∨ (tPort n).offset = 0x08#32 ∨ (tPort n).offset = 0x0C#32 ∨
            (tPort n).offset = 0x10#32)) ∧
      (∀ p ∈ [(Space.car, 271#32), (.msg, 3#32), (.out, 2#32)],
        (tHost true (.memWrite p.1 p.2 1#8)).status.busy = true ∧
          p.2.toNat < (tHost true (.memWrite p.1 p.2 1#8)).caps.size p.1) ∧
      (∀ n ∈ [0x04, 0x14, 0x3C], (tPort n).bytes = 4 ∧ (tPort n).offset.toNat % 4 = 0 ∧
        ((tPort n).offset = 0x04#32 ∨ 0x14 ≤ (tPort n).offset.toNat ∧ (tPort n).offset.toNat ≤ 0x3C)) ∧
      (after (step ((tHost false (.regWrite (tPort 0x00) 1#32)).setOvr))).map (fun t => t.status.ovr) = some false ∧
      (after (step { (tWith .embed (.capchk []) 0).setOvr with schedule := [.reset] })).map (fun t => t.status.ovr) =
        some false ∧
      (tHost false (.regWrite (tPort 0x00) 1#32)).setOvr.status.ovr = true ∧
      (tWith .embed (.capchk []) 0).setOvr.status.ovr = true := by decide +kernel

theorem witness_IdleRegisterWrites :
    ∀ n ∈ [0x08, 0x0C, 0x10], (tHost false (.regWrite (tPort n) 1#32)).status.busy = false ∧ (tPort n).bytes = 4 ∧
      (tHost false (.regWrite (tPort n) 1#32)).schedule = .host (.regWrite (tPort n) 1#32) :: [] := by decide +kernel

theorem witness_RegisterReads :
    ∀ n ∈ [0x00, 0x04, 0x08, 0x0C, 0x10, 0x14, 0x18, 0x1C, 0x20, 0x3C],
      (tPort n).bytes = 4 ∧ (tPort n).offset.toNat % 4 = 0 ∧ (tPort n).offset.toNat ≤ 0x3C ∧
        (tHost true (.regRead (tPort n))).schedule = .host (.regRead (tPort n)) :: [] := by decide +kernel

theorem witness_ProtocolViolationsRefused :
    (∀ p ∈ ([{ offset := 0x04#32, bytes := 3 }, { offset := 0x3E#32, bytes := 4 }, { offset := 0x40#32, bytes := 4 }] :
        List RegPort), (p.bytes ≠ 4 ∨ p.offset.toNat % 4 ≠ 0 ∨ 0x3C < p.offset.toNat) ∧
          (tHost false (.regRead p)).schedule = .host (.regRead p) :: [] ∧
          (tHost false (.regWrite p 1#32)).schedule = .host (.regWrite p 1#32) :: []) ∧
      (∀ q ∈ [(Space.car, 272#32), (.msg, 4#32), (.out, 3#32)],
        (tHost false (.memRead q.1 q.2)).caps.size q.1 ≤ q.2.toNat ∧
          (tHost false (.memRead q.1 q.2)).schedule = .host (.memRead q.1 q.2) :: [] ∧
          (tHost false (.memWrite q.1 q.2 0#8)).schedule = .host (.memWrite q.1 q.2 0#8) :: []) ∧
      ({ tIdle [] 0 [] with schedule := [.secondHost (.regRead (tPort 0x04))] } : State).schedule =
        .secondHost (.regRead (tPort 0x04)) :: [] := by decide

theorem witness_BusyMemoryReadReturnsSomeByte :
    (tHost true (.memRead .car 271#32)).status.busy = true ∧
      (271#32).toNat < (tHost true (.memRead .car 271#32)).caps.size .car ∧
      (tHost true (.memRead .car 271#32)).schedule = .host (.memRead .car 271#32) :: [] := by decide

theorem witness_IdleHostWriteReadsBack :
    ∀ p ∈ [(Space.car, 0#32), (.car, 271#32), (.msg, 3#32), (.out, 2#32)], (tIdle [] 0 []).status.busy = false ∧
      p.2.toNat < (tIdle [] 0 []).caps.size p.1 ∧
      ({ tIdle [] 0 [] with schedule := [.host (.memWrite p.1 p.2 0x5A#8), .host (.memRead p.1 p.2)] } : State).schedule =
        .host (.memWrite p.1 p.2 0x5A#8) :: .host (.memRead p.1 p.2) :: [] := by decide

theorem witness_UnwrittenReadsFault :
    ((tHost false (.memRead .out 2#32)).status.busy = false ∧
        (2#32).toNat < (tHost false (.memRead .out 2#32)).caps.size .out ∧
        ((tHost false (.memRead .out 2#32)).mem .out).read (2#32).toNat = none ∧
        (tHost false (.memRead .out 2#32)).schedule = .host (.memRead .out 2#32) :: []) ∧
      (tRun .check (.sniff none) [] 2 []).phase = .sniff none ∧ 2 ≤ (tRun .check (.sniff none) [] 2 []).carSize.toNat ∧
      (tRun .check (.sniff none) [] 2 []).car.read 0 = none := by decide

/-! The pure functions. -/

theorem witness_NoEarlyEofInStream :
    containsEof [0x68#8, 0x45#8, 0x4F#8] = false ∧ 5 < [0x68#8, 0x45#8, 0x4F#8].length + 3 ∧
      containsEof [] = false ∧ 2 < ([] : List Byte).length + 3 := by decide

theorem witness_PayloadBitsMsbFirst :
    0 < 8 ∧ 7 < 8 ∧ [0x80#8, 0x01#8][0]? = some 0x80#8 ∧ [0x80#8, 0x01#8][1]? = some 0x01#8 := by decide

theorem witness_CodecInverse : (toBits [0x80#8, 0x01#8]).length % 8 = 0 ∧ ([] : List Bool).length % 8 = 0 := by decide

theorem witness_ShiftInSumsWeights :
    [false, true, true, false, true, false, false, false].length = 8 * 1 ∧ ([] : List Bool).length = 8 * 0 := by decide

theorem witness_AdjustFixesParity : parity 0x01#8 = true ∧ parity 0xFF#8 ≠ false ∧ parity 0xFE#8 ≠ true := by decide

/-! Micro-steps. -/

theorem witness_DecodeChecksLengths :
    (tRun .identify .decode [] 273 []).phase = .decode ∧ ¬ (tRun .identify .decode [] 273 []).configured .identify ∧
      ¬ (tRun .embed .decode [] 272 [0#8, 0#8, 0#8, 0#8, 0#8]).configured .embed ∧
      (tRun .identify .decode [] 272 [0#8, 0#8, 0#8, 0#8, 0#8]).configured .identify ∧
      (tRun .check .decode [] 272 [0#8, 0#8, 0#8, 0#8]).configured .check := by
  refine ⟨rfl, fun h => absurd h.1 (by decide), fun h => absurd (h.2 rfl) (by decide), ⟨by decide, fun h => by cases h⟩,
    by decide, fun _ => by decide⟩

theorem witness_GateReadsFirstByte :
    (tRun .embed (.sniff none) tFull 2 []).phase = .sniff none ∧ 2 ≤ (tRun .embed (.sniff none) tFull 2 []).carSize.toNat ∧
      (tRun .embed (.sniff none) tFull 2 []).car.read 0 = some 0x42#8 := by decide

theorem witness_IdentifyFinishesWithVerdict :
    ((tRun .identify (.sniff none) [] 1 []).phase = .sniff none ∧
        (tRun .identify (.sniff none) [] 1 []).carSize.toNat < 2) ∧
      (tRun .identify (.sniff (some 0x42#8)) tFull 2 []).phase = .sniff (some 0x42#8) ∧
      (tRun .identify (.sniff (some 0x42#8)) tFull 2 []).car.read 1 = some 0x4D#8 := by decide

theorem witness_GateAdmitsSupportedCarriers :
    Instr.extract ≠ .identify ∧
      ((tRun .extract (.sniff none) [] 1 []).phase = .sniff none ∧
        (tRun .extract (.sniff none) [] 1 []).carSize.toNat < 2) ∧
      ((tRun .extract (.sniff (some 0x4D#8)) tFull 2 []).car.read 1 = some 0x4D#8 ∧
        sniff 0x4D#8 0x4D#8 (tRun .extract (.sniff (some 0x4D#8)) tFull 2 []).carSize.toNat false = .unsupported) ∧
      (tRun .extract (.sniff (some 0x42#8)) tFull 2 []).car.read 1 = some 0x4D#8 ∧
        sniff 0x42#8 0x4D#8 (tRun .extract (.sniff (some 0x42#8)) tFull 2 []).carSize.toNat false ≠ .unsupported := by
  decide

/-- Reading the fourth byte of a message of four; the messages "EOF" and "EO" read whole. -/
theorem witness_ValidateRejectsEof :
    readsMessage .embed = true ∧
      (let s := tRun .embed (.validate [0x78#8, 0x45#8, 0x4F#8]) [] 248 [0x78#8, 0x45#8, 0x4F#8, 0x46#8];
        s.phase = .validate [0x78#8, 0x45#8, 0x4F#8] ∧ 3 < s.msgLen.toNat ∧ 3 < s.caps.msgCap ∧
          s.msg.read 3 = some 0x46#8) ∧
      ((tRun .check (.validate eof) [] 248 eof).msgLen.toNat ≤ eof.length ∧ containsEof eof = true) ∧
      (tRun .check (.validate [0x45#8, 0x4F#8]) [] 248 [0x45#8, 0x4F#8]).msgLen.toNat ≤ [0x45#8, 0x4F#8].length ∧
      containsEof [0x45#8, 0x4F#8] = false := by decide

theorem witness_EmbedChecksCapacity :
    (tRun .embed (.capchk []) [] 247 []).phase = .capchk [] ∧
      (tRun .embed (.capchk []) [] 247 []).carSize.toNat < 200 + 8 * ((tRun .embed (.capchk []) [] 247 []).msgLen.toNat + 6) ∧
      200 + 8 * ((tRun .embed (.capchk []) [] 248 []).msgLen.toNat + 6) ≤ (tRun .embed (.capchk []) [] 248 []).carSize.toNat := by
  decide

/-- On the full carrier every parity is right; a state whose carrier byte 201 is 0x00 has a wrong one at bit 1. The first and
the last bit of a payload, and the message's first and last, 24 and 31. -/
theorem witness_EmbedWalkReads :
    ((tWith .embed (.walk [] .read) 0).Inv ∧ (tWith .embed (.walk [] .read) 0).phase = .walk [] .read ∧
        (tWith .embed (.walk [] .read) 0).car.read (200 + 0) = some 0x00#8 ∧ (payloadBits [])[0]? = some false ∧
        parity 0x00#8 = false ∧ 0 + 1 < (tWith .embed (.walk [] .read) 0).nBits) ∧
      ((tWith .embed (.walk [] .read) 47).Inv ∧ (tWith .embed (.walk [] .read) 47).car.read (200 + 47) = some 0x00#8 ∧
        (payloadBits [])[47]? = some false ∧ 47 + 1 = (tWith .embed (.walk [] .read) 47).nBits) ∧
      ((tMsg .embed (.walk [0x68#8] .read) 24).Inv ∧ (tMsg .embed (.walk [0x68#8] .read) 24).phase = .walk [0x68#8] .read ∧
        (tMsg .embed (.walk [0x68#8] .read) 24).car.read (200 + 24) = some 0x00#8 ∧
        (payloadBits [0x68#8])[24]? = some false ∧ 24 + 1 < (tMsg .embed (.walk [0x68#8] .read) 24).nBits) ∧
      ((tMsg .embed (.walk [0x68#8] .read) 31).Inv ∧
        (tMsg .embed (.walk [0x68#8] .read) 31).car.read (200 + 31) = some 0x00#8 ∧
        (payloadBits [0x68#8])[31]? = some false) ∧
      ({ tWith .embed (.walk [] .read) 1 with car := Memory.write tFull 201 0x00#8 } : State).Inv ∧
      (Memory.write tFull 201 0x00#8).read (200 + 1) = some 0x00#8 ∧ (payloadBits [])[1]? = some true ∧
      parity 0x00#8 ≠ true := by
  refine ⟨⟨tWith_walk 0 (by omega) .read trivial, rfl, rfl, rfl, rfl, by decide⟩,
    ⟨tWith_walk 47 (by omega) .read trivial, rfl, rfl, rfl⟩,
    ⟨tMsg_walk 24 (by omega) .read trivial, rfl, rfl, rfl, by decide⟩, ⟨tMsg_walk 31 (by omega) .read trivial, rfl, rfl⟩,
    ?_, rfl, rfl, by decide⟩
  have h := tWith_walk 1 (by omega) .read trivial
  refine inv_of ⟨write_wf _ _ _ tFull_ok.1, write_below _ _ _ _ (by decide) tFull_ok.2⟩ ⟨rfl, rfl⟩ ⟨rfl, rfl⟩
    (by simp [tWith, tRun]) ?_ rfl (by simp [tWith, statusAccepted]) ⟨rfl, rfl⟩
  exact ⟨rfl, h.phaseOk.2.1, no_message _ rfl, rfl, by decide, by decide, trivial⟩

theorem witness_EmbedWalkWrites :
    ((tWith .embed (.walk [] (.write 0x00#8 0x01#8)) 0).Inv ∧
        0 + 1 < (tWith .embed (.walk [] (.write 0x00#8 0x01#8)) 0).nBits) ∧
      (tWith .embed (.walk [] (.write 0x00#8 0x01#8)) 47).Inv ∧
      47 + 1 = (tWith .embed (.walk [] (.write 0x00#8 0x01#8)) 47).nBits ∧
      (tWith .embed (.walk [] (.write 0x00#8 0x01#8)) 47).phase = .walk [] (.write 0x00#8 0x01#8) :=
  ⟨⟨tWith_walk 0 (by omega) _ ⟨rfl, rfl, rfl⟩, by decide⟩, tWith_walk 47 (by omega) _ ⟨rfl, rfl, rfl⟩, rfl, rfl⟩

theorem witness_CheckGivesCapacityVerdict :
    (tRun .check (.capchk []) [] 247 []).phase = .capchk [] ∧
      (tRun .check (.capchk []) [] 247 []).carSize.toNat < 200 + 8 * ((tRun .check (.capchk []) [] 247 []).msgLen.toNat + 6) ∧
      200 + 8 * ((tRun .check (.capchk []) [] 248 []).msgLen.toNat + 6) ≤ (tRun .check (.capchk []) [] 248 []).carSize.toNat := by
  decide

/-- The first and the last bit of the payload, and the message's first bit, 24. -/
theorem witness_CheckComparesParities :
    ((tWith .check (.probe [] .start) 0).Inv ∧ decode (tWith .check (.probe [] .start) 0).opl = .ok .check ∧
        (tWith .check (.probe [] .start) 0).phase = .probe [] .start ∧
        (tWith .check (.probe [] .start) 0).car.read (200 + 0) = some 0x00#8 ∧ (payloadBits [])[0]? = some false ∧
        0 + 1 < (tWith .check (.probe [] .start) 0).nBits) ∧
      ((tMsg .check (.probe [0x68#8] .read) 24).Inv ∧ decode (tMsg .check (.probe [0x68#8] .read) 24).opl = .ok .check ∧
        (tMsg .check (.probe [0x68#8] .read) 24).phase = .probe [0x68#8] .read ∧
        (tMsg .check (.probe [0x68#8] .read) 24).car.read (200 + 24) = some 0x00#8 ∧
        (payloadBits [0x68#8])[24]? = some false ∧ 24 + 1 < (tMsg .check (.probe [0x68#8] .read) 24).nBits) ∧
      (tWith .check (.probe [] .read) 47).Inv ∧ (tWith .check (.probe [] .read) 47).car.read (200 + 47) = some 0x00#8 ∧
      (payloadBits [])[47]? = some false ∧ 47 + 1 = (tWith .check (.probe [] .read) 47).nBits :=
  ⟨⟨tWith_check 0 (by omega) .start rfl, rfl, rfl, rfl, rfl, by decide⟩,
    ⟨tMsg_check 24 (by omega) .read trivial, rfl, rfl, rfl, rfl, by decide⟩,
    tWith_check 47 (by omega) .read trivial, rfl, rfl, rfl⟩

/-- A carrier of 223 bytes; the first probe read; the last one, with and without a mismatch before it. -/
theorem witness_ExtractProbesForBof :
    (({ tWith .extract (.probe [] .start) 0 with carSize := 223#32 } : State).Inv ∧
        ({ tWith .extract (.probe [] .start) 0 with carSize := 223#32 } : State).carSize.toNat < 224) ∧
      ((tWith .extract (.probe [] .start) 5).Inv ∧ decode (tWith .extract (.probe [] .start) 5).opl = .ok .extract ∧
        (tWith .extract (.probe [] .start) 5).phase = .probe [] .start ∧
        (tWith .extract (.probe [] .start) 5).car.read (200 + 0) = some 0x00#8 ∧ (toBits bof)[0]? = some false ∧ 0 + 1 < 24) ∧
      ((tWith .extract (.probe [] .read) 23).Inv ∧ 224 ≤ (tWith .extract (.probe [] .read) 23).carSize.toNat ∧
        (tWith .extract (.probe [] .read) 23).car.read (200 + 23) = some 0x00#8 ∧ (toBits bof)[23]? = some false ∧
        (tWith .extract (.probe [] .read) 23).eq = false ∧ 23 + 1 = 24) ∧
      ({ tWith .extract (.probe [] .read) 23 with eq := true } : State).Inv ∧
      ({ tWith .extract (.probe [] .read) 23 with eq := true } : State).eq = true ∧ parity 0x00#8 = false := by
  refine ⟨⟨?_, by decide⟩, ⟨tWith_extract 5 (by omega) .start, rfl, rfl, rfl, rfl, by omega⟩,
    ⟨tWith_extract 23 (by omega) .read, by decide, rfl, rfl, rfl, rfl⟩, ?_, rfl, rfl⟩
  · refine inv_of tFull_ok ⟨rfl, rfl⟩ ⟨rfl, rfl⟩ (by simp [tWith, tRun]) ?_ rfl (by simp [tWith, statusAccepted]) ⟨rfl, rfl⟩
    exact .inr ⟨rfl, ⟨Nat.le_of_ble_eq_true rfl, fun _ => Nat.le_of_ble_eq_true rfl⟩, rfl, trivial⟩
  · exact inv_of tFull_ok ⟨rfl, rfl⟩ ⟨rfl, rfl⟩ (by simp [tWith, tRun]) (tWith_extract 23 (by omega) .read).phaseOk rfl
      (by simp [tWith, statusAccepted]) ⟨rfl, rfl⟩

/-- The chunk that would start at the carrier's end, and the first and last byte of the last chunk. -/
theorem witness_ExtractReadsChunk :
    ((tScan 0 3 0#8 0#24).Inv ∧ (tScan 0 3 0#8 0#24).phase = .scan 0 ∧
        (tScan 0 3 0#8 0#24).carSize.toNat < (tScan 0 3 0#8 0#24).pos.toNat + 8) ∧
      ((tScan 0 2 0#8 0#24).Inv ∧ (tScan 0 2 0#8 0#24).pos.toNat + 8 ≤ (tScan 0 2 0#8 0#24).carSize.toNat ∧
        (tScan 0 2 0#8 0#24).car.read ((tScan 0 2 0#8 0#24).pos.toNat + 0) = some 0x00#8) ∧
      (tScan 7 2 0x23#8 0x454F#24).Inv ∧
      (tScan 7 2 0x23#8 0x454F#24).car.read ((tScan 7 2 0x23#8 0x454F#24).pos.toNat + 7) = some 0x00#8 := by
  exact ⟨⟨tScan_inv 0 3 _ _ (by omega) (by omega) (by omega), rfl, by decide⟩,
    ⟨tScan_inv 0 2 _ _ (by omega) (by omega) (by omega), by decide, by decide +kernel⟩,
    tScan_inv 7 2 _ _ (by omega) (by omega) (by omega), by decide +kernel⟩

/-- `OUT` full (a carrier of 256 bytes whose fourth chunk has been read), the "F" of "EOF", and the "O" before it. -/
theorem witness_ExtractStoresCharacter :
    (({ tScan 8 3 0x4F#8 0#24 with carSize := 256#32 } : State).Inv ∧
        ({ tScan 8 3 0x4F#8 0#24 with carSize := 256#32 } : State).caps.outCap ≤
          ({ tScan 8 3 0x4F#8 0#24 with carSize := 256#32 } : State).k.toNat) ∧
      ((tScan 8 2 0x46#8 0x454F#24).Inv ∧ (tScan 8 2 0x46#8 0x454F#24).phase = .scan 8 ∧
        (tScan 8 2 0x46#8 0x454F#24).k.toNat < (tScan 8 2 0x46#8 0x454F#24).caps.outCap ∧
        (0x454F46#24).toNat = ((tScan 8 2 0x46#8 0x454F#24).tail.toNat * 256 + (tScan 8 2 0x46#8 0x454F#24).acc.toNat) % 2 ^ 24 ∧
        2 ≤ (tScan 8 2 0x46#8 0x454F#24).k.toNat) ∧
      (tScan 8 1 0x4F#8 0x45#24).Inv ∧ (tScan 8 1 0x4F#8 0x45#24).k.toNat < (tScan 8 1 0x4F#8 0x45#24).caps.outCap ∧
      ¬ 2 ≤ (tScan 8 1 0x4F#8 0x45#24).k.toNat := by
  refine ⟨⟨?_, by decide⟩, ⟨tScan_inv 8 2 _ _ (by omega) (by omega) (by omega), rfl, by decide, by decide, by decide⟩,
    tScan_inv 8 1 _ _ (by omega) (by omega) (by omega), by decide, by decide⟩
  refine inv_of tFull_ok ⟨rfl, rfl⟩ ⟨rfl, rfl⟩ (by simp [tScan, tRun]) ?_ rfl (fun _ => decode_encode _) ⟨rfl, rfl⟩
  exact ⟨rfl, ⟨Nat.le_of_ble_eq_true rfl, fun h => by cases h⟩, by decide, rfl, rfl, by decide, fun _ => by decide, by decide⟩

/-! Frames: a micro-step of each command that answers a next state, and EMBED's and EXTRACT's storing ones. -/

theorem witness_IdentifyFrame : (after (exec .identify (tWith .identify (.sniff none) 0))).isSome = true := by decide

theorem witness_EmbedFrame :
    (after (exec .embed (tWith .embed (.walk [] (.write 0x00#8 0x01#8)) 0))).isSome = true ∧
      (tWith .embed (.walk [] (.write 0x00#8 0x01#8)) 0).phase = .walk [] (.write 0x00#8 0x01#8) ∧
      (after (exec .embed (tWith .embed (.capchk []) 0))).isSome = true := by decide

theorem witness_CheckFrame :
    (after (exec .check (tWith .check (.capchk []) 0))).isSome = true ∧
      (after (exec .check (tWith .check .decode 0))).isSome = true ∧ ∀ m, (tWith .check .decode 0).phase ≠ .capchk m :=
  ⟨by decide, by decide, fun _ h => by cases h⟩

theorem witness_ExtractFrame :
    (after (exec .extract (tScan 8 1 0x4F#8 0x45#24))).isSome = true ∧ (tScan 8 1 0x4F#8 0x45#24).phase = .scan 8 ∧
      (after (exec .extract (tScan 0 2 0x4F#8 0x45#24))).isSome = true ∧ (tScan 0 2 0x4F#8 0x45#24).phase = .scan 0 := by
  decide +kernel

/-! Rules of the whole machine. -/

/-- An idle block with memories in canonical form meets the invariant. -/
theorem inv_idle {s : State} (hc : s.car.wf = true ∧ s.car.below s.caps.carCap = true)
    (hm : s.msg.wf = true ∧ s.msg.below s.caps.msgCap = true) (ho : s.out.wf = true ∧ s.out.below s.caps.outCap = true)
    (hp : s.phase = .idle) (hs : s.status = .zero) (hz : s.maxChars = 0#32 ∧ s.outLen = 0#32) : s.Inv := by
  refine ⟨fun sp => ?_, fun sp => ?_, ?_, by rw [State.phaseOk, hp]; trivial, ?_⟩
  · cases sp
    · exact hc.1
    · exact hm.1
    · exact ho.1
  · cases sp
    · exact hc.2
    · exact hm.2
    · exact ho.2
  · rw [hs, hp]; exact ⟨fun h => (by cases h), fun h => absurd rfl h⟩
  · refine ⟨?_, ?_, ?_, ?_, ?_, fun h => absurd hz.1 h, fun h => absurd hz.2 h⟩ <;> rw [hs] <;> simp [Status.zero]

/-- The idle block on the full carrier, the empty message set. -/
theorem tIdle_inv : (tIdle tFull 248 []).Inv :=
  inv_idle tFull_ok ⟨rfl, rfl⟩ ⟨rfl, rfl⟩ rfl rfl ⟨rfl, rfl⟩

theorem witness_EveryStepKeepsInv :
    (tWith .embed (.walk [] .read) 47).Inv ∧ (after (step (tWith .embed (.walk [] .read) 47))).isSome = true :=
  ⟨tWith_walk 47 (by omega) .read trivial, by decide +kernel⟩

theorem witness_OnlyUnwrittenBytesFault :
    (tHost false (.memRead .out 2#32)).Inv ∧ step (tHost false (.memRead .out 2#32)) = .fault (.unwritten .out 2) :=
  ⟨inv_idle ⟨rfl, rfl⟩ ⟨rfl, rfl⟩ ⟨rfl, rfl⟩ rfl rfl ⟨rfl, rfl⟩, by rfl⟩

theorem witness_EngineWritesOnlyWhereItMay :
    (tWith .embed (.walk [] (.write 0x00#8 0x01#8)) 0).Inv ∧
      (after (exec .embed (tWith .embed (.walk [] (.write 0x00#8 0x01#8)) 0))).isSome = true ∧
      decode (tWith .embed (.walk [] (.write 0x00#8 0x01#8)) 0).opl = .ok .embed ∧
      (tScan 8 1 0x4F#8 0x45#24).Inv ∧ (after (exec .extract (tScan 8 1 0x4F#8 0x45#24))).isSome = true ∧
      decode (tScan 8 1 0x4F#8 0x45#24).opl = .ok .extract ∧ Instr.extract ≠ .embed ∧
      ((tWith .embed (.walk [] .read) 0).withMems (tFull.write 201 0xFF#8) [] []).car.read 200 = tFull.read 200 :=
  ⟨witness_EmbedWalkWrites.1.1, by decide +kernel, rfl, tScan_inv 8 1 _ _ (by omega) (by omega) (by omega), by decide +kernel,
    rfl, by decide, by decide +kernel⟩

/-- The full carrier, with byte 200 changed from 0x00 to 0xFE and byte 199 written. -/
theorem witness_OnlyParitiesMatter :
    Instr.check ≠ .embed ∧ (tIdle tFull 248 []).Inv ∧ (tIdle tFull 248 []).schedule = [] ∧
      (∀ a, a < 2 → ((tFull.write 200 0xFE#8).write 199 0x11#8).read a = (tIdle tFull 248 []).car.read a) ∧
      ∀ a, 200 ≤ a → (((tFull.write 200 0xFE#8).write 199 0x11#8).read a).map parity =
        ((tIdle tFull 248 []).car.read a).map parity := by
  refine ⟨by decide, tIdle_inv, rfl, fun a h => ?_, fun a h => ?_⟩
  · rw [read_write_other _ _ _ _ (by omega), read_write_other _ _ _ _ (by omega)]; rfl
  · rw [read_write_other _ _ _ _ (by omega)]
    by_cases ha : a = 200
    · rw [ha, read_write_same]; rfl
    · rw [read_write_other _ _ _ _ ha]; rfl

theorem witness_EveryCommandEnds :
    (tIdle tFull 248 []).Inv ∧ (tIdle tFull 248 []).status.busy = false ∧ (tIdle tFull 248 []).schedule = [] :=
  ⟨tIdle_inv, rfl, rfl⟩

/-! Whole commands, on the carrier of 248 bytes that the empty message just fits. -/

theorem tIdle_ready (car : Memory) (n : Nat) (m : List Byte) (hn : n ≤ 272) (hm : m.length ≤ 4) (i : Instr) :
    (tIdle car n m).ready i := by
  refine ⟨rfl, rfl, ?_, fun _ => ?_⟩
  · show (BitVec.ofNat 32 n).toNat ≤ 272
    simp; omega
  · show (BitVec.ofNat 32 m.length).toNat ≤ 4
    simp; omega

theorem tCarrier_sniffs (bs : List Byte) (n : Nat) (m : List Byte) (h : 2 ≤ n) (hn : n ≤ 272) :
    (tIdle (tCarrier bs) n m).sniffs .bmp := by
  have hs : (BitVec.ofNat 32 n).toNat = n := by simp; omega
  refine .inr ⟨by show 2 ≤ (BitVec.ofNat 32 n).toNat; omega, 0x42#8, 0x4D#8, rfl, rfl, ?_⟩
  show Format.bmp = sniff 0x42#8 0x4D#8 (BitVec.ofNat 32 n).toNat false
  rw [hs]
  have : ¬ n < 2 := by omega
  simp [sniff, this]

theorem tFull_carries : tFull.carries 200 (payloadBits []) := carries_of (by decide +kernel)

theorem tFull_written : tFull.written 200 48 := written_of (by decide +kernel)

/-- An all-zero carrier of 248 bytes. -/
def tZero : Memory := tCarrier (List.replicate 48 0x00#8)

theorem tZero_written : tZero.written 200 48 := written_of (by decide +kernel)

theorem witness_IdentifyReportsFormat : (tIdle tFull 2 []).ready .identify ∧ (tIdle tFull 2 []).sniffs .bmp ∧
    (tIdle [] 1 []).ready .identify ∧ (tIdle [] 1 []).sniffs .unsupported :=
  ⟨tIdle_ready _ _ _ (by decide) (by decide) _, tCarrier_sniffs _ _ _ (by decide) (by decide),
    tIdle_ready _ _ _ (by decide) (by decide) _, .inl ⟨by decide, rfl⟩⟩

/-- The message bytes of a small test message. -/
theorem tIdle_messageIs (car : Memory) (n : Nat) (m : List Byte)
    (h : m.length < 5 ∧ ∀ i, i < m.length → (cells 0 m).read (0 + i) = m[i]?) : (tIdle car n m).messageIs m := by
  refine ⟨?_, h.2⟩
  show m.length = (BitVec.ofNat 32 m.length).toNat
  simp; omega

/-- V-EMBED: the all-zero carrier of 264 bytes, which "hi" just fits. -/
theorem witness_EmbedWritesPayload :
    let s := tIdle (tCarrier (List.replicate 64 0x00#8)) 264 [0x68#8, 0x69#8]
    s.ready .embed ∧ s.sniffs .bmp ∧ Format.bmp ≠ .unsupported ∧ s.messageIs [0x68#8, 0x69#8] ∧
      containsEof [0x68#8, 0x69#8] = false ∧ 200 + 8 * ([0x68#8, 0x69#8].length + 6) ≤ s.carSize.toNat ∧
      s.car.written 200 (8 * ([0x68#8, 0x69#8].length + 6)) :=
  ⟨tIdle_ready _ _ _ (by decide) (by decide) _, tCarrier_sniffs _ _ _ (by decide) (by decide), by decide,
    tIdle_messageIs _ _ _ (by decide), by decide, by decide, written_of (by decide +kernel)⟩

theorem witness_EmbedTwiceChangesNothing :
    (tIdle tFull 248 []).ready .embed ∧ (tIdle tFull 248 []).sniffs .bmp ∧ Format.bmp ≠ .unsupported ∧
      (tIdle tFull 248 []).messageIs [] ∧ containsEof [] = false ∧
      200 + 8 * (([] : List Byte).length + 6) ≤ (tIdle tFull 248 []).carSize.toNat ∧
      (tIdle tFull 248 []).car.carries 200 (payloadBits []) :=
  ⟨tIdle_ready _ _ _ (by decide) (by decide) _, tCarrier_sniffs _ _ _ (by decide) (by decide), by decide, no_message _ rfl, rfl,
    by decide, tFull_carries⟩

/-- One state for each error of the rule, in its order, and one without error. -/
theorem witness_EmbedErrorPriority :
    ((tIdle [] 273 []).status.busy = false ∧ (tIdle [] 273 []).schedule = [] ∧ ¬ (tIdle [] 273 []).configured .embed ∧
        ¬ 200 + 8 * ((List.replicate 10 0x78#8).length + 6) ≤ (tIdle [] 273 []).carSize.toNat) ∧
      ((tIdle [] 1 [0x78#8, 0x45#8, 0x4F#8, 0x46#8]).configured .embed ∧
        (tIdle [] 1 [0x78#8, 0x45#8, 0x4F#8, 0x46#8]).sniffs .unsupported ∧
        (tIdle [] 1 [0x78#8, 0x45#8, 0x4F#8, 0x46#8]).messageIs [0x78#8, 0x45#8, 0x4F#8, 0x46#8]) ∧
      ((tIdle tFull 10 eof).configured .embed ∧ (tIdle tFull 10 eof).sniffs .bmp ∧ (tIdle tFull 10 eof).messageIs eof ∧
        containsEof eof = true ∧ ¬ 200 + 8 * (eof.length + 6) ≤ (tIdle tFull 10 eof).carSize.toNat) ∧
      ((tIdle tFull 247 []).configured .embed ∧ (tIdle tFull 247 []).sniffs .bmp ∧ (tIdle tFull 247 []).messageIs [] ∧
        containsEof [] = false ∧ (tIdle tFull 247 []).carSize.toNat < 200 + 8 * (([] : List Byte).length + 6)) ∧
      (tIdle tZero 248 []).configured .embed ∧ (tIdle tZero 248 []).sniffs .bmp ∧ (tIdle tZero 248 []).messageIs [] ∧
      (tIdle tZero 248 []).car.written 200 (8 * (([] : List Byte).length + 6)) :=
  ⟨⟨rfl, rfl, fun h => absurd h.1 (by decide), by decide⟩,
    ⟨(tIdle_ready _ _ _ (by decide) (by decide) _).2.2, .inl ⟨by decide, rfl⟩, tIdle_messageIs _ _ _ (by decide)⟩,
    ⟨(tIdle_ready _ _ _ (by decide) (by decide) _).2.2, tCarrier_sniffs _ _ _ (by decide) (by decide),
      tIdle_messageIs _ _ _ (by decide), by decide, by decide⟩,
    ⟨(tIdle_ready _ _ _ (by decide) (by decide) _).2.2, tCarrier_sniffs _ _ _ (by decide) (by decide), no_message _ rfl, rfl,
      by decide⟩,
    (tIdle_ready _ _ _ (by decide) (by decide) _).2.2, tCarrier_sniffs _ _ _ (by decide) (by decide), no_message _ rfl,
    tZero_written⟩

/-- `CAR_SIZE = CAR_CAP + 1` makes EMBED fail in one step. -/
theorem witness_FailedEmbedLeavesCarrier :
    (tIdle tFull 273 []).schedule = [] ∧
      (after (stepN 1 ((tIdle tFull 273 []).accept (encode .embed)))).map
        (fun t => (t.status.busy, t.status.done, t.phase, t.status.err)) = some (false, true, .idle, .badConfig) := by
  decide +kernel

/-- EMBED on the full carrier stands in its walk after 5 steps. -/
theorem witness_ResetLeavesEmbeddedPrefix :
    (tIdle tFull 248 []).ready .embed ∧ (tIdle tFull 248 []).messageIs [] ∧
      (after (stepN 5 ((tIdle tFull 248 []).accept (encode .embed)))).map (fun t => t.phase) = some (.walk [] .read) ∧
      (after (step { tWith .embed (.walk [] .read) 0 with schedule := [.reset] })).isSome = true :=
  ⟨tIdle_ready _ _ _ (by decide) (by decide) _, no_message _ rfl, by decide +kernel, by decide⟩

theorem witness_CheckReportsPresence :
    (tIdle tFull 248 []).ready .check ∧ (tIdle tFull 248 []).sniffs .bmp ∧ Format.bmp ≠ .unsupported ∧
      (tIdle tFull 248 []).messageIs [] ∧ containsEof [] = false ∧
      (tIdle tFull 248 []).car.written 200 (8 * (([] : List Byte).length + 6)) ∧
      (tIdle tFull 247 []).sniffs .bmp ∧ ¬ 200 + 8 * (([] : List Byte).length + 6) ≤ (tIdle tFull 247 []).carSize.toNat :=
  ⟨tIdle_ready _ _ _ (by decide) (by decide) _, tCarrier_sniffs _ _ _ (by decide) (by decide), by decide, no_message _ rfl, rfl,
    tFull_written, tCarrier_sniffs _ _ _ (by decide) (by decide), by decide⟩

theorem witness_CarrierHoldsOneMessage :
    containsEof [] = false ∧ tFull.carries 200 (payloadBits []) := ⟨rfl, tFull_carries⟩

theorem witness_ExtractShortCarrier :
    (tIdle tFull 223 []).ready .extract ∧ (tIdle tFull 223 []).sniffs .bmp ∧ Format.bmp ≠ .unsupported ∧
      (tIdle tFull 223 []).carSize.toNat < 224 :=
  ⟨tIdle_ready _ _ _ (by decide) (by decide) _, tCarrier_sniffs _ _ _ (by decide) (by decide), by decide, by decide⟩

/-- S5: 24 parities that are all 0. -/
theorem witness_ExtractWithoutBof :
    (tIdle tZero 224 []).ready .extract ∧ (tIdle tZero 224 []).sniffs .bmp ∧ Format.bmp ≠ .unsupported ∧
      224 ≤ (tIdle tZero 224 []).carSize.toNat ∧ (tIdle tZero 224 []).car.carries 200 (List.replicate 24 false) ∧
      (List.replicate 24 false).length = 24 ∧ List.replicate 24 false ≠ toBits bof :=
  ⟨tIdle_ready _ _ _ (by decide) (by decide) _, tCarrier_sniffs _ _ _ (by decide) (by decide), by decide, by decide,
    carries_of (by decide +kernel), by decide, by decide⟩

/-- The empty message, with the least `OUT_CAP` that holds its "EOF". -/
theorem witness_ExtractDecodesToFirstEof :
    (tIdle tFull 248 []).ready .extract ∧ (tIdle tFull 248 []).sniffs .bmp ∧ Format.bmp ≠ .unsupported ∧
      (tIdle tFull 248 []).car.carries 200 (toBits (bof ++ [] ++ eof)) ∧
      200 + 8 * (([] : List Byte).length + 6) ≤ (tIdle tFull 248 []).carSize.toNat ∧
      (∀ n, n < ([] : List Byte).length + 3 → containsEof (([] ++ eof).take n) = false) ∧
      ([] : List Byte).length + 3 ≤ (tIdle tFull 248 []).caps.outCap :=
  ⟨tIdle_ready _ _ _ (by decide) (by decide) _, tCarrier_sniffs _ _ _ (by decide) (by decide), by decide, tFull_carries, by decide,
    by decide, by decide⟩

/-- A carrier that ends before its "F", and one that ends right after "BOF" and a part of a chunk. -/
theorem witness_ExtractUnterminated :
    (tIdle tFull 247 []).ready .extract ∧ (tIdle tFull 247 []).sniffs .bmp ∧ Format.bmp ≠ .unsupported ∧
      (tIdle tFull 247 []).car.carries 200 (toBits (bof ++ [0x45#8, 0x4F#8])) ∧
      200 + 8 * ([0x45#8, 0x4F#8].length + 3) ≤ (tIdle tFull 247 []).carSize.toNat ∧
      (tIdle tFull 247 []).carSize.toNat < 200 + 8 * ([0x45#8, 0x4F#8].length + 4) ∧
      containsEof [0x45#8, 0x4F#8] = false ∧ [0x45#8, 0x4F#8].length ≤ (tIdle tFull 247 []).caps.outCap ∧
      (tIdle tFull 231 []).car.carries 200 (toBits (bof ++ [])) :=
  ⟨tIdle_ready _ _ _ (by decide) (by decide) _, tCarrier_sniffs _ _ _ (by decide) (by decide), by decide,
    carries_of (by decide +kernel), by decide, by decide, by decide, by decide, carries_of (by decide +kernel)⟩

/-- Four characters that are not "EOF", with `OUT_CAP = 3`. -/
def tLong : Memory := tCarrier (tBytes (toBits bof ++ List.replicate 32 false))

theorem witness_ExtractOverflows :
    (tIdle tLong 256 []).ready .extract ∧ (tIdle tLong 256 []).sniffs .bmp ∧ Format.bmp ≠ .unsupported ∧
      (tIdle tLong 256 []).car.carries 200 (toBits (bof ++ [0#8, 0#8, 0#8, 0#8])) ∧
      200 + 8 * ([0#8, 0#8, 0#8, 0#8].length + 3) ≤ (tIdle tLong 256 []).carSize.toNat ∧
      [0#8, 0#8, 0#8, 0#8].length = (tIdle tLong 256 []).caps.outCap + 1 ∧
      containsEof ([0#8, 0#8, 0#8, 0#8].take (tIdle tLong 256 []).caps.outCap) = false :=
  ⟨tIdle_ready _ _ _ (by decide) (by decide) _, tCarrier_sniffs _ _ _ (by decide) (by decide), by decide,
    carries_of (by decide +kernel), by decide, by decide, by decide⟩

theorem witness_RoundTrip :
    (tIdle tZero 248 []).ready .embed ∧ (tIdle tZero 248 []).sniffs .bmp ∧ Format.bmp ≠ .unsupported ∧
      (tIdle tZero 248 []).messageIs [] ∧ containsEof [] = false ∧
      200 + 8 * (([] : List Byte).length + 6) ≤ (tIdle tZero 248 []).carSize.toNat ∧
      (tIdle tZero 248 []).car.written 200 (8 * (([] : List Byte).length + 6)) ∧
      ([] : List Byte).length + 3 ≤ (tIdle tZero 248 []).caps.outCap :=
  ⟨tIdle_ready _ _ _ (by decide) (by decide) _, tCarrier_sniffs _ _ _ (by decide) (by decide), by decide, no_message _ rfl, rfl,
    by decide, tZero_written, by decide⟩

theorem witness_HiddenFieldsDoNotLeak : (tIdle tFull 248 []).schedule = [] := rfl

end Sys2Proof.Tests
end

/-! PROOFS. Which byte a micro-step accesses (10_state R40, 20_memory R62). A micro-step that accesses none commutes with
replacing the memories; one that reads a byte does so on memories that hold the same there; one that writes a byte puts
the same value there whatever the memories are. -/

namespace Sys2Proof.Machine

/-! ### Operations that access no memory -/

/-- The answer with the memories of its state, if it has one, replaced. -/
def replaceMems (c m o : Memory) : Result → Result
  | .next t => .next (t.withMems c m o)
  | .fault p => .fault p
  | .refused q => .refused q

@[simp] theorem replaceMems_next (c m o : Memory) (t : State) :
    replaceMems c m o (.next t) = .next (t.withMems c m o) := rfl

/-- Two states with the same memories substituted hold the same in each space. -/
theorem withMems_mem_eq (s t : State) (c m o : Memory) (sp : Space) :
    (s.withMems c m o).mem sp = (t.withMems c m o).mem sp := by
  cases sp <;> rfl

/-- The operation reads and writes no memory: it commutes with replacing the memories. -/
def IgnoresMems (f : State → Result) : Prop :=
  ∀ s c m o, f (s.withMems c m o) = replaceMems c m o (f s)

/-- The operation, from `s`, reads at most the byte at `a` of `sp` and writes none: on memories that hold the same at that
byte it commutes with replacing them. -/
def ReadsOnly (f : State → Result) (s : State) (sp : Space) (a : Nat) : Prop :=
  ∀ c m o, ((s.withMems c m o).mem sp).read a = (s.mem sp).read a →
    f (s.withMems c m o) = replaceMems c m o (f s)

theorem IgnoresMems.readsOnly {f : State → Result} (hf : IgnoresMems f) (s : State) (sp : Space) (a : Nat) :
    ReadsOnly f s sp a := fun c m o _ => hf s c m o

/-- An operation that writes no byte leaves every memory as it was: replacing the memories by themselves is no change. -/
theorem ReadsOnly.mem_eq {f : State → Result} {s t : State} {sp : Space} {a : Nat} (hf : ReadsOnly f s sp a)
    (h : f s = .next t) (sp' : Space) : t.mem sp' = s.mem sp' := by
  have hs : f s = replaceMems s.car s.msg s.out (f s) := hf s.car s.msg s.out rfl
  rw [h, replaceMems_next, Host.Outcome.next.injEq] at hs
  rw [hs]
  exact withMems_mem_eq t s s.car s.msg s.out sp'

theorem IgnoresMems.mem_eq {f : State → Result} {s t : State} (hf : IgnoresMems f) (h : f s = .next t) (sp : Space) :
    t.mem sp = s.mem sp := (hf.readsOnly s .car 0).mem_eq h sp

/-- What an operation reads depends only on what it does in the phase it starts in. -/
theorem ReadsOnly.of_phase {f g : State → Result} {s : State} {sp : Space} {a : Nat}
    (hfg : ∀ u : State, u.phase = s.phase → f u = g u) (hg : ReadsOnly g s sp a) : ReadsOnly f s sp a := by
  intro c m o h
  rw [hfg (s.withMems c m o) rfl, hfg s rfl]
  exact hg c m o h

/-- An operation that ignores the memories, at two states that differ in them alone. -/
theorem IgnoresMems.apply_eq {f : State → Result} {s u : State} {c m o : Memory} (hf : IgnoresMems f)
    (hu : u = s.withMems c m o) : f u = replaceMems c m o (f s) := hu ▸ hf s c m o

theorem noMicroStep_ignoresMems : IgnoresMems noMicroStep := fun _ _ _ _ => rfl
theorem finish_ignoresMems : IgnoresMems finish := fun _ _ _ _ => rfl
theorem endPhase_ignoresMems : IgnoresMems endPhase := fun _ _ _ _ => rfl

/-- A choice that both states make alike, between operations that commute with replacing the memories. -/
theorem ite_replaceMems {p : Prop} [Decidable p] {c m o : Memory} {r₁ r₂ u₁ u₂ : Result}
    (h₁ : p → u₁ = replaceMems c m o r₁) (h₂ : ¬ p → u₂ = replaceMems c m o r₂) :
    (if p then u₁ else u₂) = replaceMems c m o (if p then r₁ else r₂) := by
  split
  · exact h₁ ‹_›
  · exact h₂ ‹_›

theorem decodeStep_ignoresMems (readsMsg : Bool) : IgnoresMems (decodeStep readsMsg) :=
  fun _ _ _ _ => ite_replaceMems (fun _ => rfl) fun _ => ite_replaceMems (fun _ => rfl) fun _ => rfl

theorem gateThen_ignoresMems (next : Phase) : IgnoresMems (gateThen next) :=
  fun _ _ _ _ => ite_replaceMems (fun _ => rfl) fun _ => rfl

theorem embedCapchk_ignoresMems (msg : List Byte) : IgnoresMems (embedCapchk msg) :=
  fun _ _ _ _ => ite_replaceMems (fun _ => rfl) fun _ => rfl

theorem checkCapchk_ignoresMems (msg : List Byte) : IgnoresMems (checkCapchk msg) :=
  fun _ _ _ _ => ite_replaceMems (fun _ => rfl) fun _ => rfl

theorem walkLoop_ignoresMems (msg : List Byte) : IgnoresMems (walkLoop msg) :=
  fun _ _ _ _ => ite_replaceMems (fun _ => rfl) fun _ => rfl

theorem checkLoop_ignoresMems (msg : List Byte) : IgnoresMems (checkLoop msg) :=
  fun _ _ _ _ => ite_replaceMems (fun _ => rfl) fun _ => rfl

theorem bofLoop_ignoresMems : IgnoresMems bofLoop :=
  fun _ _ _ _ => ite_replaceMems (fun _ => rfl) fun _ => ite_replaceMems (fun _ => rfl) fun _ => rfl

theorem walkAdjust_ignoresMems (msg : List Byte) (b : Byte) (want : Bool) : IgnoresMems (walkAdjust msg b want) :=
  fun _ _ _ _ => ite_replaceMems (fun _ => rfl) fun _ => (walkLoop_ignoresMems msg).apply_eq rfl

/-- A payload bit comes from `PHASE` and the registers (log entry 5), so it accesses no memory. -/
theorem payloadBit_withMems {msg : List Byte} {j : Nat} {s : State} {c m o : Memory} {next next' : Bool → Result}
    (hn : ∀ w, next' w = replaceMems c m o (next w)) :
    payloadBit msg j (s.withMems c m o) next' = replaceMems c m o (payloadBit msg j s next) := by
  refine ite_replaceMems (fun _ => hn _) fun _ => ite_replaceMems (fun _ => ?_) fun _ => hn _
  cases msg[j / 8 - 3]? with
  | none => rfl
  | some b => exact hn _

/-! ### Operations that read one byte -/

/-- A read of a byte that both memories hold alike, and after which no memory is accessed. -/
theorem memRead_withMems {sp : Space} {a : Nat} {s : State} {c m o : Memory} {next next' : Byte → Result}
    (h : ((s.withMems c m o).mem sp).read a = (s.mem sp).read a) (hn : ∀ b, next' b = replaceMems c m o (next b)) :
    memRead sp a (s.withMems c m o) next' = replaceMems c m o (memRead sp a s next) := by
  unfold memRead
  rw [h]
  refine ite_replaceMems (fun _ => ?_) fun _ => rfl
  cases (s.mem sp).read a with
  | none => rfl
  | some b => exact hn b

/-- The gate reads `CAR[0]` first and `CAR[1]` after it (40_sniffer R102). -/
theorem sniffGate_readsOnly {verdict : State → Result} (hv : IgnoresMems verdict) (b0 : Option Byte) (s : State) :
    ReadsOnly (sniffGate b0 · verdict) s .car (if b0 = none then 0 else 1) := by
  intro c m o h
  cases b0 with
  | none => exact ite_replaceMems (fun _ => memRead_withMems h fun _ => rfl) fun _ => hv.apply_eq rfl
  | some b => exact memRead_withMems h fun _ => hv.apply_eq rfl

theorem validateStep_readsOnly (msg : List Byte) (s : State) : ReadsOnly (validateStep msg) s .msg msg.length :=
  fun _ _ _ h => ite_replaceMems (fun _ => memRead_withMems h fun _ => rfl) fun _ =>
    ite_replaceMems (fun _ => rfl) fun _ => rfl

theorem walkRead_readsOnly (msg : List Byte) (s : State) : ReadsOnly (walkRead msg) s .car (hdr + s.j.toNat) :=
  fun _ _ _ h => memRead_withMems h fun b =>
    payloadBit_withMems (s := { s with pos := BitVec.ofNat 32 (hdr + s.j.toNat) }) fun want =>
      (walkAdjust_ignoresMems msg b want).apply_eq rfl

theorem checkProbe_readsOnly (msg : List Byte) (s : State) : ReadsOnly (checkProbe msg) s .car (hdr + s.j.toNat) :=
  fun _ _ _ h => memRead_withMems h fun _ => payloadBit_withMems fun _ =>
    (checkLoop_ignoresMems msg).apply_eq rfl

theorem checkProbeFirst_readsOnly (msg : List Byte) (s : State) :
    ReadsOnly (fun u => checkProbe msg { u with eq := true }) s .car (hdr + s.j.toNat) :=
  checkProbe_readsOnly msg { s with eq := true }

theorem bofProbe_readsOnly (s : State) : ReadsOnly bofProbe s .car (hdr + s.j.toNat) :=
  fun _ _ _ h => memRead_withMems h fun _ => bofLoop_ignoresMems.apply_eq rfl

theorem bofStart_readsOnly (s : State) : ReadsOnly bofStart s .car hdr :=
  fun c m o h => ite_replaceMems (fun _ => rfl) fun _ => bofProbe_readsOnly { s with eq := true, j := 0#32 } c m o h

theorem scanByte_readsOnly (k : Nat) (s : State) : ReadsOnly (scanByte k) s .car (s.pos.toNat + k) :=
  fun _ _ _ h => memRead_withMems h fun _ => rfl

theorem scanHead_readsOnly (s : State) : ReadsOnly scanHead s .car s.pos.toNat :=
  fun c m o h => ite_replaceMems (fun _ => rfl) fun _ => scanByte_readsOnly 0 { s with acc := 0#8 } c m o h

/-- Inside a chunk the scan reads the chunk's next byte (43_engine R160). -/
theorem scanStep_readsOnly {k : Nat} (hk : k < chunk) (s : State) :
    ReadsOnly (scanStep k) s .car (s.pos.toNat + k) := by
  intro c m o h
  unfold scanStep
  rw [if_pos hk, if_pos hk]
  refine ite_replaceMems (fun h0 => ?_) fun _ => scanByte_readsOnly k s c m o h
  subst h0
  exact scanHead_readsOnly s c m o h

/-! ### Operations that write one byte -/

/-- The operation, from `s`, accesses at most the byte at `a` of `sp`: on memories that hold the same there it answers the
same but for the memories, it leaves the same there, and it changes no other byte. -/
structure AccessesOnly (f : State → Result) (s : State) (sp : Space) (a : Nat) : Prop where
  answersAlike : ∀ c m o, ((s.withMems c m o).mem sp).read a = (s.mem sp).read a →
    ∃ c' m' o', f (s.withMems c m o) = replaceMems c' m' o' (f s) ∧
      ∀ t, f s = .next t → ((t.withMems c' m' o').mem sp).read a = (t.mem sp).read a
  changesNoOther : ∀ t, f s = .next t → ∀ sp' x, (sp' ≠ sp ∨ x ≠ a) → (t.mem sp').read x = (s.mem sp').read x

theorem ReadsOnly.accessesOnly {f : State → Result} {s : State} {sp : Space} {a : Nat} (hf : ReadsOnly f s sp a) :
    AccessesOnly f s sp a where
  answersAlike c m o h := by
    refine ⟨c, m, o, hf c m o h, fun t ht => ?_⟩
    rw [withMems_mem_eq t s, h, hf.mem_eq ht]
  changesNoOther t ht sp' x _ := by rw [hf.mem_eq ht]

theorem AccessesOnly.of_phase {f g : State → Result} {s : State} {sp : Space} {a : Nat}
    (hfg : ∀ u : State, u.phase = s.phase → f u = g u) (hg : AccessesOnly g s sp a) : AccessesOnly f s sp a := by
  refine ⟨fun c m o h => ?_, fun t ht => hg.changesNoOther t (hfg s rfl ▸ ht)⟩
  rw [hfg (s.withMems c m o) rfl, hfg s rfl]
  exact hg.answersAlike c m o h

/-- A write after which no memory is accessed leaves the memories as the write does. -/
theorem memWrite_mem {sp : Space} {a : Nat} {v : Byte} {s t : State} {next : State → Result} (hn : IgnoresMems next)
    (h : memWrite sp a v s next = .next t) (sp' : Space) :
    t.mem sp' = if sp' = sp then (s.mem sp).write a v else s.mem sp' := by
  rw [hn.mem_eq (memWrite_next h).2, mem_setMem]

/-- Replacing the memories and then writing is writing and then replacing the memories by the written ones. -/
theorem setMem_withMems (s : State) (c m o : Memory) (sp : Space) (x y : Memory) :
    ∃ c' m' o', (s.withMems c m o).setMem sp x = (s.setMem sp y).withMems c' m' o' := by
  cases sp <;> exact ⟨_, _, _, rfl⟩

/-- A write of one value at one byte, after which no memory is accessed, accesses that byte only. -/
theorem accessesOnly_of_memWrite {f : State → Result} {s : State} {sp : Space} {a : Nat} {v : Byte}
    {next : State → Result} (hn : IgnoresMems next)
    (hf : ∀ c m o, f (s.withMems c m o) = memWrite sp a v (s.withMems c m o) next) : AccessesOnly f s sp a := by
  have hs : f s = memWrite sp a v s next := hf s.car s.msg s.out
  refine ⟨fun c m o _ => ?_, fun t ht sp' x hx => ?_⟩
  · obtain ⟨c', m', o', he⟩ := setMem_withMems s c m o sp (((s.withMems c m o).mem sp).write a v) ((s.mem sp).write a v)
    have hfw : f (s.withMems c m o) = replaceMems c' m' o' (f s) := by
      rw [hf, hs]
      unfold memWrite
      rw [withMems_caps, he, hn]
      split <;> rfl
    refine ⟨c', m', o', hfw, fun t ht => ?_⟩
    have htw : memWrite sp a v (s.withMems c m o) next = .next (t.withMems c' m' o') := by
      rw [← hf, hfw, ht, replaceMems_next]
    rw [memWrite_mem hn htw, memWrite_mem hn (hs.symm.trans ht), if_pos rfl, if_pos rfl, read_write_same, read_write_same]
  · rw [memWrite_mem hn (hs.symm.trans ht)]
    split
    · next hsp =>
      subst hsp
      exact read_write_other _ _ _ _ (hx.resolve_left fun h => h rfl)
    · rfl

/-- What the walk's write micro-step does once the byte is written (43_engine R143). -/
def afterWalkWrite (msg : List Byte) (b : Byte) (s : State) : Result :=
  walkLoop msg { s.noteWrap b with j := s.j + 1#32 }

theorem walkWrite_eq (msg : List Byte) (b b2 : Byte) (s : State) :
    walkWrite msg b b2 s = memWrite .car (hdr + s.j.toNat) b2 s (afterWalkWrite msg b) := rfl

theorem afterWalkWrite_ignoresMems (msg : List Byte) (b : Byte) : IgnoresMems (afterWalkWrite msg b) :=
  fun _ _ _ _ => (walkLoop_ignoresMems msg).apply_eq rfl

theorem walkWrite_accessesOnly (msg : List Byte) (b b2 : Byte) (s : State) :
    AccessesOnly (walkWrite msg b b2) s .car (hdr + s.j.toNat) :=
  accessesOnly_of_memWrite (afterWalkWrite_ignoresMems msg b) fun _ _ _ => walkWrite_eq msg b b2 _

/-- The walk's write changes the byte at `HDR + J` of the carrier and no other memory (43_engine R144). -/
theorem walkWrite_mem {msg : List Byte} {b b2 : Byte} {s t : State} (h : walkWrite msg b b2 s = .next t) (sp : Space) :
    t.mem sp = if sp = .car then s.car.write (hdr + s.j.toNat) b2 else s.mem sp :=
  memWrite_mem (afterWalkWrite_ignoresMems msg b) h sp

/-- What the scan's store does once the character is written (43_engine R160, R162). -/
def afterScanStore (s : State) : Result :=
  let s := { s with
    tail := s.tail * 256#24 + s.acc.setWidth 24, k := s.k + 1#32, pos := s.pos + BitVec.ofNat 32 chunk,
    phase := .scan 0 }
  if sawEof s then finish { s with outLen := s.k - 3#32 } else .next s

theorem scanStore_eq (s : State) : scanStore s =
    if s.caps.outCap ≤ s.k.toNat then raise .outputOverflow s.pos s
    else memWrite .out s.k.toNat s.acc s afterScanStore := rfl

theorem afterScanStore_ignoresMems : IgnoresMems afterScanStore :=
  fun _ _ _ _ => ite_replaceMems (fun _ => rfl) fun _ => rfl

theorem scanStore_accessesOnly (s : State) : AccessesOnly scanStore s .out s.k.toNat := by
  by_cases hk : s.caps.outCap ≤ s.k.toNat
  · have hr : ReadsOnly scanStore s .out s.k.toNat := by
      intro c m o _
      rw [scanStore_eq, scanStore_eq, if_pos hk]
      exact if_pos hk
    exact hr.accessesOnly
  · exact accessesOnly_of_memWrite afterScanStore_ignoresMems fun _ _ _ => (scanStore_eq _).trans (if_neg hk)

/-- The scan's store changes no memory but `OUT`. -/
theorem scanStore_mem {s t : State} (h : scanStore s = .next t) {sp : Space} (hsp : sp ≠ .out) : t.mem sp = s.mem sp := by
  rw [scanStore_eq] at h
  split at h
  · rw [raise_eq, Host.Outcome.next.injEq] at h
    subst h
    cases sp <;> rfl
  · rw [memWrite_mem afterScanStore_ignoresMems h, if_neg hsp]

theorem scanStep_store {k : Nat} (hk : ¬ k < chunk) (s : State) : scanStep k s = scanStore s := by
  have h0 : k ≠ 0 := by rintro rfl; exact hk (by decide)
  rw [scanStep, if_neg h0, if_neg hk]

/-! ### The commands -/

/-- From `s`, the command's micro-step reads at most one byte and writes none. -/
def ReadsOneByte (i : Instr) (s : State) : Prop := ∃ sp a, ReadsOnly (exec i) s sp a

/-- In a phase where the micro-step is an operation that reads at most one byte, so does the command. -/
theorem readsOneByte_of_phase {i : Instr} {g : State → Result} {s : State} {ph : Phase} {sp : Space} {a : Nat}
    (hp : s.phase = ph) (hfg : ∀ {u : State}, u.phase = ph → exec i u = g u) (hg : ReadsOnly g s sp a) :
    ReadsOneByte i s :=
  ⟨sp, a, .of_phase (fun _ hu => hfg (hu.trans hp)) hg⟩

/-- In a phase where the micro-step accesses no memory, the command reads no byte. -/
theorem readsOneByte_of_ignoresMems {i : Instr} {g : State → Result} {s : State} {ph : Phase}
    (hp : s.phase = ph) (hfg : ∀ {u : State}, u.phase = ph → exec i u = g u) (hg : IgnoresMems g) :
    ReadsOneByte i s :=
  readsOneByte_of_phase hp hfg (hg.readsOnly s .car 0)

theorem exec_endCmd {i : Instr} {s : State} (hp : s.phase = .endCmd) : exec i s = endPhase s := by
  cases i <;> simp only [exec, execIdentify, execEmbed, execCheck, execExtract, hp]

/-- IDENTIFY reads at most one byte and writes none (40_sniffer R102, R103). -/
theorem identify_readsOneByte (s : State) : ReadsOneByte .identify s := by
  cases hp : s.phase with
  | decode => exact readsOneByte_of_ignoresMems hp exec_identify_decode (decodeStep_ignoresMems false)
  | sniff b0 => exact readsOneByte_of_phase hp exec_identify_sniff (sniffGate_readsOnly finish_ignoresMems b0 s)
  | endCmd => exact readsOneByte_of_ignoresMems hp exec_endCmd endPhase_ignoresMems
  | _ =>
    refine readsOneByte_of_ignoresMems hp (fun hu => ?_) noMicroStep_ignoresMems
    simp only [exec, execIdentify, hu]

/-- CHECK reads at most one byte and writes none (43_engine R150, R152). -/
theorem check_readsOneByte (s : State) : ReadsOneByte .check s := by
  cases hp : s.phase with
  | decode => exact readsOneByte_of_ignoresMems hp exec_check_decode (decodeStep_ignoresMems true)
  | sniff b0 =>
    exact readsOneByte_of_phase hp exec_check_sniff (sniffGate_readsOnly (gateThen_ignoresMems _) b0 s)
  | validate msg => exact readsOneByte_of_phase hp exec_check_validate (validateStep_readsOnly msg s)
  | capchk msg => exact readsOneByte_of_ignoresMems hp exec_check_capchk (checkCapchk_ignoresMems msg)
  | probe msg next =>
    cases next with
    | start =>
      exact readsOneByte_of_phase hp exec_check_probeFirst (checkProbeFirst_readsOnly msg s)
    | read => exact readsOneByte_of_phase hp exec_check_probeNext (checkProbe_readsOnly msg s)
  | endCmd => exact readsOneByte_of_ignoresMems hp exec_endCmd endPhase_ignoresMems
  | _ =>
    refine readsOneByte_of_ignoresMems hp (fun hu => ?_) noMicroStep_ignoresMems
    simp only [exec, execCheck, hu]

/-- EMBED reads at most one byte and writes none, but in the walk's write (43_engine R142, R143). -/
theorem embed_readsOneByte_or_writes (s : State) :
    ReadsOneByte .embed s ∨ ∃ msg b b2, s.phase = .walk msg (.write b b2) := by
  cases hp : s.phase with
  | decode => exact .inl (readsOneByte_of_ignoresMems hp exec_embed_decode (decodeStep_ignoresMems true))
  | sniff b0 =>
    exact .inl (readsOneByte_of_phase hp exec_embed_sniff (sniffGate_readsOnly (gateThen_ignoresMems _) b0 s))
  | validate msg => exact .inl (readsOneByte_of_phase hp exec_embed_validate (validateStep_readsOnly msg s))
  | capchk msg => exact .inl (readsOneByte_of_ignoresMems hp exec_embed_capchk (embedCapchk_ignoresMems msg))
  | walk msg next =>
    cases next with
    | read => exact .inl (readsOneByte_of_phase hp exec_embed_walkRead (walkRead_readsOnly msg s))
    | write b b2 => exact .inr ⟨msg, b, b2, rfl⟩
  | endCmd => exact .inl (readsOneByte_of_ignoresMems hp exec_endCmd endPhase_ignoresMems)
  | _ =>
    refine .inl (readsOneByte_of_ignoresMems hp (fun hu => ?_) noMicroStep_ignoresMems)
    simp only [exec, execEmbed, hu]

/-- EXTRACT reads at most one byte and writes none, but where it stores a character (43_engine R155, R160). -/
theorem extract_readsOneByte_or_stores (s : State) :
    ReadsOneByte .extract s ∨ ∃ k, s.phase = .scan k ∧ ¬ k < chunk := by
  cases hp : s.phase with
  | decode => exact .inl (readsOneByte_of_ignoresMems hp exec_extract_decode (decodeStep_ignoresMems false))
  | sniff b0 =>
    exact .inl (readsOneByte_of_phase hp exec_extract_sniff (sniffGate_readsOnly (gateThen_ignoresMems _) b0 s))
  | probe msg next =>
    cases next with
    | start => exact .inl (readsOneByte_of_phase hp exec_extract_probeFirst (bofStart_readsOnly s))
    | read => exact .inl (readsOneByte_of_phase hp exec_extract_probeNext (bofProbe_readsOnly s))
  | scan k =>
    by_cases hk : k < chunk
    · exact .inl (readsOneByte_of_phase hp exec_extract_scan (scanStep_readsOnly hk s))
    · exact .inr ⟨k, rfl, hk⟩
  | endCmd => exact .inl (readsOneByte_of_ignoresMems hp exec_endCmd endPhase_ignoresMems)
  | _ =>
    refine .inl (readsOneByte_of_ignoresMems hp (fun hu => ?_) noMicroStep_ignoresMems)
    simp only [exec, execExtract, hu]

theorem exec_extract_store {s : State} {k : Nat} (hp : s.phase = .scan k) (hk : ¬ k < chunk) :
    exec .extract s = scanStore s := (exec_extract_scan hp).trans (scanStep_store hk s)

/-- What a micro-step does with the memories: it reads at most one byte and writes none, or it is the walk's write of
EMBED, or the scan's store of EXTRACT. -/
theorem exec_accesses_cases (i : Instr) (s : State) :
    ReadsOneByte i s ∨ (i = .embed ∧ ∃ msg b b2, s.phase = .walk msg (.write b b2)) ∨
      (i = .extract ∧ ∃ k, s.phase = .scan k ∧ ¬ k < chunk) := by
  cases i with
  | identify => exact .inl (identify_readsOneByte s)
  | embed => exact (embed_readsOneByte_or_writes s).imp_right fun h => .inl ⟨rfl, h⟩
  | check => exact .inl (check_readsOneByte s)
  | extract => exact (extract_readsOneByte_or_stores s).imp_right fun h => .inr ⟨rfl, h⟩

/-- A micro-step accesses at most one byte of one memory (10_state R40, 20_memory R62). -/
theorem exec_accessesOnly (i : Instr) (s : State) : ∃ sp a, AccessesOnly (exec i) s sp a := by
  obtain ⟨sp, a, h⟩ | ⟨rfl, msg, b, b2, hp⟩ | ⟨rfl, k, hp, hk⟩ := exec_accesses_cases i s
  · exact ⟨sp, a, h.accessesOnly⟩
  · exact ⟨_, _, .of_phase (fun _ hu => exec_embed_walkWrite (hu.trans hp)) (walkWrite_accessesOnly msg b b2 s)⟩
  · exact ⟨_, _, .of_phase (fun _ hu => exec_extract_store (hu.trans hp) hk) (scanStore_accessesOnly s)⟩

/-- Under the invariant the walk writes between `HDR` and `CAR_SIZE` (43_engine R142, R143). -/
theorem walk_write_bounds {s : State} {msg : List Byte} {next : WalkStep} (hs : s.Inv) (hp : s.phase = .walk msg next) :
    hdr + s.j.toNat < s.carSize.toNat := by
  have hok := hs.phaseOk
  simp only [State.phaseOk, hp] at hok
  obtain ⟨-, -, -, -, hfits, hj, -⟩ := hok
  omega

/-- Under the invariant a micro-step writes the carrier only from 200 up to `CAR_SIZE`. -/
theorem exec_carrier_outside {s t : State} {i : Instr} (hs : s.Inv) (h : exec i s = .next t) {a : Nat}
    (ha : a < 200 ∨ s.carSize.toNat ≤ a) : t.car.read a = s.car.read a := by
  obtain ⟨sp, x, hr⟩ | ⟨rfl, msg, b, b2, hp⟩ | ⟨rfl, k, hp, hk⟩ := exec_accesses_cases i s
  · exact congrArg (Memory.read · a) (hr.mem_eq h .car)
  · have hb := walk_write_bounds hs hp
    have hne : a ≠ hdr + s.j.toNat := by unfold hdr at *; omega
    exact (walkWrite_accessesOnly msg b b2 s).changesNoOther t (exec_embed_walkWrite hp ▸ h) .car a (.inr hne)
  · exact congrArg (Memory.read · a) (scanStore_mem (exec_extract_store hp hk ▸ h) (sp := .car) (by decide))

/-- Which memories a micro-step leaves alone: all, but `CAR` under EMBED and `OUT` under EXTRACT (20_memory R52, R53). -/
theorem exec_mem_eq {s t : State} {i : Instr} (h : exec i s = .next t) {sp : Space} (hcar : sp = .car → i ≠ .embed)
    (hout : sp = .out → i ≠ .extract) : t.mem sp = s.mem sp := by
  obtain ⟨_, _, hr⟩ | ⟨rfl, msg, b, b2, hp⟩ | ⟨rfl, k, hp, hk⟩ := exec_accesses_cases i s
  · exact hr.mem_eq h sp
  · rw [walkWrite_mem (exec_embed_walkWrite hp ▸ h), if_neg fun hc => hcar hc rfl]
  · exact scanStore_mem (exec_extract_store hp hk ▸ h) fun ho => hout ho rfl

/-- Settles O43: the engine's writes by the cases of `exec_accesses_cases`, the bounds from the invariant's walk phase. -/
theorem engineWritesOnlyWhereItMay : Obligations.EngineWritesOnlyWhereItMay := by
  refine ⟨fun s t i hs h _ => ⟨fun a ha => exec_carrier_outside hs h ha, fun hi => ?_, ?_, fun hi => ?_⟩, fun s i => ?_⟩
  · exact exec_mem_eq h (sp := .car) (fun _ => hi) nofun
  · exact exec_mem_eq h (sp := .msg) nofun nofun
  · exact exec_mem_eq h (sp := .out) nofun (fun _ => hi)
  · obtain ⟨sp, a, hacc⟩ := exec_accessesOnly i s
    refine ⟨sp, a, fun c m o hcmo => ?_, hacc.changesNoOther⟩
    obtain ⟨c', m', o', hu, hread⟩ := hacc.answersAlike c m o hcmo
    rw [hu]
    cases ht : exec i s with
    | next t => exact ⟨rfl, hread t ht⟩
    | fault p => rfl
    | refused q => rfl

end Sys2Proof.Machine

/-! PROOFS. What one turn does (10_state R30, R31, 60_exceptions R191, R192): the engine's and the host's turns
through the register map, and the statements about the registers. -/

namespace Sys2Proof.Machine

/-! ### The engine's turn and the host's register accesses -/

@[simp] theorem takeTurn_engine (s : State) : takeTurn .engine s = engineTurn s := rfl
@[simp] theorem takeTurn_host (a : HostAccess) (s : State) : takeTurn (.host a) s = hostAccess a s := rfl

theorem engineTurn_idle {s : State} (hb : s.status.busy = false) : engineTurn s = .next s := by
  simp [engineTurn, hb]

theorem engineTurn_command {s : State} {i : Instr} (hb : s.status.busy = true) (hd : decode s.opl = .ok i) :
    engineTurn s = exec i s := by
  simp [engineTurn, hb, hd]

theorem engineTurn_illegal {s : State} {e : Reject} (hb : s.status.busy = true) (hd : decode s.opl = .error e) :
    engineTurn s = illegalCommand s := by
  simp [engineTurn, hb, hd]

theorem regPort_wellFormed_iff (p : RegPort) :
    p.wellFormed = true ↔ p.bytes = 4 ∧ p.offset.toNat % 4 = 0 ∧ p.offset.toNat ≤ 0x3C := by
  simp [RegPort.wellFormed, and_assoc]

/-- A step whose turn is a whole aligned register write. -/
theorem step_regWrite {s : State} {rest : List Turn} {p : RegPort} {v : Word} (hp : p.wellFormed = true)
    (hs : s.schedule = .host (.regWrite p v) :: rest) :
    step s = .next ({ s with schedule := rest }.writeReg (regAt p.offset.toNat) v) := by
  rw [step_turn hs, takeTurn_host, hostAccess_regWrite v hp]

/-- A step whose turn is a whole aligned register read. -/
theorem step_regRead {s : State} {rest : List Turn} {p : RegPort} (hp : p.wellFormed = true)
    (hs : s.schedule = .host (.regRead p) :: rest) :
    step s = .next { s with schedule := rest, hostGot := .word (s.readReg (regAt p.offset.toNat)) } := by
  rw [step_turn hs, takeTurn_host, hostAccess_regRead hp]
  cases regAt p.offset.toNat <;> rfl

theorem writeReg_cmd_idle {s : State} (hb : s.status.busy = false) (w : Word) : s.writeReg .cmd w = s.accept w := by
  simp [State.writeReg, hb]

theorem writeReg_cfg_idle {s : State} (hb : s.status.busy = false) (v : Word) :
    s.writeReg .cfg v = { s with strict := strictOfWord v } := by
  simp [State.writeReg, hb]

theorem writeReg_carSize_idle {s : State} (hb : s.status.busy = false) (v : Word) :
    s.writeReg .carSize v = { s with carSize := v } := by
  simp [State.writeReg, hb]

theorem writeReg_msgLen_idle {s : State} (hb : s.status.busy = false) (v : Word) :
    s.writeReg .msgLen v = { s with msgLen := v } := by
  simp [State.writeReg, hb]

/-- Settles O3: the engine's turn, taken from the schedule or by default, is `exec` while busy, nothing while idle. -/
theorem stepRunsLatchedCommand : Obligations.StepRunsLatchedCommand := by
  refine ⟨fun s i hb hd => ⟨fun hs => step_command hs hb hd, fun rest hs => ?_⟩,
    fun s hb => ⟨fun hs => step_idle hs hb, fun rest hs => ?_⟩⟩
  · rw [step_turn hs, takeTurn_engine]
    exact engineTurn_command hb hd
  · rw [step_turn hs, takeTurn_engine]
    exact engineTurn_idle hb

/-- Settles O4: the write is to `CMD`, so the state after it is `State.accept`. -/
theorem acceptanceLatchesAndClears : Obligations.AcceptanceLatchesAndClears := by
  intro s w rest hb hs
  refine ⟨{ s with schedule := rest }.accept w, ?_, rfl⟩
  rw [step_regWrite (by decide) hs]
  exact congrArg _ (writeReg_cmd_idle (s := { s with schedule := rest }) hb w)

/-- Settles O9: each offset names its register, which an idle block writes. -/
theorem idleRegisterWrites : Obligations.IdleRegisterWrites := by
  intro s rest p v hb hbytes hs
  have hidle : { s with schedule := rest }.status.busy = false := hb
  have hstep (hmod : p.offset.toNat % 4 = 0) (hle : p.offset.toNat ≤ 0x3C) :=
    step_regWrite ((regPort_wellFormed_iff p).mpr ⟨hbytes, hmod, hle⟩) hs
  refine ⟨fun ho => ?_, fun ho => ?_, fun ho => ?_⟩ <;> rw [hstep (by rw [ho]; decide) (by rw [ho]; decide), ho]
  · exact congrArg _ (writeReg_cfg_idle hidle v)
  · exact congrArg _ (writeReg_carSize_idle hidle v)
  · exact congrArg _ (writeReg_msgLen_idle hidle v)

/-- The offsets from 0x20 up name no register. -/
theorem regAt_reserved {a : Nat} (h : 0x20 ≤ a) : regAt a = .reserved := by
  unfold regAt
  repeat rw [if_neg (by omega)]

/-- Settles O10: the read answers `readReg` of the register at the offset. -/
theorem registerReads : Obligations.RegisterReads := by
  intro s rest p hbytes hmod hle hs
  refine ⟨_, step_regRead ((regPort_wellFormed_iff p).mpr ⟨hbytes, hmod, hle⟩) hs, ?_⟩
  refine ⟨?_, ?_, ?_, ?_, ?_, ?_, ?_, ?_, fun ho => by rw [regAt_reserved ho]; rfl⟩
  all_goals
    intro ho
    rw [ho]
    rfl

/-! ### The words of `STATUS` and `CFG` -/

theorem formatCode_ne_three (f : Format) : formatCode f ≠ 3#2 := by cases f <;> decide

theorem errorCode_le_seven (e : ErrCode) : (errorCode e).toNat ≤ 7 := by cases e <;> decide

theorem statusWord_extractLsb'_fmt (f : Status) : (statusWord f).extractLsb' 4 2 = formatCode f.fmt := by
  change BitVec.extractLsb' (n := 20 + 4 + 1 + 1 + 2 + 1 + 1 + 1 + 1) 4 2 (_ ++ _) = _
  simp (disch := decide) only [BitVec.extractLsb'_append_eq_of_le, BitVec.extractLsb'_append_eq_of_add_le,
    Nat.reduceSub, BitVec.extractLsb'_eq_self]

theorem statusWord_extractLsb'_err (f : Status) : (statusWord f).extractLsb' 8 4 = errorCode f.err := by
  change BitVec.extractLsb' (n := 20 + 4 + 1 + 1 + 2 + 1 + 1 + 1 + 1) 8 4 (_ ++ _) = _
  simp (disch := decide) only [BitVec.extractLsb'_append_eq_of_le, BitVec.extractLsb'_append_eq_of_add_le,
    Nat.reduceSub, BitVec.extractLsb'_eq_self]

theorem statusWord_extractLsb'_reserved (f : Status) : (statusWord f).extractLsb' 12 20 = 0#20 := by
  change BitVec.extractLsb' (n := 20 + 4 + 1 + 1 + 2 + 1 + 1 + 1 + 1) 12 20 (_ ++ _) = _
  simp (disch := decide) only [BitVec.extractLsb'_append_eq_of_le, Nat.reduceSub, BitVec.extractLsb'_eq_self]

/-- Settles O11: each part of the word is read off the widths of the fields below it. -/
theorem statusWordLayout : Obligations.StatusWordLayout := by
  refine ⟨fun f => ?_, fun b => ⟨?_, ?_⟩, by decide, rfl, rfl, rfl⟩
  · rw [statusWord_extractLsb'_fmt, statusWord_extractLsb'_err, statusWord_extractLsb'_reserved]
    simp only [statusWord, bit1, BitVec.getLsbD_append]
    simp [formatCode_ne_three, errorCode_le_seven]
  · simp only [cfgWord, bit1, BitVec.getLsbD_append]
    simp
  · change BitVec.extractLsb' (n := 31 + 1) 1 31 (_ ++ _) = _
    simp (disch := decide) only [BitVec.extractLsb'_append_eq_of_le, Nat.reduceSub, BitVec.extractLsb'_eq_self]

end Sys2Proof.Machine

/-! PROOFS. Which operation each micro-step is (43_engine R140), once for every command and phase. -/

namespace Sys2Proof.Machine

/-- How the gate goes on for each command once it has the verdict (40_sniffer R102, R103). -/
def gateVerdict : Instr → State → Result
  | .identify => finish
  | .embed => gateThen (.validate [])
  | .check => gateThen (.validate [])
  | .extract => gateThen (.probe [] .start)

/-- `MicroOp i ph f`: in phase `ph` the micro-step of command `i` is the operation `f` (43_engine R140). -/
inductive MicroOp : Instr → Phase → (State → Result) → Prop
  | decode (i) : MicroOp i .decode (decodeStep (readsMessage i))
  | sniff (i b0) : MicroOp i (.sniff b0) (sniffGate b0 · (gateVerdict i))
  | validate (i m) (hi : readsMessage i = true) : MicroOp i (.validate m) (validateStep m)
  | embedCapchk (m) : MicroOp .embed (.capchk m) (embedCapchk m)
  | walkRead (m) : MicroOp .embed (.walk m .read) (walkRead m)
  | walkWrite (m b b2) : MicroOp .embed (.walk m (.write b b2)) (walkWrite m b b2)
  | checkCapchk (m) : MicroOp .check (.capchk m) (checkCapchk m)
  | checkStart (m) : MicroOp .check (.probe m .start) (fun s => checkProbe m { s with eq := true })
  | checkRead (m) : MicroOp .check (.probe m .read) (checkProbe m)
  | bofStart (m) : MicroOp .extract (.probe m .start) bofStart
  | bofRead (m) : MicroOp .extract (.probe m .read) bofProbe
  | scan (k) : MicroOp .extract (.scan k) (scanStep k)
  | endCmd (i) : MicroOp i .endCmd endPhase
  | none (i ph) : MicroOp i ph noMicroStep

theorem exec_identify_microOp (ph : Phase) :
    ∃ f, MicroOp .identify ph f ∧ ∀ s : State, s.phase = ph → exec .identify s = f s := by
  cases ph with
  | decode => exact ⟨_, .decode _, fun _ => exec_identify_decode⟩
  | sniff b0 => exact ⟨_, .sniff _ b0, fun _ => exec_identify_sniff⟩
  | endCmd => exact ⟨_, .endCmd _, fun _ => exec_endCmd⟩
  | _ => exact ⟨_, .none _ _, fun _ hp => by simp only [exec, execIdentify, hp]⟩

theorem exec_embed_microOp (ph : Phase) :
    ∃ f, MicroOp .embed ph f ∧ ∀ s : State, s.phase = ph → exec .embed s = f s := by
  cases ph with
  | decode => exact ⟨_, .decode _, fun _ => exec_embed_decode⟩
  | sniff b0 => exact ⟨_, .sniff _ b0, fun _ => exec_embed_sniff⟩
  | validate m => exact ⟨_, .validate _ m rfl, fun _ => exec_embed_validate⟩
  | capchk m => exact ⟨_, .embedCapchk m, fun _ => exec_embed_capchk⟩
  | walk m next =>
    cases next with
    | read => exact ⟨_, .walkRead m, fun _ => exec_embed_walkRead⟩
    | write b b2 => exact ⟨_, .walkWrite m b b2, fun _ => exec_embed_walkWrite⟩
  | endCmd => exact ⟨_, .endCmd _, fun _ => exec_endCmd⟩
  | _ => exact ⟨_, .none _ _, fun _ hp => by simp only [exec, execEmbed, hp]⟩

theorem exec_check_microOp (ph : Phase) :
    ∃ f, MicroOp .check ph f ∧ ∀ s : State, s.phase = ph → exec .check s = f s := by
  cases ph with
  | decode => exact ⟨_, .decode _, fun _ => exec_check_decode⟩
  | sniff b0 => exact ⟨_, .sniff _ b0, fun _ => exec_check_sniff⟩
  | validate m => exact ⟨_, .validate _ m rfl, fun _ => exec_check_validate⟩
  | capchk m => exact ⟨_, .checkCapchk m, fun _ => exec_check_capchk⟩
  | probe m next =>
    cases next with
    | start => exact ⟨_, .checkStart m, fun _ => exec_check_probeFirst⟩
    | read => exact ⟨_, .checkRead m, fun _ => exec_check_probeNext⟩
  | endCmd => exact ⟨_, .endCmd _, fun _ => exec_endCmd⟩
  | _ => exact ⟨_, .none _ _, fun _ hp => by simp only [exec, execCheck, hp]⟩

theorem exec_extract_microOp (ph : Phase) :
    ∃ f, MicroOp .extract ph f ∧ ∀ s : State, s.phase = ph → exec .extract s = f s := by
  cases ph with
  | decode => exact ⟨_, .decode _, fun _ => exec_extract_decode⟩
  | sniff b0 => exact ⟨_, .sniff _ b0, fun _ => exec_extract_sniff⟩
  | probe m next =>
    cases next with
    | start => exact ⟨_, .bofStart m, fun _ => exec_extract_probeFirst⟩
    | read => exact ⟨_, .bofRead m, fun _ => exec_extract_probeNext⟩
  | scan k => exact ⟨_, .scan k, fun _ => exec_extract_scan⟩
  | endCmd => exact ⟨_, .endCmd _, fun _ => exec_endCmd⟩
  | _ => exact ⟨_, .none _ _, fun _ hp => by simp only [exec, execExtract, hp]⟩

/-- Every micro-step is the one operation of its command and phase. -/
theorem exec_microOp (i : Instr) (ph : Phase) :
    ∃ f, MicroOp i ph f ∧ ∀ s : State, s.phase = ph → exec i s = f s := by
  cases i with
  | identify => exact exec_identify_microOp ph
  | embed => exact exec_embed_microOp ph
  | check => exact exec_check_microOp ph
  | extract => exact exec_extract_microOp ph

end Sys2Proof.Machine

/-! PROOFS. Every step keeps the invariant. While a command runs, the memories and the result registers meet conditions
of their own (`State.Running`), which name only the fields they speak of, so that a micro-step which leaves those fields
alone keeps them by definition; to them each operation adds its next phase's condition, or the command ends. -/

namespace Sys2Proof.Machine

/-! ### The memories -/

/-- Every memory is canonical and inside its capacity. -/
def MemsOk (mem : Space → Memory) (caps : Caps) : Prop :=
  ∀ sp, (mem sp).wf = true ∧ (mem sp).below (caps.size sp) = true

theorem State.Inv.mems {s : State} (h : s.Inv) : MemsOk s.mem s.caps := fun sp => ⟨h.memWf sp, h.memBelow sp⟩

/-- A write below the capacity keeps every memory as it should be. -/
theorem memsOk_write {s : State} {sp : Space} {a : Nat} (v : Byte) (h : MemsOk s.mem s.caps)
    (ha : a < s.caps.size sp) : MemsOk (s.setMem sp ((s.mem sp).write a v)).mem s.caps := by
  intro sp'
  obtain ⟨hwf, hbelow⟩ := h sp'
  rw [mem_setMem]
  split
  · next hsp =>
    subst hsp
    exact ⟨write_wf _ _ _ hwf, write_below _ _ _ _ ha hbelow⟩
  · exact ⟨hwf, hbelow⟩

/-! ### A command that runs -/

/-- What holds of the memories and the result registers while a command runs: the invariant without the phase. -/
structure CommandRuns (mem : Space → Memory) (caps : Caps) (f : Status) (opl maxChars outLen : Word) : Prop where
  mems : MemsOk mem caps
  busy : f.busy = true
  done : f.done = false
  err : f.err = .noError
  found : f.found = true → decode opl = .ok .check ∨ decode opl = .ok .extract
  capOk : f.capOk = true → decode opl = .ok .check
  wrap : f.wrap = true → decode opl = .ok .embed
  maxChars : maxChars ≠ 0#32 → decode opl = .ok .check
  outLen : outLen = 0#32

/-- `CommandRuns` of the state's own fields. -/
def State.Running (s : State) : Prop := CommandRuns s.mem s.caps s.status s.opl s.maxChars s.outLen

theorem State.Inv.running {s : State} (h : s.Inv) (hb : s.status.busy = true) : s.Running where
  mems := h.mems
  busy := hb
  done := h.resultsOk.busyDone hb
  err := h.resultsOk.busyErr hb
  found := h.resultsOk.found
  capOk := h.resultsOk.capOk
  wrap := h.resultsOk.wrap
  maxChars := h.resultsOk.maxChars
  outLen := by
    by_contra hne
    obtain ⟨⟨hidle, -, -⟩, -, -, -⟩ := h.resultsOk.outLen hne
    simp [hb] at hidle

/-- A running command in a phase whose condition holds meets the invariant. -/
theorem State.Running.inv {s : State} (h : s.Running) (hp : s.phase ≠ .idle) (hok : s.phaseOk) : s.Inv where
  memWf sp := (h.mems sp).1
  memBelow sp := (h.mems sp).2
  busyPhase := ⟨fun _ => hp, fun _ => h.busy⟩
  phaseOk := hok
  resultsOk :=
    { busyDone := fun _ => h.done, busyErr := fun _ => h.err, found := h.found, capOk := h.capOk, wrap := h.wrap,
      maxChars := h.maxChars, outLen := fun hne => absurd h.outLen hne }

/-- An idle block meets the invariant when its memories and result registers do. -/
theorem inv_of_idle {s : State} (hm : MemsOk s.mem s.caps) (hb : s.status.busy = false) (hp : s.phase = .idle)
    (hr : s.ResultsOk) : s.Inv where
  memWf sp := (hm sp).1
  memBelow sp := (hm sp).2
  busyPhase := by simp [hb, hp]
  phaseOk := by simp [State.phaseOk, hp]
  resultsOk := hr

/-- The end of a command by `finish` keeps the invariant, `OUT_LEN` being set by EXTRACT only when the probe has found a
message (60_exceptions R184). -/
theorem State.Running.finished_outLen {s : State} (h : s.Running) {n : Word}
    (hn : n ≠ 0#32 → decode s.opl = .ok .extract ∧ s.status.found = true) : { s with outLen := n }.finished.Inv :=
  inv_of_idle h.mems rfl rfl
    { busyDone := nofun, busyErr := nofun, found := h.found, capOk := h.capOk, wrap := h.wrap, maxChars := h.maxChars,
      outLen := fun hne => ⟨⟨rfl, rfl, rfl⟩, (hn hne).1, rfl, (hn hne).2⟩ }

theorem State.Running.finished {s : State} (h : s.Running) : s.finished.Inv :=
  h.finished_outLen (n := s.outLen) fun hne => absurd h.outLen hne

/-- The end of a command by `raise` keeps the invariant (60_exceptions R182). -/
theorem State.Running.raised {s : State} (h : s.Running) (e : ErrCode) (p : Word) : (s.raised e p).Inv :=
  inv_of_idle h.mems rfl rfl
    { busyDone := nofun, busyErr := nofun, found := h.found, capOk := h.capOk, wrap := h.wrap, maxChars := h.maxChars,
      outLen := fun hne => absurd rfl hne }

theorem State.Running.setFmt {s : State} (h : s.Running) (f : Format) : (s.setFmt f).Running := { h with }

theorem State.Running.setFound {s : State} (h : s.Running) (b : Bool)
    (hd : decode s.opl = .ok .check ∨ decode s.opl = .ok .extract) : (s.setFound b).Running :=
  { h with found := fun _ => hd }

theorem State.Running.setCapOk {s : State} (h : s.Running) (b : Bool) (hd : decode s.opl = .ok .check) :
    (s.setCapOk b).Running :=
  { h with capOk := fun _ => hd }

theorem State.Running.setMaxChars {s : State} (h : s.Running) (n : Word) (hd : decode s.opl = .ok .check) :
    { s with maxChars := n }.Running :=
  { h with maxChars := fun _ => hd }

theorem State.Running.noteWrap {s : State} (h : s.Running) (b : Byte) (hd : decode s.opl = .ok .embed) :
    (s.noteWrap b).Running :=
  { h with wrap := fun _ => hd }

theorem State.Running.setMem {s : State} {sp : Space} {a : Nat} (h : s.Running) (v : Byte) (ha : a < s.caps.size sp) :
    (s.setMem sp ((s.mem sp).write a v)).Running := by
  have hm := memsOk_write v h.mems ha
  cases sp <;> exact { h with mems := hm }

/-! ### What the invariant asks of a phase, the latched command being known -/

/-- The message `m` is set and fits the carrier: what the loops of EMBED and CHECK rest on (43_engine R142, R151). -/
def State.MessageFits (s : State) (i : Instr) (m : List Byte) : Prop :=
  s.configured i ∧ s.messageIs m ∧ containsEof m = false ∧ hdr + s.nBits ≤ s.carSize.toNat

theorem phaseOk_decode {s : State} (hp : s.phase = .decode) : s.phaseOk ↔ s.pos = 0#32 := by
  simp [State.phaseOk, hp]

theorem phaseOk_sniff {s : State} {i : Instr} {b0 : Option Byte} (hd : decode s.opl = .ok i)
    (hp : s.phase = .sniff b0) :
    s.phaseOk ↔ s.pos = 0#32 ∧ (b0 ≠ none → 2 ≤ s.carSize.toNat) ∧ s.configured i := by
  simp [State.phaseOk, hp, hd]

theorem phaseOk_validate {s : State} {i : Instr} {m : List Byte} (hd : decode s.opl = .ok i)
    (hp : s.phase = .validate m) :
    s.phaseOk ↔ s.pos = 0#32 ∧ m.length ≤ s.msgLen.toNat ∧ s.msg.holds 0 m ∧ readsMessage i = true ∧
      s.configured i := by
  simp [State.phaseOk, hp, hd]

theorem phaseOk_capchk {s : State} {i : Instr} {m : List Byte} (hd : decode s.opl = .ok i) (hp : s.phase = .capchk m) :
    s.phaseOk ↔
      s.pos = 0#32 ∧ s.messageIs m ∧ containsEof m = false ∧ readsMessage i = true ∧ s.configured i := by
  simp [State.phaseOk, hp, hd]

theorem phaseOk_walk {s : State} {m : List Byte} {next : WalkStep} (hd : decode s.opl = .ok .embed)
    (hp : s.phase = .walk m next) :
    s.phaseOk ↔ s.MessageFits .embed m ∧ s.j.toNat < s.nBits ∧ s.walkStepOk next := by
  simp [State.phaseOk, State.MessageFits, hp, hd, and_assoc]

theorem phaseOk_checkProbe {s : State} {m : List Byte} {next : ProbeStep} (hd : decode s.opl = .ok .check)
    (hp : s.phase = .probe m next) :
    s.phaseOk ↔ s.MessageFits .check m ∧ s.j.toNat < s.nBits ∧ s.checkStepOk next := by
  simp [State.phaseOk, State.MessageFits, hp, hd, and_assoc]

theorem phaseOk_bofProbe {s : State} {m : List Byte} {next : ProbeStep} (hd : decode s.opl = .ok .extract)
    (hp : s.phase = .probe m next) : s.phaseOk ↔ s.configured .extract ∧ m = [] ∧ s.bofStepOk next := by
  simp [State.phaseOk, hp, hd]

/-- Where the scan stands between two characters (43_engine R160). -/
def State.ScanStands (s : State) : Prop :=
  s.configured .extract ∧ s.status.found = true ∧ s.pos.toNat = scanStart + chunk * s.k.toNat ∧
    s.pos.toNat ≤ s.carSize.toNat ∧ s.k.toNat ≤ s.caps.outCap

theorem phaseOk_scan {s : State} {k : Nat} (hd : decode s.opl = .ok .extract) (hp : s.phase = .scan k) :
    s.phaseOk ↔ s.ScanStands ∧ k ≤ chunk ∧ (0 < k → s.pos.toNat + chunk ≤ s.carSize.toNat) := by
  simp only [State.phaseOk, State.ScanStands, hp, hd]
  tauto

theorem holds_nil (m : Memory) (a : Nat) : m.holds a [] := fun _ h => absurd h (by simp)

/-- Reading one byte further. -/
theorem holds_snoc {m : Memory} {bs : List Byte} {b : Byte} (h : m.holds 0 bs) (hb : m.read bs.length = some b) :
    m.holds 0 (bs ++ [b]) := by
  intro i hi
  rw [List.length_append, List.length_singleton] at hi
  obtain hlt | rfl : i < bs.length ∨ i = bs.length := by omega
  · rw [h i hlt, List.getElem?_append_left hlt]
  · simpa using hb

/-! ### The micro-steps, operation by operation -/

section
variable {s t : State} {i : Instr} {m : List Byte}

theorem decodeStep_keeps_inv (h : decodeStep (readsMessage i) s = .next t) (hr : s.Running)
    (hd : decode s.opl = .ok i) (hpos : s.pos = 0#32) : t.Inv := by
  obtain ⟨he, -⟩ | ⟨he, hcar, hmsg⟩ := decodeStep_cases (readsMessage i) s <;> rw [he] at h <;> cases h
  · exact hr.raised _ _
  · exact State.Running.inv hr nofun (Iff.mpr (phaseOk_sniff hd rfl) ⟨hpos, fun h => absurd rfl h, hcar, hmsg⟩)

theorem gateVerdict_keeps_inv (h : gateVerdict i s = .next t) (hr : s.Running)
    (hd : decode s.opl = .ok i) (hpos : s.pos = 0#32) (hc : s.configured i) : t.Inv := by
  have hgate {next : Phase} (hnext : { s with phase := next }.Inv) (h : gateThen next s = .next t) : t.Inv := by
    obtain ⟨-, he⟩ | ⟨-, he⟩ := gateThen_cases next s <;> rw [he] at h <;> cases h
    · exact hr.raised _ _
    · exact hnext
  have hvalidate (hi : readsMessage i = true) : { s with phase := .validate [] }.Inv :=
    State.Running.inv hr nofun
      (Iff.mpr (phaseOk_validate hd rfl) ⟨hpos, Nat.zero_le _, holds_nil _ _, hi, hc⟩)
  cases i with
  | identify => cases h; exact hr.finished
  | embed => exact hgate (hvalidate rfl) h
  | check => exact hgate (hvalidate rfl) h
  | extract =>
    refine hgate (next := .probe [] .start) (State.Running.inv hr nofun ?_) h
    exact Iff.mpr (phaseOk_bofProbe hd rfl) ⟨hc, rfl, trivial⟩

theorem sniffGate_keeps_inv {b0 : Option Byte} (h : sniffGate b0 s (gateVerdict i) = .next t) (hr : s.Running)
    (hd : decode s.opl = .ok i) (hpos : s.pos = 0#32) (hc : s.configured i) : t.Inv := by
  obtain ⟨-, hsize, b, -, rfl⟩ | ⟨f, h⟩ := sniffGate_next h
  · exact State.Running.inv hr nofun (Iff.mpr (phaseOk_sniff hd rfl) ⟨hpos, fun _ => hsize, hc⟩)
  · exact gateVerdict_keeps_inv h (hr.setFmt f) hd hpos hc

theorem validateStep_keeps_inv (h : validateStep m s = .next t) (hr : s.Running)
    (hd : decode s.opl = .ok i) (hp : s.phase = .validate m) (hok : s.phaseOk) : t.Inv := by
  obtain ⟨hpos, hlen, hheld, hi, hc⟩ := (phaseOk_validate hd hp).mp hok
  unfold validateStep at h
  split at h
  · next hlt =>
    obtain ⟨-, b, hb, h⟩ := memRead_next h
    cases h
    exact State.Running.inv hr nofun
      (Iff.mpr (phaseOk_validate hd rfl) ⟨hpos, by simpa using hlt, holds_snoc hheld hb, hi, hc⟩)
  · next hge =>
    split at h <;> cases h
    · exact hr.raised _ _
    · next heof =>
      exact State.Running.inv hr nofun
        (Iff.mpr (phaseOk_capchk hd rfl)
          ⟨hpos, ⟨Nat.le_antisymm hlen (Nat.le_of_not_lt hge), hheld⟩, by simpa using heof, hi, hc⟩)

theorem embedCapchk_keeps_inv (h : embedCapchk m s = .next t) (hr : s.Running)
    (hd : decode s.opl = .ok .embed) (hp : s.phase = .capchk m) (hok : s.phaseOk) : t.Inv := by
  obtain ⟨-, hm, heof, -, hc⟩ := (phaseOk_capchk hd hp).mp hok
  obtain ⟨-, he⟩ | ⟨hfits, he⟩ := embedCapchk_cases m s <;> rw [he] at h <;> cases h
  · exact hr.raised _ _
  · exact State.Running.inv hr nofun
      (Iff.mpr (phaseOk_walk hd rfl) ⟨⟨hc, hm, heof, hfits⟩, by simp [State.nBits], trivial⟩)

theorem checkCapchk_keeps_inv (h : checkCapchk m s = .next t) (hr : s.Running)
    (hd : decode s.opl = .ok .check) (hp : s.phase = .capchk m) (hok : s.phaseOk) : t.Inv := by
  obtain ⟨-, hm, heof, -, hc⟩ := (phaseOk_capchk hd hp).mp hok
  have hmax := hr.setMaxChars (s.carSize / 8#32) hd
  obtain ⟨-, he⟩ | ⟨hfits, he⟩ := checkCapchk_cases m s <;> rw [he] at h <;> cases h
  · exact ((hmax.setCapOk false hd).setFound false (.inl hd)).finished
  · exact State.Running.inv (hmax.setCapOk true hd) nofun
      (Iff.mpr (phaseOk_checkProbe hd rfl) ⟨⟨hc, hm, heof, hfits⟩, by simp [State.nBits], rfl⟩)

theorem walkLoop_keeps_inv (h : walkLoop m s = .next t) (hr : s.Running)
    (hd : decode s.opl = .ok .embed) (hf : s.MessageFits .embed m) : t.Inv := by
  obtain ⟨hj, he⟩ | ⟨-, he⟩ := walkLoop_cases m s <;> rw [he] at h <;> cases h
  · exact State.Running.inv hr nofun (Iff.mpr (phaseOk_walk hd rfl) ⟨hf, hj, trivial⟩)
  · exact State.Running.finished (s := { s with pos := BitVec.ofNat 32 (hdr + s.nBits) }) hr

theorem walkRead_keeps_inv (h : walkRead m s = .next t) (hr : s.Running)
    (hd : decode s.opl = .ok .embed) (hf : s.MessageFits .embed m) (hj : s.j.toNat < s.nBits) : t.Inv := by
  obtain ⟨-, b, hb, h⟩ := memRead_next h
  obtain ⟨want, h⟩ := payloadBit_next h
  by_cases hw : parity b = want
  · rw [walkAdjust_of_eq m _ hw] at h
    exact walkLoop_keeps_inv h hr hd hf
  · rw [walkAdjust_of_ne m _ hw] at h
    cases h
    exact State.Running.inv hr nofun (Iff.mpr (phaseOk_walk hd rfl) ⟨hf, hj, hb, rfl, rfl⟩)

theorem walkWrite_keeps_inv {b b2 : Byte} (h : walkWrite m b b2 s = .next t) (hr : s.Running)
    (hd : decode s.opl = .ok .embed) (hf : s.MessageFits .embed m) : t.Inv := by
  obtain ⟨hcap, h⟩ := memWrite_next h
  exact walkLoop_keeps_inv h ((hr.setMem b2 hcap).noteWrap b hd) hd hf

theorem checkLoop_keeps_inv (h : checkLoop m s = .next t) (hr : s.Running)
    (hd : decode s.opl = .ok .check) (hf : s.MessageFits .check m) : t.Inv := by
  obtain ⟨hj, he⟩ | ⟨-, he⟩ := checkLoop_cases m s <;> rw [he] at h <;> cases h
  · exact State.Running.inv hr nofun (Iff.mpr (phaseOk_checkProbe hd rfl) ⟨hf, hj, trivial⟩)
  · exact State.Running.finished (s := { s with pos := BitVec.ofNat 32 (hdr + s.nBits) }.setFound s.eq)
      (hr.setFound s.eq (.inl hd))

theorem checkProbe_keeps_inv (h : checkProbe m s = .next t) (hr : s.Running)
    (hd : decode s.opl = .ok .check) (hf : s.MessageFits .check m) : t.Inv := by
  obtain ⟨-, b, -, h⟩ := memRead_next h
  obtain ⟨want, h⟩ := payloadBit_next h
  exact checkLoop_keeps_inv h hr hd hf

theorem bofLoop_keeps_inv (h : bofLoop s = .next t) (hr : s.Running)
    (hd : decode s.opl = .ok .extract) (hc : s.configured .extract) (hsize : scanStart ≤ s.carSize.toNat) : t.Inv := by
  obtain ⟨hj, he⟩ | ⟨-, -, he⟩ | ⟨-, -, he⟩ := bofLoop_cases s <;> rw [he] at h <;> cases h
  · exact State.Running.inv hr nofun (Iff.mpr (phaseOk_bofProbe hd rfl) ⟨hc, rfl, hsize, hj⟩)
  · exact State.Running.finished (s := { s with pos := BitVec.ofNat 32 scanStart }.setFound false)
      (hr.setFound false (.inr hd))
  · exact State.Running.inv (hr.setFound true (.inr hd)) nofun
      (Iff.mpr (phaseOk_scan hd rfl) ⟨⟨hc, rfl, rfl, hsize, Nat.zero_le _⟩, Nat.zero_le _, nofun⟩)

theorem bofProbe_keeps_inv (h : bofProbe s = .next t) (hr : s.Running)
    (hd : decode s.opl = .ok .extract) (hc : s.configured .extract) (hsize : scanStart ≤ s.carSize.toNat) : t.Inv := by
  obtain ⟨-, b, -, h⟩ := memRead_next h
  exact bofLoop_keeps_inv h hr hd hc hsize

theorem bofStart_keeps_inv (h : bofStart s = .next t) (hr : s.Running)
    (hd : decode s.opl = .ok .extract) (hc : s.configured .extract) : t.Inv := by
  unfold bofStart at h
  split at h
  · cases h
    exact (hr.setFound false (.inr hd)).finished
  · next hge => exact bofProbe_keeps_inv h hr hd hc (Nat.le_of_not_lt hge)

theorem scanByte_keeps_inv {k : Nat} (h : scanByte k s = .next t) (hr : s.Running) (hd : decode s.opl = .ok .extract)
    (hs : s.ScanStands) (hk : k < chunk) (hroom : s.pos.toNat + chunk ≤ s.carSize.toNat) : t.Inv := by
  obtain ⟨-, b, -, h⟩ := memRead_next h
  cases h
  exact State.Running.inv hr nofun (Iff.mpr (phaseOk_scan hd rfl) ⟨hs, hk, fun _ => hroom⟩)

theorem scanHead_keeps_inv (h : scanHead s = .next t) (hr : s.Running) (hd : decode s.opl = .ok .extract)
    (hs : s.ScanStands) : t.Inv := by
  unfold scanHead at h
  split at h
  · cases h
    exact hr.raised _ _
  · next hroom => exact scanByte_keeps_inv h hr hd hs (by decide) (Nat.le_of_not_lt hroom)

/-- The scan after a character: the next chunk is due (43_engine R160). -/
def State.nextChar (s : State) : State :=
  { s with
    tail := s.tail * 256#24 + s.acc.setWidth 24, k := s.k + 1#32, pos := s.pos + BitVec.ofNat 32 chunk,
    phase := .scan 0 }

theorem afterScanStore_eq (s : State) : afterScanStore s =
    if sawEof s.nextChar then finish { s.nextChar with outLen := s.nextChar.k - 3#32 } else .next s.nextChar := rfl

/-- A character more leaves the scan at the next chunk. -/
theorem nextChar_scanStands (hs : s.ScanStands) (hk : s.k.toNat < s.caps.outCap)
    (hroom : s.pos.toNat + chunk ≤ s.carSize.toNat) : s.nextChar.ScanStands := by
  obtain ⟨hc, hfound, hpos, -, -⟩ := hs
  have hsize := s.carSize.isLt
  have hpos' : s.nextChar.pos.toNat = s.pos.toNat + chunk := by
    simp only [State.nextChar, BitVec.toNat_add, BitVec.toNat_ofNat, chunk] at hroom ⊢
    omega
  have hk' : s.nextChar.k.toNat = s.k.toNat + 1 := toNat_succ (n := s.carSize.toNat) (by unfold chunk at *; omega) hsize
  refine ⟨hc, hfound, ?_, by rw [hpos']; exact hroom, by rw [hk']; exact hk⟩
  rw [hpos', hk', hpos, Nat.mul_succ, Nat.add_assoc]

theorem afterScanStore_keeps_inv (h : afterScanStore s = .next t) (hr : s.Running) (hd : decode s.opl = .ok .extract)
    (hs : s.nextChar.ScanStands) : t.Inv := by
  have ⟨_, hfound, _⟩ := hs
  rw [afterScanStore_eq] at h
  split at h <;> cases h
  · exact State.Running.finished_outLen (s := s.nextChar) hr fun _ => ⟨hd, hfound⟩
  · exact State.Running.inv (s := s.nextChar) hr nofun (Iff.mpr (phaseOk_scan hd rfl) ⟨hs, Nat.zero_le _, nofun⟩)

theorem scanStore_keeps_inv (h : scanStore s = .next t) (hr : s.Running) (hd : decode s.opl = .ok .extract)
    (hs : s.ScanStands) (hroom : s.pos.toNat + chunk ≤ s.carSize.toNat) : t.Inv := by
  rw [scanStore_eq] at h
  split at h
  · cases h
    exact hr.raised _ _
  · next hk =>
    obtain ⟨hcap, h⟩ := memWrite_next h
    exact afterScanStore_keeps_inv h (hr.setMem s.acc hcap) hd (nextChar_scanStands hs hcap hroom)

theorem scanStep_keeps_inv {k : Nat} (h : scanStep k s = .next t) (hr : s.Running) (hd : decode s.opl = .ok .extract)
    (hp : s.phase = .scan k) (hok : s.phaseOk) : t.Inv := by
  obtain ⟨hs, -, hroom⟩ := (phaseOk_scan hd hp).mp hok
  unfold scanStep at h
  split at h
  · exact scanHead_keeps_inv h hr hd hs
  · next hk0 =>
    have hroom := hroom (Nat.pos_of_ne_zero hk0)
    split at h
    · next hk => exact scanByte_keeps_inv h hr hd hs hk hroom
    · exact scanStore_keeps_inv h hr hd hs hroom

end

/-! ### The commands -/

/-- A command's micro-step keeps the invariant. -/
theorem exec_keeps_inv {s t : State} {i : Instr} (hs : s.Inv) (hb : s.status.busy = true) (hd : decode s.opl = .ok i)
    (h : exec i s = .next t) : t.Inv := by
  obtain ⟨f, hf, he⟩ := exec_microOp i s.phase
  rw [he s rfl] at h
  have hr := hs.running hb
  have hok := hs.phaseOk
  generalize hp : s.phase = ph at hf
  cases hf with
  | decode => exact decodeStep_keeps_inv h hr hd ((phaseOk_decode hp).mp hok)
  | sniff i b0 =>
    obtain ⟨hpos, -, hc⟩ := (phaseOk_sniff hd hp).mp hok
    exact sniffGate_keeps_inv h hr hd hpos hc
  | validate i m hi => exact validateStep_keeps_inv h hr hd hp hok
  | embedCapchk m => exact embedCapchk_keeps_inv h hr hd hp hok
  | walkRead m =>
    obtain ⟨hfits, hj, -⟩ := (phaseOk_walk hd hp).mp hok
    exact walkRead_keeps_inv h hr hd hfits hj
  | walkWrite m b b2 => exact walkWrite_keeps_inv h hr hd ((phaseOk_walk hd hp).mp hok).1
  | checkCapchk m => exact checkCapchk_keeps_inv h hr hd hp hok
  | checkStart m => exact checkProbe_keeps_inv h hr hd ((phaseOk_checkProbe hd hp).mp hok).1
  | checkRead m => exact checkProbe_keeps_inv h hr hd ((phaseOk_checkProbe hd hp).mp hok).1
  | bofStart m => exact bofStart_keeps_inv h hr hd ((phaseOk_bofProbe hd hp).mp hok).1
  | bofRead m =>
    obtain ⟨hc, -, hsize, -⟩ := (phaseOk_bofProbe hd hp).mp hok
    exact bofProbe_keeps_inv h hr hd hc hsize
  | scan k => exact scanStep_keeps_inv h hr hd hp hok
  | endCmd => simp [State.phaseOk, hp] at hok
  | none => cases h

/-- The micro-step of a word that selects no command keeps the invariant. -/
theorem illegalCommand_keeps_inv {s t : State} (hs : s.Inv) (hb : s.status.busy = true)
    (h : illegalCommand s = .next t) : t.Inv := by
  have hok := hs.phaseOk
  unfold illegalCommand at h
  split at h
  · cases h
    exact (hs.running hb).raised _ _
  · next hp => simp [State.phaseOk, hp] at hok
  all_goals cases h

/-- The engine's turn keeps the invariant. -/
theorem engineTurn_keeps_inv {s t : State} (hs : s.Inv) (h : engineTurn s = .next t) : t.Inv := by
  cases hb : s.status.busy with
  | false =>
    rw [engineTurn_idle hb] at h
    cases h
    exact hs
  | true =>
    cases hd : decode s.opl with
    | ok i =>
      rw [engineTurn_command hb hd] at h
      exact exec_keeps_inv hs hb hd h
    | error e =>
      rw [engineTurn_illegal hb hd] at h
      exact illegalCommand_keeps_inv hs hb h

/-! ### The host, the reset input and the power -/

/-- The model's own fields do not stand in the invariant. -/
theorem State.Inv.setModelFields {s : State} (h : s.Inv) (sched : List Turn) (got : HostData) (n : Nat) :
    { s with schedule := sched, hostGot := got, draws := n }.Inv :=
  { h with resultsOk := { h.resultsOk with } }

/-- An ignored write leaves its mark and keeps the invariant (70_reset_and_hazards R205). -/
theorem State.Inv.setOvr {s : State} (h : s.Inv) : s.setOvr.Inv :=
  { h with resultsOk := { h.resultsOk with } }

theorem State.Inv.phase_idle {s : State} (h : s.Inv) (hb : s.status.busy = false) : s.phase = .idle := by
  by_contra hne
  simp [h.busyPhase.mpr hne] at hb

/-- The registers an idle host writes do not stand in the invariant of an idle block. -/
theorem State.Inv.setHostRegs {s : State} (h : s.Inv) (hb : s.status.busy = false) (strict : Bool)
    (carSize msgLen : Word) :
    { s with strict := strict, carSize := carSize, msgLen := msgLen }.Inv :=
  inv_of_idle h.mems hb (h.phase_idle hb) { h.resultsOk with }

/-- Acceptance leads to a state that meets the invariant (10_state R31). -/
theorem State.Inv.accept {s : State} (h : s.Inv) (w : Word) : (s.accept w).Inv :=
  have hr : (s.accept w).Running :=
    { mems := h.mems, busy := rfl, done := rfl, err := rfl, found := nofun, capOk := nofun, wrap := nofun,
      maxChars := fun hne => absurd rfl hne, outLen := rfl }
  hr.inv nofun ((phaseOk_decode rfl).mpr rfl)

theorem State.Inv.writeReg {s : State} (h : s.Inv) (r : Reg) (v : Word) : (s.writeReg r v).Inv := by
  have hbusy {u : State} (hu : s.status.busy = false → u.Inv) : (if s.status.busy then s.setOvr else u).Inv := by
    split
    · exact h.setOvr
    · next hb => exact hu (by simpa using hb)
  cases r with
  | cmd => exact hbusy fun _ => h.accept v
  | cfg => exact hbusy fun hb => h.setHostRegs hb (strictOfWord v) s.carSize s.msgLen
  | carSize => exact hbusy fun hb => h.setHostRegs hb s.strict v s.msgLen
  | msgLen => exact hbusy fun hb => h.setHostRegs hb s.strict s.carSize v
  | _ => exact h

theorem State.Inv.hostWrite {s : State} {sp : Space} {a : Nat} (h : s.Inv) (b : Byte) (ha : a < s.caps.size sp) :
    (s.hostWrite sp a b).Inv := by
  unfold State.hostWrite
  split
  · exact h.setOvr
  · next hb =>
    have hidle : s.status.busy = false := by simpa using hb
    have hm := memsOk_write b h.mems ha
    cases sp <;> exact inv_of_idle hm hidle (h.phase_idle hidle) { h.resultsOk with }

theorem hostRead_keeps_inv {s t : State} {sp : Space} {a : Nat} (hs : s.Inv)
    (h : hostRead sp a s = .next t) : t.Inv := by
  unfold hostRead at h
  split at h
  · cases h
    exact hs.setModelFields s.schedule _ _
  · split at h <;> cases h
    exact hs.setModelFields s.schedule _ s.draws

theorem hostAccess_keeps_inv {s t : State} {a : HostAccess} (hs : s.Inv) (h : hostAccess a s = .next t) : t.Inv := by
  unfold hostAccess at h
  split at h
  · next hwf =>
    cases a with
    | regWrite p v => cases h; exact hs.writeReg _ v
    | regRead p => cases h; exact hs.setModelFields s.schedule _ s.draws
    | memWrite sp x b => cases h; exact hs.hostWrite b (by simpa [HostAccess.wellFormed] using hwf)
    | memRead sp x => exact hostRead_keeps_inv hs h
  · cases h

/-- A reset leads to a state that meets the invariant, whatever the memories hold in canonical form. -/
theorem applyReset_inv {s : State} (hm : MemsOk s.mem s.caps) : s.applyReset.Inv :=
  inv_of_idle hm rfl rfl
    { busyDone := nofun, busyErr := nofun, found := nofun, capOk := nofun, wrap := nofun,
      maxChars := fun hne => absurd rfl hne, outLen := fun hne => absurd rfl hne }

theorem memsOk_empty (s : State) : MemsOk (s.withMems [] [] []).mem s.caps := by
  intro sp
  cases sp <;> exact ⟨rfl, rfl⟩

theorem takeTurn_keeps_inv {s t : State} {turn : Turn} (hs : s.Inv) (h : takeTurn turn s = .next t) : t.Inv := by
  cases turn with
  | engine => exact engineTurn_keeps_inv hs h
  | host a => exact hostAccess_keeps_inv hs h
  | wait => cases h; exact hs.setModelFields _ _ s.draws
  | secondHost a => cases h
  | reset => cases h; exact applyReset_inv hs.mems
  | powerOn => cases h; exact applyReset_inv (s := s.withMems [] [] []) (memsOk_empty s)

/-- Settles O40: the reset state is what a reset leaves of empty memories. -/
theorem invAtReset : Obligations.InvAtReset := applyReset_inv (s := State.reset) (memsOk_empty State.reset)

/-- Settles O41: turn by turn, and the engine's turn operation by operation. -/
theorem everyStepKeepsInv : Obligations.EveryStepKeepsInv := by
  intro s t hs h
  cases hsched : s.schedule with
  | nil =>
    rw [step, scheduledTurn, hsched] at h
    exact engineTurn_keeps_inv hs h
  | cons turn rest =>
    rw [step_turn hsched] at h
    exact takeTurn_keeps_inv (hs.setModelFields rest s.hostGot s.draws) h

end Sys2Proof.Machine

/-! PROOFS. No command depends on the hidden fields it finds (10_state R39). Two runs that differ in `J`, `K`, `ACC`,
`TAIL` and `EQ` alone stay alike as long as they agree on those of them that the phase still reads before setting them. -/

namespace Sys2Proof.Machine

/-! ### States that are alike -/

/-- The same state with other values in the hidden fields that acceptance leaves alone or clears. -/
def State.withHidden (s : State) (j k : Word) (acc : Byte) (tail : BitVec 24) (eq : Bool) : State :=
  { s with j := j, k := k, acc := acc, tail := tail, eq := eq }

/-- The two states agree on the hidden fields that the micro-steps from this phase on read before they set them. -/
def State.AgreesOnRead (s u : State) : Prop :=
  match s.phase with
  | .walk _ _ => u.j = s.j
  | .probe _ .start => decode s.opl = .ok .check → u.j = s.j
  | .probe _ .read => u.j = s.j ∧ u.eq = s.eq
  | .scan n => u.k = s.k ∧ u.tail = s.tail ∧ (n ≠ 0 → u.acc = s.acc)
  | .idle | .decode | .sniff _ | .validate _ | .capchk _ | .endCmd => True

/-- Two states without a host turn to come that differ in hidden fields only, and in none that is still to be read. -/
structure Alike (s u : State) : Prop where
  alone : s.schedule = []
  visible : u = s.withHidden u.j u.k u.acc u.tail u.eq
  read : s.AgreesOnRead u

theorem Alike.exists_hidden {s u : State} (h : Alike s u) : ∃ j k acc tail eq, u = s.withHidden j k acc tail eq :=
  ⟨_, _, _, _, _, h.visible⟩

/-- The same fault or refusal, or states that are alike. -/
inductive AnswersAlike : Result → Result → Prop
  | next {t u : State} (h : Alike t u) : AnswersAlike (.next t) (.next u)
  | fault (r : Fault) : AnswersAlike (.fault r) (.fault r)
  | refused (r : Refusal) : AnswersAlike (.refused r) (.refused r)

/-- A choice that both states make alike. -/
theorem ite_alike {p : Prop} [Decidable p] {r₁ r₂ u₁ u₂ : Result} (h₁ : p → AnswersAlike r₁ u₁)
    (h₂ : ¬ p → AnswersAlike r₂ u₂) : AnswersAlike (if p then r₁ else r₂) (if p then u₁ else u₂) := by
  split
  · exact h₁ ‹_›
  · exact h₂ ‹_›

/-! ### The operations -/

section
variable {s : State} {j k : Word} {acc : Byte} {tail : BitVec 24} {eq : Bool}

/-- A read goes on with the same byte. -/
theorem memRead_alike {sp : Space} {a : Nat} {next next' : Byte → Result} (hn : ∀ b, AnswersAlike (next b) (next' b)) :
    AnswersAlike (memRead sp a s next) (memRead sp a (s.withHidden j k acc tail eq) next') := by
  have hm : (s.withHidden j k acc tail eq).mem = s.mem := rfl
  unfold memRead
  rw [hm]
  refine ite_alike (fun _ => ?_) fun _ => .fault _
  cases (s.mem sp).read a with
  | none => exact .fault _
  | some b => exact hn b

/-- A payload bit comes from `PHASE` and the registers. -/
theorem payloadBit_alike {m : List Byte} {n : Nat} {next next' : Bool → Result}
    (hn : ∀ w, AnswersAlike (next w) (next' w)) :
    AnswersAlike (payloadBit m n s next) (payloadBit m n (s.withHidden j k acc tail eq) next') := by
  refine ite_alike (fun _ => hn _) fun _ => ite_alike (fun _ => ?_) fun _ => hn _
  cases m[n / 8 - 3]? with
  | none => exact .fault _
  | some b => exact hn _

variable (ha : s.schedule = [])
include ha

theorem raise_alike (e : ErrCode) (p : Word) :
    AnswersAlike (raise e p s) (raise e p (s.withHidden j k acc tail eq)) := .next ⟨ha, rfl, trivial⟩

theorem finish_alike : AnswersAlike (finish s) (finish (s.withHidden j k acc tail eq)) := .next ⟨ha, rfl, trivial⟩

theorem decodeStep_alike (readsMsg : Bool) :
    AnswersAlike (decodeStep readsMsg s) (decodeStep readsMsg (s.withHidden j k acc tail eq)) :=
  ite_alike (fun _ => raise_alike ha _ _) fun _ => ite_alike (fun _ => raise_alike ha _ _) fun _ =>
    .next ⟨ha, rfl, trivial⟩

theorem gateThen_alike {next : Phase}
    (h : { s with phase := next }.AgreesOnRead ({ s with phase := next }.withHidden j k acc tail eq)) :
    AnswersAlike (gateThen next s) (gateThen next (s.withHidden j k acc tail eq)) :=
  ite_alike (fun _ => raise_alike ha _ _) fun _ => .next ⟨ha, rfl, h⟩

theorem gateVerdict_alike {i : Instr} (hd : decode s.opl = .ok i) :
    AnswersAlike (gateVerdict i s) (gateVerdict i (s.withHidden j k acc tail eq)) := by
  cases i with
  | identify => exact finish_alike ha
  | embed => exact gateThen_alike ha trivial
  | check => exact gateThen_alike ha trivial
  | extract => exact gateThen_alike (next := .probe [] .start) ha fun hcheck => by simp [hd] at hcheck

theorem sniffGate_alike {i : Instr} (hd : decode s.opl = .ok i) (b0 : Option Byte) :
    AnswersAlike (sniffGate b0 s (gateVerdict i)) (sniffGate b0 (s.withHidden j k acc tail eq) (gateVerdict i)) := by
  have hverdict (f : Format) := gateVerdict_alike (s := s.setFmt f) (j := j) (k := k) (acc := acc) (tail := tail)
    (eq := eq) ha hd
  cases b0 with
  | none => exact ite_alike (fun _ => memRead_alike fun b => .next ⟨ha, rfl, trivial⟩) fun _ => hverdict _
  | some b => exact memRead_alike fun b1 => hverdict _

theorem validateStep_alike (m : List Byte) :
    AnswersAlike (validateStep m s) (validateStep m (s.withHidden j k acc tail eq)) :=
  ite_alike (fun _ => memRead_alike fun _ => .next ⟨ha, rfl, trivial⟩) fun _ =>
    ite_alike (fun _ => raise_alike ha _ _) fun _ => .next ⟨ha, rfl, trivial⟩

theorem embedCapchk_alike (m : List Byte) :
    AnswersAlike (embedCapchk m s) (embedCapchk m (s.withHidden j k acc tail eq)) :=
  ite_alike (fun _ => raise_alike ha _ _) fun _ => .next ⟨ha, rfl, rfl⟩

theorem checkCapchk_alike (m : List Byte) :
    AnswersAlike (checkCapchk m s) (checkCapchk m (s.withHidden j k acc tail eq)) :=
  ite_alike (fun _ => .next ⟨ha, rfl, fun _ => rfl⟩) fun _ => .next ⟨ha, rfl, trivial⟩

/-- EMBED's walk reads `J`. -/
theorem walkLoop_alike (m : List Byte) : AnswersAlike (walkLoop m s) (walkLoop m (s.withHidden s.j k acc tail eq)) :=
  ite_alike (fun _ => .next ⟨ha, rfl, rfl⟩) fun _ => .next ⟨ha, rfl, trivial⟩

theorem walkRead_alike (m : List Byte) : AnswersAlike (walkRead m s) (walkRead m (s.withHidden s.j k acc tail eq)) :=
  memRead_alike fun _ => payloadBit_alike (s := { s with pos := BitVec.ofNat 32 (hdr + s.j.toNat) }) fun _ =>
    ite_alike (fun _ => .next ⟨ha, rfl, rfl⟩) fun _ =>
      walkLoop_alike (s := { s with pos := BitVec.ofNat 32 (hdr + s.j.toNat), j := s.j + 1#32 }) ha m

theorem walkWrite_alike (m : List Byte) (b b2 : Byte) :
    AnswersAlike (walkWrite m b b2 s) (walkWrite m b b2 (s.withHidden s.j k acc tail eq)) :=
  ite_alike (fun _ => walkLoop_alike
      (s := { (s.setMem .car (s.car.write (hdr + s.j.toNat) b2)).noteWrap b with j := s.j + 1#32 }) ha m)
    fun _ => .fault _

/-- CHECK's probe reads `J` and `EQ`. -/
theorem checkLoop_alike (m : List Byte) :
    AnswersAlike (checkLoop m s) (checkLoop m (s.withHidden s.j k acc tail s.eq)) :=
  ite_alike (fun _ => .next ⟨ha, rfl, rfl, rfl⟩) fun _ => .next ⟨ha, rfl, trivial⟩

theorem checkProbe_alike (m : List Byte) :
    AnswersAlike (checkProbe m s) (checkProbe m (s.withHidden s.j k acc tail s.eq)) :=
  memRead_alike fun b => payloadBit_alike fun want => checkLoop_alike
    (s := { s with
      pos := BitVec.ofNat 32 (hdr + s.j.toNat), eq := s.eq && (parity b == want), j := s.j + 1#32 }) ha m

/-- EXTRACT's probe reads `J` and `EQ`, and sets `K` and `TAIL` for the scan. -/
theorem bofLoop_alike : AnswersAlike (bofLoop s) (bofLoop (s.withHidden s.j k acc tail s.eq)) :=
  ite_alike (fun _ => .next ⟨ha, rfl, rfl, rfl⟩) fun _ =>
    ite_alike (fun _ => .next ⟨ha, rfl, rfl, rfl, fun h => absurd rfl h⟩) fun _ => .next ⟨ha, rfl, trivial⟩

theorem bofProbe_alike : AnswersAlike (bofProbe s) (bofProbe (s.withHidden s.j k acc tail s.eq)) :=
  memRead_alike fun b => bofLoop_alike
    (s := { s with
      pos := BitVec.ofNat 32 (hdr + s.j.toNat), eq := s.eq && (parity b == bofBit s.j.toNat), j := s.j + 1#32 }) ha

theorem bofStart_alike : AnswersAlike (bofStart s) (bofStart (s.withHidden j k acc tail eq)) :=
  ite_alike (fun _ => .next ⟨ha, rfl, trivial⟩) fun _ => bofProbe_alike (s := { s with eq := true, j := 0#32 }) ha

/-- The scan reads `K` and `TAIL`, and `ACC` inside a chunk. -/
theorem scanByte_alike (n : Nat) : AnswersAlike (scanByte n s) (scanByte n (s.withHidden j s.k s.acc s.tail eq)) :=
  memRead_alike fun _ => .next ⟨ha, rfl, rfl, rfl, fun _ => rfl⟩

theorem scanHead_alike : AnswersAlike (scanHead s) (scanHead (s.withHidden j s.k acc s.tail eq)) :=
  ite_alike (fun _ => raise_alike ha _ _) fun _ => scanByte_alike (s := { s with acc := 0#8 }) ha 0

theorem afterScanStore_alike :
    AnswersAlike (afterScanStore s) (afterScanStore (s.withHidden j s.k s.acc s.tail eq)) :=
  ite_alike (fun _ => .next ⟨ha, rfl, trivial⟩) fun _ => .next ⟨ha, rfl, rfl, rfl, fun h => absurd rfl h⟩

theorem scanStore_alike : AnswersAlike (scanStore s) (scanStore (s.withHidden j s.k s.acc s.tail eq)) :=
  ite_alike (fun _ => raise_alike ha _ _) fun _ =>
    ite_alike (fun _ => afterScanStore_alike (s := s.setMem .out (s.out.write s.k.toNat s.acc)) ha) fun _ => .fault _

theorem scanStep_alike {n : Nat} (hacc : n ≠ 0 → acc = s.acc) :
    AnswersAlike (scanStep n s) (scanStep n (s.withHidden j s.k acc s.tail eq)) := by
  refine ite_alike (fun _ => scanHead_alike ha) fun hn => ?_
  rw [hacc hn]
  exact ite_alike (fun _ => scanByte_alike ha n) fun _ => scanStore_alike ha

end

/-! ### The runs -/

/-- A micro-step of two states that are alike answers alike. -/
theorem exec_alike {s u : State} {i : Instr} (h : Alike s u) (hd : decode s.opl = .ok i) :
    AnswersAlike (exec i s) (exec i u) := by
  obtain ⟨j, k, acc, tail, eq, rfl⟩ := h.exists_hidden
  obtain ⟨ha, -, hread⟩ := h
  obtain ⟨f, hf, he⟩ := exec_microOp i s.phase
  rw [he s rfl, he (s.withHidden j k acc tail eq) rfl]
  generalize hp : s.phase = ph at hf
  simp only [State.AgreesOnRead, hp] at hread
  cases hf with
  | decode => exact decodeStep_alike ha _
  | sniff i b0 => exact sniffGate_alike ha hd b0
  | validate i m => exact validateStep_alike ha m
  | embedCapchk m => exact embedCapchk_alike ha m
  | walkRead m => obtain rfl := hread; exact walkRead_alike ha m
  | walkWrite m b b2 => obtain rfl := hread; exact walkWrite_alike ha m b b2
  | checkCapchk m => exact checkCapchk_alike ha m
  | checkStart m => obtain rfl := hread hd; exact checkProbe_alike (s := { s with eq := true }) ha m
  | checkRead m => obtain ⟨rfl, rfl⟩ := hread; exact checkProbe_alike ha m
  | bofStart m => exact bofStart_alike ha
  | bofRead m => obtain ⟨rfl, rfl⟩ := hread; exact bofProbe_alike ha
  | scan n => obtain ⟨rfl, rfl, hacc⟩ := hread; exact scanStep_alike ha hacc
  | endCmd => exact .next ⟨ha, rfl, trivial⟩
  | none => exact .fault _

/-- The micro-step of a word that selects no command answers alike. -/
theorem illegalCommand_alike {s u : State} (h : Alike s u) : AnswersAlike (illegalCommand s) (illegalCommand u) := by
  obtain ⟨j, k, acc, tail, eq, rfl⟩ := h.exists_hidden
  obtain ⟨ha, -, -⟩ := h
  have hp : (s.withHidden j k acc tail eq).phase = s.phase := rfl
  unfold illegalCommand
  rw [hp]
  cases s.phase with
  | decode => exact raise_alike ha _ _
  | endCmd => exact .next ⟨ha, rfl, trivial⟩
  | _ => exact .fault _

theorem step_alike {s u : State} (h : Alike s u) : AnswersAlike (step s) (step u) := by
  obtain ⟨j, k, acc, tail, eq, rfl⟩ := h.exists_hidden
  have ha := h.alone
  have hau : (s.withHidden j k acc tail eq).schedule = [] := ha
  rw [step, step, scheduledTurn, scheduledTurn, ha, hau]
  cases hb : s.status.busy with
  | false =>
    rw [engineTurn_idle hb, engineTurn_idle (s := s.withHidden j k acc tail eq) hb]
    exact .next h
  | true =>
    cases hd : decode s.opl with
    | ok i =>
      rw [engineTurn_command hb hd, engineTurn_command (s := s.withHidden j k acc tail eq) hb hd]
      exact exec_alike h hd
    | error e =>
      rw [engineTurn_illegal hb hd, engineTurn_illegal (s := s.withHidden j k acc tail eq) hb hd]
      exact illegalCommand_alike h

theorem stepN_alike (n : Nat) {s u : State} (h : Alike s u) : AnswersAlike (stepN n s) (stepN n u) := by
  induction n generalizing s u with
  | zero => exact .next h
  | succ n ih =>
    have hstep := step_alike h
    rw [stepN, stepN]
    generalize step s = r, step u = r' at hstep
    cases hstep with
    | next ht => exact ih ht
    | fault q => exact .fault q
    | refused q => exact .refused q

/-- Acceptance leaves nothing of an earlier command that is read (10_state R31, R39). -/
theorem accept_alike {s : State} (hs : s.schedule = []) (w opl : Word) (strl : Bool) (ph : Phase) (j k : Word)
    (acc : Byte) (tail : BitVec 24) (eq : Bool) :
    Alike (s.accept w)
      ({ s with
        opl := opl, strl := strl, phase := ph, j := j, k := k, acc := acc, tail := tail, eq := eq }.accept w) :=
  ⟨hs, rfl, trivial⟩

/-- Settles O60: the accepted states are alike, and steps keep them so. -/
theorem hiddenFieldsDoNotLeak : Obligations.HiddenFieldsDoNotLeak := by
  intro s w opl strl ph j k acc tail eq n hs
  have h := stepN_alike n (accept_alike hs w opl strl ph j k acc tail eq)
  revert h
  generalize stepN n _ = r, stepN n _ = r'
  intro h
  cases h with
  | next ht => exact ht.visible
  | fault q => rfl
  | refused q => rfl

end Sys2Proof.Machine

/-! PROOFS. From a state that meets the invariant only an unwritten byte stops the machine (20_memory R60,
70_reset_and_hazards R204): the invariant bounds the index each phase works at, and so its access, by the capacity. -/

namespace Sys2Proof.Machine

/-! ### Answers with no other fault -/

/-- The answer is no fault but that of an unwritten byte, one that exists (70_reset_and_hazards R204). -/
inductive UnwrittenFaultOnly (caps : Caps) : Result → Prop
  | next (t : State) : UnwrittenFaultOnly caps (.next t)
  | refused (q : Refusal) : UnwrittenFaultOnly caps (.refused q)
  | unwritten (sp : Space) (a : Nat) (ha : a < caps.size sp) : UnwrittenFaultOnly caps (.fault (.unwritten sp a))

theorem ite_unwrittenFaultOnly {caps : Caps} {p : Prop} [Decidable p] {r u : Result}
    (hr : p → UnwrittenFaultOnly caps r) (hu : ¬ p → UnwrittenFaultOnly caps u) :
    UnwrittenFaultOnly caps (if p then r else u) := by
  split
  · exact hr ‹_›
  · exact hu ‹_›

/-! ### The micro-steps, operation by operation -/

section
variable {caps : Caps} {s : State} {i : Instr} {m : List Byte}

/-- A read below the capacity faults itself only where nothing is written. -/
theorem memRead_unwrittenFaultOnly {sp : Space} {a : Nat} {next : Byte → Result} (ha : a < s.caps.size sp)
    (hn : ∀ b, UnwrittenFaultOnly s.caps (next b)) : UnwrittenFaultOnly s.caps (memRead sp a s next) := by
  unfold memRead
  rw [if_pos ha]
  split
  · exact hn _
  · exact .unwritten sp a ha

/-- A bit of the payload is there when the message has been read (41_framer R111). -/
theorem payloadBit_unwrittenFaultOnly {j : Nat} {next : Bool → Result} (hm : s.messageIs m) (hj : j < s.nBits)
    (hn : ∀ w, UnwrittenFaultOnly caps (next w)) : UnwrittenFaultOnly caps (payloadBit m j s next) := by
  obtain ⟨w, -, he⟩ := payloadBit_of_message (next := next) hm hj
  rw [he]
  exact hn w

theorem decodeStep_unwrittenFaultOnly (readsMsg : Bool) : UnwrittenFaultOnly caps (decodeStep readsMsg s) :=
  ite_unwrittenFaultOnly (fun _ => .next _) fun _ => ite_unwrittenFaultOnly (fun _ => .next _) fun _ => .next _

theorem gateThen_unwrittenFaultOnly (next : Phase) : UnwrittenFaultOnly caps (gateThen next s) :=
  ite_unwrittenFaultOnly (fun _ => .next _) fun _ => .next _

theorem gateVerdict_unwrittenFaultOnly (i : Instr) : UnwrittenFaultOnly caps (gateVerdict i s) := by
  cases i with
  | identify => exact .next _
  | embed | check | extract => exact gateThen_unwrittenFaultOnly _

/-- The gate reads `CAR[0]` and `CAR[1]`, which every carrier memory has (00_scope R10). -/
theorem sniffGate_unwrittenFaultOnly (b0 : Option Byte) (i : Instr) :
    UnwrittenFaultOnly s.caps (sniffGate b0 s (gateVerdict i)) := by
  have hcap := carCap_ge s.caps
  cases b0 with
  | none =>
    exact ite_unwrittenFaultOnly
      (fun _ => memRead_unwrittenFaultOnly (sp := .car) (Nat.zero_lt_of_lt hcap) fun _ => .next _)
      fun _ => gateVerdict_unwrittenFaultOnly i
  | some b => exact memRead_unwrittenFaultOnly (sp := .car) hcap fun _ => gateVerdict_unwrittenFaultOnly i

theorem validateStep_unwrittenFaultOnly (hc : s.msgLen.toNat ≤ s.caps.msgCap) :
    UnwrittenFaultOnly s.caps (validateStep m s) :=
  ite_unwrittenFaultOnly
    (fun hlt => memRead_unwrittenFaultOnly (sp := .msg) (Nat.lt_of_lt_of_le hlt hc) fun _ => .next _)
    fun _ => ite_unwrittenFaultOnly (fun _ => .next _) fun _ => .next _

theorem embedCapchk_unwrittenFaultOnly : UnwrittenFaultOnly caps (embedCapchk m s) :=
  ite_unwrittenFaultOnly (fun _ => .next _) fun _ => .next _

theorem checkCapchk_unwrittenFaultOnly : UnwrittenFaultOnly caps (checkCapchk m s) :=
  ite_unwrittenFaultOnly (fun _ => .next _) fun _ => .next _

theorem walkLoop_unwrittenFaultOnly : UnwrittenFaultOnly caps (walkLoop m s) :=
  ite_unwrittenFaultOnly (fun _ => .next _) fun _ => .next _

theorem walkAdjust_unwrittenFaultOnly (b : Byte) (want : Bool) : UnwrittenFaultOnly caps (walkAdjust m b want s) :=
  ite_unwrittenFaultOnly (fun _ => .next _) fun _ => walkLoop_unwrittenFaultOnly

theorem checkLoop_unwrittenFaultOnly : UnwrittenFaultOnly caps (checkLoop m s) :=
  ite_unwrittenFaultOnly (fun _ => .next _) fun _ => .next _

theorem bofLoop_unwrittenFaultOnly : UnwrittenFaultOnly caps (bofLoop s) :=
  ite_unwrittenFaultOnly (fun _ => .next _) fun _ => ite_unwrittenFaultOnly (fun _ => .next _) fun _ => .next _

/-- The carrier byte of a payload bit is inside the memory when the payload fits (43_engine R142, R151). -/
theorem State.MessageFits.carrier_lt (hf : s.MessageFits i m) {j : Nat} (hj : j < s.nBits) :
    hdr + j < s.caps.size .car := by
  obtain ⟨⟨hcar, -⟩, -, -, hfits⟩ := hf
  rw [size_car]
  omega

theorem walkRead_unwrittenFaultOnly (hf : s.MessageFits .embed m) (hj : s.j.toNat < s.nBits) :
    UnwrittenFaultOnly s.caps (walkRead m s) :=
  have ⟨_, hm, _, _⟩ := hf
  memRead_unwrittenFaultOnly (hf.carrier_lt hj) fun b =>
    payloadBit_unwrittenFaultOnly (s := { s with pos := BitVec.ofNat 32 (hdr + s.j.toNat) }) hm hj fun want =>
      walkAdjust_unwrittenFaultOnly b want

theorem walkWrite_unwrittenFaultOnly (b b2 : Byte) (hf : s.MessageFits .embed m) (hj : s.j.toNat < s.nBits) :
    UnwrittenFaultOnly s.caps (walkWrite m b b2 s) := by
  unfold walkWrite
  rw [memWrite_below (hf.carrier_lt hj)]
  exact walkLoop_unwrittenFaultOnly

theorem checkProbe_unwrittenFaultOnly (hf : s.MessageFits .check m) (hj : s.j.toNat < s.nBits) :
    UnwrittenFaultOnly s.caps (checkProbe m s) :=
  have ⟨_, hm, _, _⟩ := hf
  memRead_unwrittenFaultOnly (hf.carrier_lt hj) fun _ =>
    payloadBit_unwrittenFaultOnly hm hj fun _ => checkLoop_unwrittenFaultOnly

/-- The BOF probe stays below `SCAN_START`, so inside a carrier of at least that size (43_engine R155). -/
theorem bofProbe_unwrittenFaultOnly (hc : s.configured .extract) (hsize : scanStart ≤ s.carSize.toNat)
    (hj : s.j.toNat < bofBits) : UnwrittenFaultOnly s.caps (bofProbe s) := by
  obtain ⟨hcar, -⟩ := hc
  refine memRead_unwrittenFaultOnly ?_ fun _ => bofLoop_unwrittenFaultOnly
  unfold hdr scanStart bofBits at *
  rw [size_car]
  omega

theorem bofStart_unwrittenFaultOnly (hc : s.configured .extract) : UnwrittenFaultOnly s.caps (bofStart s) :=
  ite_unwrittenFaultOnly (fun _ => .next _) fun hsize =>
    bofProbe_unwrittenFaultOnly (s := { s with eq := true, j := 0#32 }) hc (Nat.le_of_not_lt hsize)
      (show (0#32).toNat < bofBits by decide)

theorem scanByte_unwrittenFaultOnly {k : Nat} (hc : s.configured .extract) (hk : k < chunk)
    (hroom : s.pos.toNat + chunk ≤ s.carSize.toNat) : UnwrittenFaultOnly s.caps (scanByte k s) := by
  obtain ⟨hcar, -⟩ := hc
  refine memRead_unwrittenFaultOnly ?_ fun _ => .next _
  rw [size_car]
  omega

theorem scanHead_unwrittenFaultOnly (hc : s.configured .extract) : UnwrittenFaultOnly s.caps (scanHead s) :=
  ite_unwrittenFaultOnly (fun _ => .next _) fun hroom =>
    scanByte_unwrittenFaultOnly (s := { s with acc := 0#8 }) hc (by decide) (Nat.le_of_not_lt hroom)

/-- The store's own guard keeps it inside `OUT` (43_engine R163). -/
theorem scanStore_unwrittenFaultOnly : UnwrittenFaultOnly s.caps (scanStore s) := by
  rw [scanStore_eq]
  refine ite_unwrittenFaultOnly (fun _ => .next _) fun hk => ?_
  rw [memWrite_below (Nat.lt_of_not_le hk), afterScanStore_eq]
  exact ite_unwrittenFaultOnly (fun _ => .next _) fun _ => .next _

theorem scanStep_unwrittenFaultOnly {k : Nat} (hc : s.configured .extract)
    (hroom : 0 < k → s.pos.toNat + chunk ≤ s.carSize.toNat) : UnwrittenFaultOnly s.caps (scanStep k s) :=
  ite_unwrittenFaultOnly (fun _ => scanHead_unwrittenFaultOnly hc) fun hk0 =>
    ite_unwrittenFaultOnly (fun hk => scanByte_unwrittenFaultOnly hc hk (hroom (Nat.pos_of_ne_zero hk0)))
      fun _ => scanStore_unwrittenFaultOnly

end

/-! ### The commands: under the invariant each phase is one the latched command has (43_engine R140) -/

section
variable {s : State} {i : Instr} {m : List Byte}

theorem exec_decode (i : Instr) (hp : s.phase = .decode) : exec i s = decodeStep (readsMessage i) s := by
  cases i with
  | identify => exact exec_identify_decode hp
  | embed => exact exec_embed_decode hp
  | check => exact exec_check_decode hp
  | extract => exact exec_extract_decode hp

theorem exec_sniff {b0 : Option Byte} (i : Instr) (hp : s.phase = .sniff b0) :
    exec i s = sniffGate b0 s (gateVerdict i) := by
  cases i with
  | identify => exact exec_identify_sniff hp
  | embed => exact exec_embed_sniff hp
  | check => exact exec_check_sniff hp
  | extract => exact exec_extract_sniff hp

theorem exec_validate (hi : readsMessage i = true) (hp : s.phase = .validate m) : exec i s = validateStep m s := by
  cases i with
  | embed => exact exec_embed_validate hp
  | check => exact exec_check_validate hp
  | identify | extract => cases hi

theorem exec_capchk_unwrittenFaultOnly (hi : readsMessage i = true) (hp : s.phase = .capchk m) :
    UnwrittenFaultOnly s.caps (exec i s) := by
  cases i with
  | embed => rw [exec_embed_capchk hp]; exact embedCapchk_unwrittenFaultOnly
  | check => rw [exec_check_capchk hp]; exact checkCapchk_unwrittenFaultOnly
  | identify | extract => cases hi

theorem exec_walk_unwrittenFaultOnly {next : WalkStep} (hd : decode s.opl = .ok .embed)
    (hp : s.phase = .walk m next) (hok : s.phaseOk) : UnwrittenFaultOnly s.caps (exec .embed s) := by
  obtain ⟨hf, hj, -⟩ := (phaseOk_walk hd hp).mp hok
  cases next with
  | read => rw [exec_embed_walkRead hp]; exact walkRead_unwrittenFaultOnly hf hj
  | write b b2 => rw [exec_embed_walkWrite hp]; exact walkWrite_unwrittenFaultOnly b b2 hf hj

theorem exec_checkProbe_unwrittenFaultOnly {next : ProbeStep} (hd : decode s.opl = .ok .check)
    (hp : s.phase = .probe m next) (hok : s.phaseOk) : UnwrittenFaultOnly s.caps (exec .check s) := by
  obtain ⟨hf, hj, -⟩ := (phaseOk_checkProbe hd hp).mp hok
  cases next with
  | start =>
    rw [exec_check_probeFirst hp]
    exact checkProbe_unwrittenFaultOnly (s := { s with eq := true }) hf hj
  | read => rw [exec_check_probeNext hp]; exact checkProbe_unwrittenFaultOnly hf hj

theorem exec_bofProbe_unwrittenFaultOnly {next : ProbeStep} (hd : decode s.opl = .ok .extract)
    (hp : s.phase = .probe m next) (hok : s.phaseOk) : UnwrittenFaultOnly s.caps (exec .extract s) := by
  obtain ⟨hc, -, hstep⟩ := (phaseOk_bofProbe hd hp).mp hok
  cases next with
  | start => rw [exec_extract_probeFirst hp]; exact bofStart_unwrittenFaultOnly hc
  | read =>
    obtain ⟨hsize, hj⟩ := hstep
    rw [exec_extract_probeNext hp]
    exact bofProbe_unwrittenFaultOnly hc hsize hj

theorem exec_scan_unwrittenFaultOnly {k : Nat} (hd : decode s.opl = .ok .extract)
    (hp : s.phase = .scan k) (hok : s.phaseOk) : UnwrittenFaultOnly s.caps (exec .extract s) := by
  obtain ⟨⟨hc, -⟩, -, hroom⟩ := (phaseOk_scan hd hp).mp hok
  rw [exec_extract_scan hp]
  exact scanStep_unwrittenFaultOnly hc hroom

/-- Only EMBED walks. -/
theorem walk_command {next : WalkStep} (hd : decode s.opl = .ok i) (hp : s.phase = .walk m next) (hok : s.phaseOk) :
    i = .embed := by
  simp only [State.phaseOk, hp, hd, Except.ok.injEq] at hok
  exact hok.1

/-- Only CHECK and EXTRACT probe. -/
theorem probe_command {next : ProbeStep} (hd : decode s.opl = .ok i) (hp : s.phase = .probe m next)
    (hok : s.phaseOk) : i = .check ∨ i = .extract := by
  simp only [State.phaseOk, hp, hd, Except.ok.injEq] at hok
  exact hok.imp And.left And.left

/-- Only EXTRACT scans. -/
theorem scan_command {k : Nat} (hd : decode s.opl = .ok i) (hp : s.phase = .scan k) (hok : s.phaseOk) :
    i = .extract := by
  simp only [State.phaseOk, hp, hd, Except.ok.injEq] at hok
  exact hok.1

theorem exec_unwrittenFaultOnly (hs : s.Inv) (hb : s.status.busy = true) (hd : decode s.opl = .ok i) :
    UnwrittenFaultOnly s.caps (exec i s) := by
  have hok := hs.phaseOk
  cases hp : s.phase with
  | idle => exact absurd hp (hs.busyPhase.mp hb)
  | decode => rw [exec_decode i hp]; exact decodeStep_unwrittenFaultOnly _
  | sniff b0 => rw [exec_sniff i hp]; exact sniffGate_unwrittenFaultOnly b0 i
  | validate m =>
    obtain ⟨-, -, -, hi, -, hmsg⟩ := (phaseOk_validate hd hp).mp hok
    rw [exec_validate hi hp]
    exact validateStep_unwrittenFaultOnly (hmsg hi)
  | capchk m =>
    obtain ⟨-, -, -, hi, -⟩ := (phaseOk_capchk hd hp).mp hok
    exact exec_capchk_unwrittenFaultOnly hi hp
  | walk m next =>
    obtain rfl := walk_command hd hp hok
    exact exec_walk_unwrittenFaultOnly hd hp hok
  | probe m next =>
    obtain rfl | rfl := probe_command hd hp hok
    · exact exec_checkProbe_unwrittenFaultOnly hd hp hok
    · exact exec_bofProbe_unwrittenFaultOnly hd hp hok
  | scan k =>
    obtain rfl := scan_command hd hp hok
    exact exec_scan_unwrittenFaultOnly hd hp hok
  | endCmd => simp [State.phaseOk, hp] at hok

end

/-! ### The turns -/

section
variable {s : State}

/-- A word that selects no command is in no phase but `DECODE`, where it ends (60_exceptions R186). -/
theorem illegalCommand_unwrittenFaultOnly {e : Reject} (hs : s.Inv) (hb : s.status.busy = true)
    (hd : decode s.opl = .error e) : UnwrittenFaultOnly s.caps (illegalCommand s) := by
  have hok := hs.phaseOk
  unfold illegalCommand
  cases hp : s.phase with
  | decode => exact .next _
  | idle => exact absurd hp (hs.busyPhase.mp hb)
  | _ => simp [State.phaseOk, hp, hd] at hok

theorem engineTurn_unwrittenFaultOnly (hs : s.Inv) : UnwrittenFaultOnly s.caps (engineTurn s) := by
  cases hb : s.status.busy with
  | false => rw [engineTurn_idle hb]; exact .next s
  | true =>
    cases hd : decode s.opl with
    | ok i => rw [engineTurn_command hb hd]; exact exec_unwrittenFaultOnly hs hb hd
    | error e => rw [engineTurn_illegal hb hd]; exact illegalCommand_unwrittenFaultOnly hs hb hd

theorem hostRead_unwrittenFaultOnly {sp : Space} {a : Nat} (ha : a < s.caps.size sp) :
    UnwrittenFaultOnly s.caps (hostRead sp a s) := by
  refine ite_unwrittenFaultOnly (fun _ => .next _) fun _ => ?_
  split
  · exact .next _
  · exact .unwritten sp a ha

/-- The host reads no byte that does not exist: the access is refused (70_reset_and_hazards R206). -/
theorem hostAccess_unwrittenFaultOnly (a : HostAccess) : UnwrittenFaultOnly s.caps (hostAccess a s) := by
  refine ite_unwrittenFaultOnly (fun hwf => ?_) fun _ => .refused _
  cases a with
  | memRead sp x => exact hostRead_unwrittenFaultOnly (by simpa [HostAccess.wellFormed] using hwf)
  | regWrite | regRead | memWrite => exact .next _

theorem takeTurn_unwrittenFaultOnly (hs : s.Inv) (turn : Turn) : UnwrittenFaultOnly s.caps (takeTurn turn s) := by
  cases turn with
  | engine => exact engineTurn_unwrittenFaultOnly hs
  | host a => exact hostAccess_unwrittenFaultOnly a
  | secondHost a => exact .refused _
  | wait | reset | powerOn => exact .next _

theorem step_unwrittenFaultOnly (hs : s.Inv) : UnwrittenFaultOnly s.caps (step s) := by
  cases hsched : s.schedule with
  | nil =>
    rw [step, scheduledTurn, hsched]
    exact engineTurn_unwrittenFaultOnly hs
  | cons turn rest =>
    rw [step_turn hsched]
    exact takeTurn_unwrittenFaultOnly (hs.setModelFields rest s.hostGot s.draws) turn

end

/-- Settles O42: every turn, the engine's by the phases of the invariant, answers no other fault. -/
theorem onlyUnwrittenBytesFault : Obligations.OnlyUnwrittenBytesFault := by
  intro s r hs h
  have hstep := step_unwrittenFaultOnly hs
  rw [h] at hstep
  cases hstep with
  | unwritten sp a ha => exact ⟨sp, a, rfl, ha⟩

end Sys2Proof.Machine

/-! PROOFS. The host's memory accesses while idle (20_memory R59, R61). -/

namespace Sys2Proof.Machine

theorem hostAccess_memWrite_idle {s : State} {sp : Space} {a : Word} {b : Byte} (hb : s.status.busy = false)
    (ha : a.toNat < s.caps.size sp) :
    hostAccess (.memWrite sp a b) s = .next (s.setMem sp ((s.mem sp).write a.toNat b)) := by
  rw [hostAccess_memWrite b ha]
  simp [State.hostWrite, hb]

theorem hostAccess_memRead_idle {s : State} {sp : Space} {a : Word} {b : Byte} (hb : s.status.busy = false)
    (ha : a.toNat < s.caps.size sp) (hr : (s.mem sp).read a.toNat = some b) :
    hostAccess (.memRead sp a) s = .next { s with hostGot := .byte b } := by
  rw [hostAccess_memRead ha]
  simp [hostRead, hb, hr]

/-- A step whose turn is a memory write by the host of an idle block. -/
theorem step_memWrite_idle {s : State} {rest : List Turn} {sp : Space} {a : Word} {b : Byte}
    (hb : s.status.busy = false) (ha : a.toNat < s.caps.size sp) (hs : s.schedule = .host (.memWrite sp a b) :: rest) :
    step s = .next ({ s with schedule := rest }.setMem sp ((s.mem sp).write a.toNat b)) := by
  rw [step_turn hs, takeTurn_host]
  exact hostAccess_memWrite_idle hb ha

/-- A step whose turn is a read by the host of an idle block, of a written byte. -/
theorem step_memRead_idle {s : State} {rest : List Turn} {sp : Space} {a : Word} {b : Byte}
    (hb : s.status.busy = false) (ha : a.toNat < s.caps.size sp) (hr : (s.mem sp).read a.toNat = some b)
    (hs : s.schedule = .host (.memRead sp a) :: rest) :
    step s = .next { s with schedule := rest, hostGot := .byte b } := by
  rw [step_turn hs, takeTurn_host]
  exact hostAccess_memRead_idle hb ha hr

/-- A byte written to a memory reads back, and no other byte of any memory changes. -/
theorem read_setMem_write (s : State) (sp sp' : Space) (a x : Nat) (b : Byte) :
    ((s.setMem sp ((s.mem sp).write a b)).mem sp').read x =
      if sp' = sp ∧ x = a then some b else (s.mem sp').read x := by
  rw [mem_setMem]
  by_cases hsp : sp' = sp
  · subst hsp
    by_cases hx : x = a
    · subst hx
      simp
    · simp [hx, read_write_other]
  · simp [hsp]

/-- Settles O14: the two steps are the write and the read of one byte. -/
theorem idleHostWriteReadsBack : Obligations.IdleHostWriteReadsBack := by
  intro s rest sp a b hb ha hs
  have hread (sp' : Space) (x : Nat) := read_setMem_write s sp sp' a.toNat x b
  have hback := (hread sp a.toNat).trans (if_pos ⟨rfl, rfl⟩)
  refine ⟨{ s.setMem sp ((s.mem sp).write a.toNat b) with schedule := rest, hostGot := .byte b }, ?_, rfl, hback,
    fun sp' x hx => (hread sp' x).trans (if_neg fun ⟨hsp, hxa⟩ => hx.elim (· hsp) (· hxa)), by cases sp <;> rfl⟩
  rw [stepN_succ 1 (step_memWrite_idle hb ha hs), stepN_one]
  cases sp <;> exact step_memRead_idle hb ha hback rfl

end Sys2Proof.Machine

/-! PROOFS. The command words (30_encoding R70, R71, R74, 60_exceptions R186): the decoder inverts the encoder and
rejects every other word, and a word it rejects ends its command at the decode micro-step. -/

namespace Sys2Proof.Machine

/-! ### The decoder -/

/-- The opcode map selects a command by that command's own `OP`. -/
theorem decodeOp_eq_ok_iff (op : BitVec 4) (i : Instr) : decodeOp op = .ok i ↔ op = opOf i := by
  constructor
  · intro h
    unfold decodeOp at h
    split_ifs at h with h1 h2 h3 h4 <;> cases h <;> assumption
  · rintro rfl
    cases i <;> rfl

/-- A word selects a command exactly when `RSV` is zero and `OP` selects it. -/
theorem decode_eq_ok_iff_fields (w : Word) (i : Instr) :
    decode w = .ok i ↔ rsvField w = 0#28 ∧ opField w = opOf i := by
  rw [decode, ← decodeOp_eq_ok_iff]
  split <;> simp [*]

/-- `RSV` and `OP` are the whole word. -/
theorem rsvField_append_opField (w : Word) : rsvField w ++ opField w = w :=
  BitVec.extractLsb'_append_extractLsb'

theorem decode_eq_ok_iff (w : Word) (i : Instr) : decode w = .ok i ↔ w = encode i := by
  constructor
  · intro h
    obtain ⟨hrsv, hop⟩ := (decode_eq_ok_iff_fields w i).mp h
    rw [← rsvField_append_opField w, hrsv, hop, encode]
  · rintro rfl
    exact decode_encode i

/-- A word that is no command's is rejected. -/
theorem exists_decode_eq_error {w : Word} (hw : ∀ i, w ≠ encode i) : ∃ e, decode w = .error e := by
  cases hd : decode w with
  | ok i => exact absurd ((decode_eq_ok_iff w i).mp hd) (hw i)
  | error e => exact ⟨e, rfl⟩

/-- Settles O1: a word is its two fields, `RSV` must be zero, and the opcode map inverts `opOf`. -/
theorem eachCommandHasOneWord : Obligations.EachCommandHasOneWord :=
  ⟨⟨rfl, rfl, rfl, rfl⟩, decode_eq_ok_iff⟩

/-- Settles O2: the legal words are encodings; the illegal ones, all closed, are decoded. -/
theorem specWordsDecode : Obligations.SpecWordsDecode :=
  ⟨decode_encode .identify, decode_encode .embed, decode_encode .check, decode_encode .extract, by decide⟩

/-! ### A rejected word's one micro-step -/

theorem illegalCommand_decode {s : State} (hp : s.phase = .decode) :
    illegalCommand s = .next (s.raised .illegalCommand 0#32) := by
  simp [illegalCommand, hp, raise]

/-- A step of a busy block without a host turn, at `DECODE` of a word that selects no command. -/
theorem step_illegal_decode {s : State} {e : Reject} (hs : s.schedule = []) (hb : s.status.busy = true)
    (hd : decode s.opl = .error e) (hp : s.phase = .decode) : step s = .next (s.raised .illegalCommand 0#32) := by
  rw [step, scheduledTurn, hs]
  exact (engineTurn_illegal hb hd).trans (illegalCommand_decode hp)

/-- A step whose turn is the host's write of `w` to `CMD` of an idle block is acceptance (10_state R31). -/
theorem step_cmdWrite_idle {s : State} {w : Word} {rest : List Turn} (hb : s.status.busy = false)
    (hs : s.schedule = .host (.regWrite { offset := 0x00#32, bytes := 4 } w) :: rest) :
    step s = .next { s.accept w with schedule := rest } := by
  rw [step_regWrite (by decide) hs]
  exact congrArg _ (writeReg_cmd_idle (s := { s with schedule := rest }) hb w)

/-- Settles O5: acceptance leaves the block at `DECODE` of a rejected word, whose micro-step raises. -/
theorem illegalWordEndsAtDecode : Obligations.IllegalWordEndsAtDecode := by
  intro s w hw hb hs
  obtain ⟨e, he⟩ := exists_decode_eq_error hw
  exact ⟨{ s.accept w with schedule := [] }, step_cmdWrite_idle hb hs, rfl, rfl, _,
    step_illegal_decode rfl rfl he rfl, rfl, rfl, rfl, rfl, rfl, rfl, rfl, rfl, rfl, rfl⟩

end Sys2Proof.Machine

/-! PROOFS. The sniffer (40_sniffer R101), the gate every command passes (R102), and IDENTIFY (R103, R104). -/

namespace Sys2Proof.Machine

/-! ### The comparator's verdict -/

theorem formatCode_eq_one_iff (f : Format) : formatCode f = 1#2 ↔ f = .bmp := by cases f <;> decide

theorem formatCode_eq_two_iff (f : Format) : formatCode f = 2#2 ↔ f = .ppm := by cases f <;> decide

theorem sniff_of_short (b0 b1 : Byte) {n : Nat} (strict : Bool) (hn : n < 2) : sniff b0 b1 n strict = .unsupported :=
  if_pos hn

/-- From two bytes on the carrier's size does not matter. -/
theorem sniff_of_two_le (b0 b1 : Byte) {n : Nat} (strict : Bool) (hn : 2 ≤ n) :
    sniff b0 b1 n strict = sniff b0 b1 2 strict :=
  if_neg (Nat.not_lt_of_le hn)

theorem sniff_eq_bmp_iff (b0 b1 : Byte) (n : Nat) (strict : Bool) :
    sniff b0 b1 n strict = .bmp ↔ 2 ≤ n ∧ b0 = 0x42#8 ∧ b1 = 0x4D#8 := by
  obtain hn | hn := Nat.lt_or_ge n 2
  · simp [sniff_of_short, hn]
  · rw [sniff_of_two_le b0 b1 strict hn, sniff, if_neg (by decide), and_iff_right hn]
    split_ifs with hbmp <;> simp [hbmp]

/-- The two magics begin with different bytes, so the rows of PPM hold exactly where that of BMP does not hide them. -/
theorem sniff_eq_ppm_iff (b0 b1 : Byte) (n : Nat) (strict : Bool) :
    sniff b0 b1 n strict = .ppm ↔ 2 ≤ n ∧ b0 = 0x50#8 ∧ (b1 = 0x36#8 ∨ strict = true ∧ b1 = 0x33#8) := by
  obtain hn | hn := Nat.lt_or_ge n 2
  · simp [sniff_of_short, hn]
  · rw [sniff_of_two_le b0 b1 strict hn, sniff, if_neg (by decide), and_iff_right hn]
    split_ifs with hbmp hppm hstrict
    · simp [hbmp]
    · simp [hppm]
    · simp [hstrict]
    · simp only [false_iff]
      tauto

/-- Settles O16: each code stands for one verdict, and the comparator gives it on the bytes of its rows. -/
theorem sniffVerdict : Obligations.SniffVerdict := fun b0 b1 n strict =>
  ⟨(formatCode_eq_one_iff _).trans (sniff_eq_bmp_iff b0 b1 n strict),
    (formatCode_eq_two_iff _).trans (sniff_eq_ppm_iff b0 b1 n strict), formatCode_ne_three _⟩

/-! ### The gate, micro-step by micro-step -/

section
variable {s : State} {verdict : State → Result}

/-- A carrier of fewer than two bytes is not read (R102). -/
theorem sniffGate_short (hn : s.carSize.toNat < 2) : sniffGate none s verdict = verdict (s.setFmt .unsupported) := by
  rw [sniffGate, if_neg (Nat.not_le_of_lt hn), sniff_of_short _ _ _ hn]

theorem sniffGate_first {b : Byte} (hn : 2 ≤ s.carSize.toNat) (hb : s.car.read 0 = some b) :
    sniffGate none s verdict = .next { s with phase := .sniff (some b) } := by
  rw [sniffGate, if_pos hn, memRead_some (sp := .car) (Nat.zero_lt_of_lt (carCap_ge s.caps)) hb]

theorem sniffGate_second {b0 b1 : Byte} (hb : s.car.read 1 = some b1) :
    sniffGate (some b0) s verdict = verdict (s.setFmt (sniff b0 b1 s.carSize.toNat s.strl)) :=
  memRead_some (sp := .car) (carCap_ge s.caps) hb

end

theorem gateThen_unsupported (next : Phase) (s : State) :
    gateThen next (s.setFmt .unsupported) = .next ((s.setFmt .unsupported).raised .unsupportedFormat 0#32) :=
  if_pos rfl

theorem gateThen_supported (next : Phase) (s : State) {f : Format} (hf : f ≠ .unsupported) :
    gateThen next (s.setFmt f) = .next { s.setFmt f with phase := next } :=
  if_neg hf

/-- EMBED and CHECK go on to the validate phase, EXTRACT to its probe (R102). -/
theorem gateVerdict_eq_gateThen {i : Instr} (hi : i ≠ .identify) :
    gateVerdict i = gateThen (if i = .extract then .probe [] .start else .validate []) := by
  cases i with
  | identify => exact absurd rfl hi
  | embed | check | extract => rfl

/-- Settles O24: every command's gate begins with the read of `CAR[0]`, which every carrier memory has. -/
theorem gateReadsFirstByte : Obligations.GateReadsFirstByte := fun _ i _ hp hn hb =>
  (exec_sniff i hp).trans (sniffGate_first hn hb)

/-- Settles O25: IDENTIFY's gate ends with `finish`, whatever the verdict. -/
theorem identifyFinishesWithVerdict : Obligations.IdentifyFinishesWithVerdict := fun _ =>
  ⟨fun hp hn => (exec_identify_sniff hp).trans (sniffGate_short hn),
    fun _ _ hp hb => (exec_identify_sniff hp).trans (sniffGate_second hb)⟩

/-- Settles O26: the other commands' gate ends with `gateThen`, which raises exactly on an unsupported verdict. -/
theorem gateAdmitsSupportedCarriers : Obligations.GateAdmitsSupportedCarriers := by
  intro s i hi
  have hgate {b0 : Option Byte} (hp : s.phase = .sniff b0) := exec_sniff i hp
  rw [gateVerdict_eq_gateThen hi] at hgate
  refine ⟨fun hp hn => ?_, fun b0 b1 hp hb => ⟨fun hf => ?_, fun hf => ?_⟩⟩
  · rw [hgate hp, sniffGate_short hn]
    exact gateThen_unsupported _ s
  · rw [hgate hp, sniffGate_second hb, hf]
    exact gateThen_unsupported _ s
  · rw [hgate hp, sniffGate_second hb]
    exact gateThen_supported _ s hf

/-! ### IDENTIFY -/

/-- Settles O36: IDENTIFY's operations are the decode and the gate; only the decode's error clears `POS` and
`OUT_LEN`. -/
theorem identifyFrame : Obligations.IdentifyFrame := by
  intro s t h
  obtain ⟨f, hf, he⟩ := exec_identify_microOp s.phase
  rw [he s rfl] at h
  generalize s.phase = ph at hf
  cases hf with
  | decode =>
    obtain ⟨he, -⟩ | ⟨he, -⟩ := decodeStep_cases (readsMessage .identify) s <;> rw [he] at h <;> cases h
    · exact ⟨rfl, .inr rfl, .inr rfl⟩
    · exact ⟨rfl, .inl rfl, .inl rfl⟩
  | sniff _ b0 =>
    obtain ⟨-, -, b, -, rfl⟩ | ⟨f, h⟩ := sniffGate_next h
    · exact ⟨rfl, .inl rfl, .inl rfl⟩
    · cases h
      exact ⟨rfl, .inl rfl, .inl rfl⟩
  | validate _ m hi => cases hi
  | endCmd =>
    cases h
    exact ⟨rfl, .inl rfl, .inl rfl⟩
  | none => cases h

theorem decodeStep_configured {s : State} {i : Instr} (hc : s.configured i) :
    decodeStep (readsMessage i) s = .next { s with phase := .sniff none } := by
  obtain ⟨hcar, hmsg⟩ := hc
  obtain ⟨-, hbad⟩ | ⟨he, -⟩ := decodeStep_cases (readsMessage i) s
  · exact hbad.elim (fun h => absurd hcar (Nat.not_le_of_lt h)) fun ⟨hi, h⟩ => absurd (hmsg hi) (Nat.not_le_of_lt h)
  · exact he

/-- The state in the gate, `b0` being what the gate has read so far, of a command accepted in `s`. -/
def State.atGate (s : State) (i : Instr) (b0 : Option Byte) : State :=
  { s.accept (encode i) with phase := .sniff b0 }

theorem step_atGate {s : State} (hs : s.schedule = []) (i : Instr) (b0 : Option Byte) :
    step (s.atGate i b0) = sniffGate b0 (s.atGate i b0) (gateVerdict i) :=
  (step_command (s := s.atGate i b0) hs rfl (decode_encode i)).trans (exec_sniff i rfl)

theorem step_accept_configured {s : State} {i : Instr} (hs : s.schedule = []) (hc : s.configured i) :
    step (s.accept (encode i)) = .next (s.atGate i none) := by
  rw [step_command (s := s.accept (encode i)) hs rfl (decode_encode i), exec_decode i rfl]
  exact decodeStep_configured (s := s.accept (encode i)) hc

/-- From acceptance every command that is set up comes to the gate's verdict, in one micro-step for the decode and one
or two for the gate (R102). -/
theorem stepN_accept_gateVerdict {s : State} {i : Instr} {f : Format} (hr : s.ready i) (hf : s.sniffs f) :
    ∃ n b0, n ≤ 3 ∧ stepN n (s.accept (encode i)) = gateVerdict i ((s.atGate i b0).setFmt f) := by
  obtain ⟨-, hs, hc⟩ := hr
  have hdecode := step_accept_configured hs hc
  have hgate := step_atGate hs i
  obtain ⟨hn, rfl⟩ | ⟨hn, b0, b1, h0, h1, rfl⟩ := hf
  · refine ⟨2, none, by decide, ?_⟩
    rw [stepN_succ 1 hdecode, stepN_one, hgate]
    exact sniffGate_short (s := s.atGate i none) hn
  · refine ⟨3, some b0, le_rfl, ?_⟩
    have hfirst : step (s.atGate i none) = .next (s.atGate i (some b0)) :=
      (hgate none).trans (sniffGate_first (s := s.atGate i none) hn h0)
    rw [stepN_succ 2 hdecode, stepN_succ 1 hfirst, stepN_one, hgate]
    exact sniffGate_second (s := s.atGate i (some b0)) h1

/-- Settles O46: IDENTIFY finishes on the gate's verdict, in a state that differs from the accepted one in `PHASE` and
`STATUS` alone. -/
theorem identifyReportsFormat : Obligations.IdentifyReportsFormat := by
  intro s f hr hf
  obtain ⟨n, b0, hn, h⟩ := stepN_accept_gateVerdict hr hf
  exact ⟨n, ((s.atGate .identify b0).setFmt f).finished, hn, h, ⟨rfl, rfl, rfl⟩, rfl, rfl, rfl, rfl, rfl, rfl, rfl, rfl⟩

end Sys2Proof.Machine

/-! PROOFS. The framer (41_framer R110, R112, R114), the payload's bits (42_bitcodec R120), and the validate phase of
EMBED and CHECK (41_framer R113). -/

namespace Sys2Proof.Machine

/-! ### Where "EOF" stands -/

theorem startsEof_iff_prefix (m : List Byte) : startsEof m = true ↔ eof <+: m := by
  rw [startsEof, beq_iff_eq, List.prefix_iff_eq_take, eof_length, eq_comm]

theorem containsEof_iff_infix (m : List Byte) : containsEof m = true ↔ eof <:+: m := by
  induction m with
  | nil => simp [containsEof, eof]
  | cons b m ih => rw [containsEof, Bool.or_eq_true, startsEof_iff_prefix, ih, List.infix_cons_iff]

theorem eof_bytes_at_iff (m : List Byte) (k : Nat) :
    (∀ (i : Nat) (h : i < eof.length), m[i + k]? = some eof[i]) ↔
      m[k]? = some 0x45#8 ∧ m[k + 1]? = some 0x4F#8 ∧ m[k + 2]? = some 0x46#8 := by
  simp only [Nat.add_comm _ k]
  constructor
  · exact fun h => ⟨h 0 (by decide), h 1 (by decide), h 2 (by decide)⟩
  · rintro ⟨hE, hO, hF⟩ i hi
    match i, hi with
    | 0, _ => exact hE
    | 1, _ => exact hO
    | 2, _ => exact hF

/-- Settles O17: "EOF" is found exactly when it is an infix, which is to stand at some index byte for byte. -/
theorem containsEofIffSomewhere : Obligations.ContainsEofIffSomewhere := fun m => by
  rw [containsEof_iff_infix, List.infix_iff_getElem?]
  exact exists_congr fun k => and_congr (by rw [eof_length, Nat.add_comm]) (eof_bytes_at_iff m k)

/-! ### The end sentinel does not begin early -/

/-- Only the byte "F" completes an "EOF". -/
theorem containsEof_concat (m : List Byte) {b : Byte} (hb : b ≠ 0x46#8) : containsEof (m ++ [b]) = containsEof m := by
  have hsuffix : ¬ eof <:+ m ++ [b] := fun ⟨p, hp⟩ => by
    have hlast : some 0x46#8 = some b := by simpa [eof] using congrArg List.getLast? hp
    exact hb (Option.some.inj hlast).symm
  rw [Bool.eq_iff_iff, containsEof_iff_infix, containsEof_iff_infix, List.infix_concat_iff, or_iff_right hsuffix]

/-- No beginning of a string without "EOF" contains "EOF". -/
theorem containsEof_of_prefix {a b : List Byte} (hab : a <+: b) (hb : containsEof b = false) :
    containsEof a = false := by
  obtain ⟨c, rfl⟩ := hab
  exact Bool.eq_false_iff.mpr fun ha => Bool.eq_false_iff.mp hb (containsEof_append_left a c ha)

/-- Settles O18: short of its last byte the stream ends in "EO" at most, which completes no "EOF". -/
theorem noEarlyEofInStream : Obligations.NoEarlyEofInStream := by
  intro m n hm hn
  have hprefix : (m ++ eof).take n <+: m ++ [0x45#8] ++ [0x4F#8] := by
    have hshort : (m ++ eof).take (m.length + 2) = m ++ [0x45#8] ++ [0x4F#8] := by
      simp [List.take_length_add_append, eof]
    exact hshort ▸ List.take_prefix_take_left (by omega)
  refine containsEof_of_prefix hprefix ?_
  rw [containsEof_concat _ (by decide), containsEof_concat _ (by decide), hm]

/-! ### The payload's bits -/

/-- Bit `k` of byte `i`'s group is the byte's bit `7 - k` (R120). -/
theorem toBits_getElem?_group {m : List Byte} {i k : Nat} {b : Byte} (hk : k < 8) (hb : m[i]? = some b) :
    (toBits m)[8 * i + k]? = some (msbBit b k) := by
  have hbyte : (8 * i + k) / 8 = i := by omega
  have hbit : (8 * i + k) % 8 = k := by omega
  rw [toBits_getElem?, hbyte, hbit, hb, Option.map_some]

/-- Settles O19: the bits by their groups, the frame by its definition. -/
theorem payloadBitsMsbFirst : Obligations.PayloadBitsMsbFirst :=
  ⟨fun s => ⟨toBits_length s, fun _ _ _ => toBits_getElem?_group⟩, fun m => ⟨rfl, frame_length m, rfl⟩⟩

/-! ### The validate phase -/

section
variable {s : State} {m : List Byte}

theorem validateStep_read {b : Byte} (hlen : m.length < s.msgLen.toNat) (hcap : m.length < s.caps.msgCap)
    (hb : s.msg.read m.length = some b) :
    validateStep m s = .next { s with phase := .validate (m ++ [b]) } := by
  rw [validateStep, if_pos hlen, memRead_some (sp := .msg) hcap hb]

/-- The micro-step after the last read: the check for "EOF" (R113). -/
theorem validateStep_all_read (hlen : s.msgLen.toNat ≤ m.length) :
    validateStep m s =
      if containsEof m then raise .malformedMessage 0#32 s else .next { s with phase := .capchk m } :=
  if_neg (Nat.not_lt_of_le hlen)

end

/-- Settles O27: the micro-step is the validate step, in its three cases. -/
theorem validateRejectsEof : Obligations.ValidateRejectsEof := by
  intro s i m hi hp
  rw [exec_validate hi hp]
  exact ⟨fun b => validateStep_read, fun hlen hm => (validateStep_all_read hlen).trans (if_pos hm),
    fun hlen hm => (validateStep_all_read hlen).trans (if_neg (Bool.eq_false_iff.mp hm))⟩

end Sys2Proof.Machine

/-! PROOFS. IDENTIFY, CHECK and EXTRACT see of the carrier only bytes 0 and 1 and the parities from 200 up (42_bitcodec
R125). Each micro-step of theirs answers the same on two carriers that agree there, but for the carrier itself; none
writes the carrier, so they agree there in the next state too. -/

namespace Sys2Proof.Machine

/-! ### A micro-step keeps the latched command and the turns to come -/

/-- The next state, if the answer has one, is as `P` says. -/
def LeadsTo (P : State → Prop) (r : Result) : Prop := ∀ t, r = .next t → P t

section
variable {P : State → Prop} {s : State}

theorem leadsTo_next (h : P s) : LeadsTo P (.next s) := by
  rintro t ⟨⟩
  exact h

theorem leadsTo_ite {p : Prop} [Decidable p] {r u : Result} (hr : LeadsTo P r) (hu : LeadsTo P u) :
    LeadsTo P (if p then r else u) := by
  split
  · exact hr
  · exact hu

theorem leadsTo_memRead {sp : Space} {a : Nat} {next : Byte → Result} (hn : ∀ b, LeadsTo P (next b)) :
    LeadsTo P (memRead sp a s next) := fun t h =>
  have ⟨_, b, _, h⟩ := memRead_next h
  hn b t h

theorem leadsTo_memWrite {sp : Space} {a : Nat} {v : Byte} {next : State → Result}
    (hn : LeadsTo P (next (s.setMem sp ((s.mem sp).write a v)))) : LeadsTo P (memWrite sp a v s next) := fun t h =>
  hn t (memWrite_next h).2

theorem leadsTo_payloadBit {m : List Byte} {j : Nat} {next : Bool → Result} (hn : ∀ w, LeadsTo P (next w)) :
    LeadsTo P (payloadBit m j s next) := fun t h =>
  have ⟨w, h⟩ := payloadBit_next h
  hn w t h

end

/-- The same command is latched and the same turns are to come. -/
def State.SameCommand (s t : State) : Prop := t.opl = s.opl ∧ t.schedule = s.schedule

/-- The operation keeps the latched command and the turns to come. -/
def KeepsCommand (f : State → Result) : Prop := ∀ s, LeadsTo s.SameCommand (f s)

section
variable {m : List Byte}

theorem gateThen_keepsCommand (next : Phase) : KeepsCommand (gateThen next) := fun _ =>
  leadsTo_ite (leadsTo_next ⟨rfl, rfl⟩) (leadsTo_next ⟨rfl, rfl⟩)

theorem gateVerdict_keepsCommand (i : Instr) : KeepsCommand (gateVerdict i) := by
  cases i with
  | identify => exact fun _ => leadsTo_next ⟨rfl, rfl⟩
  | embed | check | extract => exact gateThen_keepsCommand _

theorem sniffGate_keepsCommand (i : Instr) (b0 : Option Byte) : KeepsCommand (sniffGate b0 · (gateVerdict i)) := by
  intro s
  cases b0 with
  | none => exact leadsTo_ite (leadsTo_memRead fun _ => leadsTo_next ⟨rfl, rfl⟩) (gateVerdict_keepsCommand i (s.setFmt _))
  | some b => exact leadsTo_memRead fun _ => gateVerdict_keepsCommand i (s.setFmt _)

theorem walkLoop_keepsCommand : KeepsCommand (walkLoop m) := fun _ =>
  leadsTo_ite (leadsTo_next ⟨rfl, rfl⟩) (leadsTo_next ⟨rfl, rfl⟩)

theorem walkRead_keepsCommand : KeepsCommand (walkRead m) := fun s =>
  leadsTo_memRead fun _ => leadsTo_payloadBit fun _ =>
    leadsTo_ite (leadsTo_next ⟨rfl, rfl⟩) (walkLoop_keepsCommand { s with pos := _, j := s.j + 1#32 })

theorem checkProbe_keepsCommand : KeepsCommand (checkProbe m) := fun _ =>
  leadsTo_memRead fun _ => leadsTo_payloadBit fun _ =>
    leadsTo_ite (leadsTo_next ⟨rfl, rfl⟩) (leadsTo_next ⟨rfl, rfl⟩)

theorem bofProbe_keepsCommand : KeepsCommand bofProbe := fun _ =>
  leadsTo_memRead fun _ => leadsTo_ite (leadsTo_next ⟨rfl, rfl⟩)
    (leadsTo_ite (leadsTo_next ⟨rfl, rfl⟩) (leadsTo_next ⟨rfl, rfl⟩))

theorem scanStore_keepsCommand : KeepsCommand scanStore := fun _ =>
  leadsTo_ite (leadsTo_next ⟨rfl, rfl⟩) (leadsTo_memWrite
    (leadsTo_ite (leadsTo_next ⟨rfl, rfl⟩) (leadsTo_next ⟨rfl, rfl⟩)))

theorem scanStep_keepsCommand (k : Nat) : KeepsCommand (scanStep k) := fun s =>
  leadsTo_ite (leadsTo_ite (leadsTo_next ⟨rfl, rfl⟩) (leadsTo_memRead fun _ => leadsTo_next ⟨rfl, rfl⟩))
    (leadsTo_ite (leadsTo_memRead fun _ => leadsTo_next ⟨rfl, rfl⟩) (scanStore_keepsCommand s))

end

theorem MicroOp.keepsCommand {i : Instr} {ph : Phase} {f : State → Result} (hf : MicroOp i ph f) : KeepsCommand f := by
  intro s
  cases hf with
  | decode =>
    exact leadsTo_ite (leadsTo_next ⟨rfl, rfl⟩) (leadsTo_ite (leadsTo_next ⟨rfl, rfl⟩) (leadsTo_next ⟨rfl, rfl⟩))
  | sniff i b0 => exact sniffGate_keepsCommand i b0 s
  | validate =>
    exact leadsTo_ite (leadsTo_memRead fun _ => leadsTo_next ⟨rfl, rfl⟩)
      (leadsTo_ite (leadsTo_next ⟨rfl, rfl⟩) (leadsTo_next ⟨rfl, rfl⟩))
  | embedCapchk | checkCapchk => exact leadsTo_ite (leadsTo_next ⟨rfl, rfl⟩) (leadsTo_next ⟨rfl, rfl⟩)
  | walkRead => exact walkRead_keepsCommand s
  | walkWrite => exact leadsTo_memWrite (leadsTo_ite (leadsTo_next ⟨rfl, rfl⟩) (leadsTo_next ⟨rfl, rfl⟩))
  | checkStart => exact checkProbe_keepsCommand { s with eq := true }
  | checkRead => exact checkProbe_keepsCommand s
  | bofStart => exact leadsTo_ite (leadsTo_next ⟨rfl, rfl⟩) (bofProbe_keepsCommand { s with eq := true, j := 0#32 })
  | bofRead => exact bofProbe_keepsCommand s
  | scan k => exact scanStep_keepsCommand k s
  | endCmd => exact leadsTo_next ⟨rfl, rfl⟩
  | none => rintro t ⟨⟩

/-- A command's micro-step keeps the latched command and the turns to come. -/
theorem exec_keepsCommand (i : Instr) : KeepsCommand (exec i) := by
  intro s
  obtain ⟨f, hf, he⟩ := exec_microOp i s.phase
  rw [he s rfl]
  exact hf.keepsCommand s

/-! ### Operations that see only the parity of the byte they read -/

/-- The operation, from `s`, sees of the memories at most the parity of the carrier byte at `a`, and writes none: on a
carrier whose byte there has the same parity it commutes with replacing the memories. -/
def SeesParityOnly (f : State → Result) (s : State) (a : Nat) : Prop :=
  ∀ c m o : Memory, (c.read a).map parity = (s.car.read a).map parity →
    f (s.withMems c m o) = replaceMems c m o (f s)

theorem SeesParityOnly.readsOnly {f : State → Result} {s : State} {a : Nat} (hf : SeesParityOnly f s a) :
    ReadsOnly f s .car a := fun c m o h => hf c m o (congrArg (Option.map parity) h)

/-- A read of a carrier byte of which only the parity is used, and after which no memory is accessed. -/
theorem memRead_withMems_of_parity {a : Nat} {s : State} {c m o : Memory} {next next' : Byte → Result}
    (h : (c.read a).map parity = (s.car.read a).map parity)
    (hn : ∀ b b', parity b' = parity b → next' b' = replaceMems c m o (next b)) :
    memRead .car a (s.withMems c m o) next' = replaceMems c m o (memRead .car a s next) := by
  unfold memRead
  rw [mem_car, mem_car, withMems_car]
  refine ite_replaceMems (fun _ => ?_) fun _ => rfl
  generalize c.read a = r', s.car.read a = r at h
  cases r' with
  | none =>
    cases r with
    | none => rfl
    | some b => cases h
  | some b' =>
    cases r with
    | none => cases h
    | some b => exact hn b b' (Option.some.inj h)

theorem checkProbe_seesParityOnly (msg : List Byte) (s : State) : SeesParityOnly (checkProbe msg) s (hdr + s.j.toNat) :=
  fun c m o h => memRead_withMems_of_parity h fun b b' hb => payloadBit_withMems fun want =>
    (checkLoop_ignoresMems msg).apply_eq (by rw [hb]; rfl)

theorem bofProbe_seesParityOnly (s : State) : SeesParityOnly bofProbe s (hdr + s.j.toNat) :=
  fun c m o h => memRead_withMems_of_parity h fun b b' hb => bofLoop_ignoresMems.apply_eq (by rw [hb]; rfl)

theorem bofStart_seesParityOnly (s : State) : SeesParityOnly bofStart s hdr :=
  fun c m o h => ite_replaceMems (fun _ => rfl) fun _ =>
    bofProbe_seesParityOnly { s with eq := true, j := 0#32 } c m o h

theorem scanByte_seesParityOnly (k : Nat) (s : State) : SeesParityOnly (scanByte k) s (s.pos.toNat + k) :=
  fun c m o h => memRead_withMems_of_parity h fun b b' hb => by rw [hb]; rfl

theorem scanHead_seesParityOnly (s : State) : SeesParityOnly scanHead s s.pos.toNat :=
  fun c m o h => ite_replaceMems (fun _ => rfl) fun _ => scanByte_seesParityOnly 0 { s with acc := 0#8 } c m o h

/-! ### Replacing the carrier alone -/

/-- The same state with another carrier. -/
def State.withCar (s : State) (c : Memory) : State := { s with car := c }

/-- The answer with the carrier of its state, if it has one, replaced. -/
def replaceCar (c : Memory) : Result → Result
  | .next t => .next (t.withCar c)
  | .fault p => .fault p
  | .refused q => .refused q

theorem ite_replaceCar {p : Prop} [Decidable p] {c : Memory} {r₁ r₂ u₁ u₂ : Result}
    (h₁ : p → u₁ = replaceCar c r₁) (h₂ : ¬ p → u₂ = replaceCar c r₂) :
    (if p then u₁ else u₂) = replaceCar c (if p then r₁ else r₂) := by
  split
  · exact h₁ ‹_›
  · exact h₂ ‹_›

/-- An operation that writes no byte, on a carrier on which it commutes with replacing the memories, answers the same
but for the carrier. -/
theorem ReadsOnly.withCar {f : State → Result} {s : State} {sp : Space} {a : Nat} (hf : ReadsOnly f s sp a) {c : Memory}
    (h : f (s.withMems c s.msg s.out) = replaceMems c s.msg s.out (f s)) :
    f (s.withCar c) = replaceCar c (f s) := by
  refine Eq.trans h ?_
  cases hr : f s with
  | next t =>
    have hmsg : t.msg = s.msg := hf.mem_eq hr .msg
    have hout : t.out = s.out := hf.mem_eq hr .out
    rw [replaceMems_next, ← hmsg, ← hout]
    rfl
  | fault p => rfl
  | refused q => rfl

theorem IgnoresMems.withCar {f : State → Result} (hf : IgnoresMems f) (s : State) (c : Memory) :
    f (s.withCar c) = replaceCar c (f s) := (hf.readsOnly s .car 0).withCar (hf s c s.msg s.out)

theorem SeesParityOnly.withCar {f : State → Result} {s : State} {a : Nat} (hf : SeesParityOnly f s a) {c : Memory}
    (h : (c.read a).map parity = (s.car.read a).map parity) : f (s.withCar c) = replaceCar c (f s) :=
  hf.readsOnly.withCar (hf c s.msg s.out h)

/-- The scan's store writes `OUT`, and does not look at the carrier (43_engine R160). -/
theorem scanStore_withCar (s : State) (c : Memory) : scanStore (s.withCar c) = replaceCar c (scanStore s) :=
  ite_replaceCar (fun _ => rfl) fun _ =>
    ite_replaceCar (fun _ => afterScanStore_ignoresMems.withCar (s.setMem .out (s.out.write s.k.toNat s.acc)) c)
      fun _ => rfl

theorem gateVerdict_ignoresMems (i : Instr) : IgnoresMems (gateVerdict i) := by
  cases i with
  | identify => exact finish_ignoresMems
  | embed | check | extract => exact gateThen_ignoresMems _

/-! ### Carriers that decode alike -/

/-- The same bytes 0 and 1, and the same parities (and the same bytes written) from `HDR` up (42_bitcodec R125). -/
structure Memory.DecodesLike (c d : Memory) : Prop where
  head : ∀ a, a < 2 → c.read a = d.read a
  parities : ∀ a, hdr ≤ a → (c.read a).map parity = (d.read a).map parity

section
variable {s : State} {c : Memory} (hc : c.DecodesLike s.car)
include hc

/-- The gate sees bytes 0 and 1 of the carrier (40_sniffer R102). -/
theorem sniffGate_withCar (i : Instr) (b0 : Option Byte) :
    sniffGate b0 (s.withCar c) (gateVerdict i) = replaceCar c (sniffGate b0 s (gateVerdict i)) :=
  have hreads := sniffGate_readsOnly (gateVerdict_ignoresMems i) b0 s
  hreads.withCar (hreads c s.msg s.out (hc.head _ (by split <;> decide)))

/-- The scan sees the parities of its chunk's bytes, which stand behind the header (43_engine R160). -/
theorem scanStep_withCar (k : Nat) (hpos : hdr ≤ s.pos.toNat) :
    scanStep k (s.withCar c) = replaceCar c (scanStep k s) :=
  ite_replaceCar (fun _ => (scanHead_seesParityOnly s).withCar (hc.parities _ hpos)) fun _ =>
    ite_replaceCar (fun _ => (scanByte_seesParityOnly k s).withCar (hc.parities _ (Nat.le_add_right_of_le hpos)))
      fun _ => scanStore_withCar s c

/-- A micro-step of a command other than EMBED answers the same but for the carrier. -/
theorem exec_withCar {i : Instr} (hs : s.Inv) (hd : decode s.opl = .ok i) (hi : i ≠ .embed) :
    exec i (s.withCar c) = replaceCar c (exec i s) := by
  obtain ⟨f, hf, he⟩ := exec_microOp i s.phase
  rw [he s rfl, he (s.withCar c) rfl]
  have hbit (j : Nat) := hc.parities (hdr + j) (Nat.le_add_right _ _)
  generalize hp : s.phase = ph at hf
  cases hf with
  | decode => exact (decodeStep_ignoresMems _).withCar s c
  | sniff i b0 => exact sniffGate_withCar hc i b0
  | validate i m =>
    have hreads := validateStep_readsOnly m s
    exact hreads.withCar (hreads c s.msg s.out rfl)
  | embedCapchk | walkRead | walkWrite => exact absurd rfl hi
  | checkCapchk m => exact (checkCapchk_ignoresMems m).withCar s c
  | checkStart m => exact (checkProbe_seesParityOnly m { s with eq := true }).withCar (hbit _)
  | checkRead m => exact (checkProbe_seesParityOnly m s).withCar (hbit _)
  | bofStart m => exact (bofStart_seesParityOnly s).withCar (hbit 0)
  | bofRead m => exact (bofProbe_seesParityOnly s).withCar (hbit _)
  | scan k =>
    obtain ⟨⟨-, -, hpos, -, -⟩, -, -⟩ := (phaseOk_scan hd hp).mp hs.phaseOk
    exact scanStep_withCar hc k (by unfold hdr scanStart at *; omega)
  | endCmd => exact endPhase_ignoresMems.withCar s c
  | none => exact noMicroStep_ignoresMems.withCar s c

end

/-! ### The runs -/

/-- A state of a run of command `i`, no host turn to come, whose carrier `c` decodes like. -/
structure RunsOn (i : Instr) (c : Memory) (s : State) : Prop where
  inv : s.Inv
  alone : s.schedule = []
  command : decode s.opl = .ok i
  alike : c.DecodesLike s.car

section
variable {i : Instr} {c : Memory} {s : State} (hi : i ≠ .embed)
include hi

theorem RunsOn.step_withCar (h : RunsOn i c s) : step (s.withCar c) = replaceCar c (step s) := by
  cases hb : s.status.busy with
  | false =>
    rw [step_idle h.alone hb, step_idle (s := s.withCar c) h.alone hb]
    rfl
  | true =>
    rw [step_command h.alone hb h.command, step_command (s := s.withCar c) h.alone hb h.command]
    exact exec_withCar h.alike h.inv h.command hi

/-- No step writes the carrier, so what is alike in it stays so. -/
theorem RunsOn.step {t : State} (h : RunsOn i c s) (ht : step s = .next t) : RunsOn i c t := by
  have hinv := everyStepKeepsInv s t h.inv ht
  cases hb : s.status.busy with
  | false =>
    rw [step_idle h.alone hb] at ht
    cases ht
    exact h
  | true =>
    rw [step_command h.alone hb h.command] at ht
    obtain ⟨hopl, hsched⟩ := exec_keepsCommand i s t ht
    have hcar : t.car = s.car := exec_mem_eq ht (sp := .car) (fun _ => hi) nofun
    exact ⟨hinv, hsched.trans h.alone, hopl ▸ h.command, hcar ▸ h.alike⟩

theorem RunsOn.stepN_withCar (n : Nat) (h : RunsOn i c s) : stepN n (s.withCar c) = replaceCar c (stepN n s) := by
  induction n generalizing s with
  | zero => rfl
  | succ n ih =>
    rw [stepN, stepN, h.step_withCar hi]
    cases ht : Machine.step s with
    | next t => exact ih (h.step hi ht)
    | fault p => rfl
    | refused q => rfl

end

/-- Settles O44: the accepted state starts such a run. -/
theorem onlyParitiesMatter : Obligations.OnlyParitiesMatter := by
  intro s c i n hi hs hsched hhead hparities
  have h : RunsOn i c (s.accept (encode i)) := ⟨hs.accept _, hsched, decode_encode i, hhead, hparities⟩
  refine (h.stepN_withCar hi n).trans ?_
  cases stepN n (s.accept (encode i)) with
  | next t => rfl
  | fault p => rfl
  | refused q => rfl

end Sys2Proof.Machine

/-! PROOFS. The Bit Codec's pure functions: deserialising a group of 8 bits is shifting them in (42_bitcodec R122),
which serialising undoes (R123), and `adjust` leaves the wanted parity (R124, R126, R129). -/

namespace Sys2Proof.Machine

/-! ### A group of 8 bits and its byte -/

/-- The byte a group of bits leaves when shifted in from 0 (R122). -/
def groupByte (g : List Bool) : Byte := g.foldl shiftIn 0#8

/-- The weights `2^7 .. 2^0` of the bits of a group that are 1, summed (R122). -/
def groupWeight (g : List Bool) : Nat :=
  ((List.range 8).map fun k => if g[k]? = some true then 2 ^ (7 - k) else 0).sum

theorem shiftIn_toNat (acc : Byte) (bit : Bool) : (shiftIn acc bit).toNat = (acc.toNat * 2 + bit.toNat) % 2 ^ 8 := by
  cases bit <;> simp [shiftIn, BitVec.toNat_add, BitVec.toNat_mul, Nat.mul_comm]

/-- Shifting a bit in drops bit 7 and puts the bit below the others. -/
theorem shiftIn_eq_concat (acc : Byte) (bit : Bool) : shiftIn acc bit = (acc.concat bit).setWidth 8 := by
  apply BitVec.eq_of_toNat_eq
  rw [shiftIn_toNat, BitVec.toNat_setWidth, BitVec.toNat_concat]

theorem msbBit_shiftIn_last (acc : Byte) (bit : Bool) : msbBit (shiftIn acc bit) 7 = bit := by
  simp [msbBit, shiftIn_eq_concat]

theorem msbBit_shiftIn {k : Nat} (hk : k < 7) (acc : Byte) (bit : Bool) :
    msbBit (shiftIn acc bit) k = msbBit acc (k + 1) := by
  have hlt : 7 - k < 8 := by omega
  have hsucc : 7 - k = 7 - (k + 1) + 1 := by omega
  rw [msbBit, shiftIn_eq_concat, BitVec.getLsbD_setWidth, decide_eq_true hlt, Bool.true_and, hsucc,
    BitVec.getLsbD_concat_succ, msbBit]

/-- Serialising undoes the shift-in of a whole group (R120, R122). -/
theorem toBits_groupByte {g : List Bool} (hg : g.length = 8) : toBits [groupByte g] = g := by
  match g, hg with
  | [b0, b1, b2, b3, b4, b5, b6, b7], _ => simp [groupByte, toBits, msbBit_shiftIn, msbBit_shiftIn_last]

theorem groupByte_toBits (b : Byte) : groupByte (toBits [b]) = b := shiftIn_bits 0#8 b

theorem weighted_eq (bit : Bool) (k : Nat) : weighted bit k = bit.toNat * 2 ^ (7 - k) := by
  cases bit <;> simp [weighted]

theorem groupWeight_eq_weighted (b0 b1 b2 b3 b4 b5 b6 b7 : Bool) :
    groupWeight [b0, b1, b2, b3, b4, b5, b6, b7] =
      weighted b0 0 + weighted b1 1 + weighted b2 2 + weighted b3 3 + weighted b4 4 + weighted b5 5 + weighted b6 6
        + weighted b7 7 := by
  simp [groupWeight, List.range_succ, weighted, Nat.add_assoc]

/-- The shift-in gives the weighted sum: each bit is doubled once for each bit shifted in after it (R122). -/
theorem groupByte_toNat {g : List Bool} (hg : g.length = 8) : (groupByte g).toNat = groupWeight g := by
  match g, hg with
  | [b0, b1, b2, b3, b4, b5, b6, b7], _ =>
    rw [groupWeight_eq_weighted]
    simp only [groupByte, List.foldl_cons, List.foldl_nil, shiftIn_toNat, weighted_eq, BitVec.toNat_ofNat]
    have h0 := b0.toNat_lt; have h1 := b1.toNat_lt; have h2 := b2.toNat_lt; have h3 := b3.toNat_lt
    have h4 := b4.toNat_lt; have h5 := b5.toNat_lt; have h6 := b6.toNat_lt; have h7 := b7.toNat_lt
    omega

/-- Deserialising takes a byte from each group (R122). -/
theorem fromBits_append {g : List Bool} (hg : g.length = 8) (bs : List Bool) :
    fromBits (g ++ bs) = groupByte g :: fromBits bs := by
  match g, hg with
  | [b0, b1, b2, b3, b4, b5, b6, b7], hg =>
    calc fromBits ([b0, b1, b2, b3, b4, b5, b6, b7] ++ bs)
        = BitVec.ofNat 8 (groupWeight [b0, b1, b2, b3, b4, b5, b6, b7]) :: fromBits bs := by
          rw [groupWeight_eq_weighted]; rfl
      _ = groupByte [b0, b1, b2, b3, b4, b5, b6, b7] :: fromBits bs := by
          rw [← groupByte_toNat hg, BitVec.ofNat_toNat, BitVec.setWidth_eq]

/-! ### Bit strings, group by group -/

/-- Group `i` of a bit string (R121). -/
def bitGroup (bs : List Bool) (i : Nat) : List Bool := (bs.drop (8 * i)).take 8

theorem bitGroup_length {bs : List Bool} {n i : Nat} (hbs : bs.length = 8 * n) (hi : i < n) :
    (bitGroup bs i).length = 8 := by
  rw [bitGroup, List.length_take, List.length_drop]
  omega

theorem bitGroup_getElem? {k : Nat} (bs : List Bool) (i : Nat) (hk : k < 8) : (bitGroup bs i)[k]? = bs[8 * i + k]? := by
  rw [bitGroup, List.getElem?_take_of_lt hk, List.getElem?_drop]

theorem bitGroup_drop (bs : List Bool) (i : Nat) : bitGroup (bs.drop 8) i = bitGroup bs (i + 1) := by
  rw [bitGroup, bitGroup, List.drop_drop, Nat.mul_succ, Nat.add_comm 8]

/-- The first group and the ones after it. -/
theorem fromBits_of_length {bs : List Bool} {n : Nat} (hbs : bs.length = 8 * (n + 1)) :
    fromBits bs = groupByte (bitGroup bs 0) :: fromBits (bs.drop 8) := by
  conv_lhs => rw [← List.take_append_drop 8 bs]
  exact fromBits_append (bitGroup_length hbs n.succ_pos) _

theorem fromBits_eq_map {bs : List Bool} {n : Nat} (hbs : bs.length = 8 * n) :
    fromBits bs = (List.range n).map fun i => groupByte (bitGroup bs i) := by
  induction n generalizing bs with
  | zero =>
    obtain rfl := List.length_eq_zero_iff.mp hbs
    rfl
  | succ n ih =>
    rw [fromBits_of_length hbs, ih (bs := bs.drop 8) (by rw [List.length_drop]; omega), List.range_succ_eq_map]
    simp [bitGroup_drop]

theorem fromBits_toBits (m : List Byte) : fromBits (toBits m) = m := by
  induction m with
  | nil => rfl
  | cons b m ih =>
    calc fromBits (toBits (b :: m)) = fromBits (toBits [b] ++ toBits m) := rfl
      _ = groupByte (toBits [b]) :: fromBits (toBits m) := fromBits_append (toBits_length [b]) _
      _ = b :: m := by rw [groupByte_toBits, ih]

theorem toBits_fromBits {bs : List Bool} {n : Nat} (hbs : bs.length = 8 * n) : toBits (fromBits bs) = bs := by
  induction n generalizing bs with
  | zero =>
    obtain rfl := List.length_eq_zero_iff.mp hbs
    rfl
  | succ n ih =>
    have hgroup := bitGroup_length hbs n.succ_pos
    calc toBits (fromBits bs) = toBits [groupByte (bitGroup bs 0)] ++ toBits (fromBits (bs.drop 8)) := by
          rw [fromBits_of_length hbs]; rfl
      _ = bs.take 8 ++ bs.drop 8 := by
          rw [toBits_groupByte hgroup, ih (by rw [List.length_drop]; omega)]; rfl
      _ = bs := List.take_append_drop 8 bs

/-- Settles O20: byte by byte, and group by group. -/
theorem codecInverse : Obligations.CodecInverse :=
  ⟨fromBits_toBits, fun _ hbs => toBits_fromBits (Nat.mul_div_cancel' (Nat.dvd_of_mod_eq_zero hbs)).symm⟩

/-- Settles O21: byte `i` is the byte of group `i`, whose shift-in is the weighted sum. -/
theorem shiftInSumsWeights : Obligations.ShiftInSumsWeights := by
  intro bs n hbs
  rw [fromBits_eq_map hbs]
  refine ⟨by simp, fun i hi => ⟨groupByte (bitGroup bs i), by simp [hi], ?_, rfl⟩⟩
  rw [groupByte_toNat (bitGroup_length hbs hi), groupWeight]
  congr 1
  refine List.map_congr_left fun k hk => ?_
  rw [bitGroup_getElem? bs i (List.mem_range.mp hk)]

/-! ### Parity and adjust -/

theorem parity_iff (b : Byte) : parity b = true ↔ b.toNat % 2 = 1 := by
  rw [parity, BitVec.getLsbD, Nat.testBit_zero, decide_eq_true_iff]

theorem adjust_writes_iff (b : Byte) (want : Bool) : (adjust b want).1 = true ↔ parity b ≠ want := by
  by_cases h : parity b = want
  · simp [adjust_of_eq h, h]
  · simp [adjust_of_ne h, h]

/-- After adjust the parity is the wanted one (R126). -/
theorem parity_adjust (b : Byte) (want : Bool) : parity (adjust b want).2 = want := by
  by_cases h : parity b = want
  · rw [adjust_of_eq h, h]
  · rw [adjust_of_ne h, parity_succ]
    exact Bool.not_eq.mpr h

/-- Incrementing a byte makes it smaller only by wrapping (R129). -/
theorem byte_succ_lt_iff (b : Byte) : (b + 1#8).toNat < b.toNat ↔ b = 0xFF#8 := by bv_omega

theorem parity_0xFF : parity 0xFF#8 = true := by decide

theorem adjust_lt_iff (b : Byte) (want : Bool) :
    (adjust b want).2.toNat < b.toNat ↔ b = 0xFF#8 ∧ want = false := by
  by_cases h : parity b = want
  · rw [adjust_of_eq h]
    refine ⟨fun hlt => absurd hlt (Nat.lt_irrefl _), ?_⟩
    rintro ⟨rfl, rfl⟩
    cases parity_0xFF.symm.trans h
  · rw [adjust_of_ne h, byte_succ_lt_iff]
    refine ⟨fun hb => ⟨hb, ?_⟩, And.left⟩
    subst hb
    simpa [parity_0xFF] using h

/-- Settles O22: the byte is left alone when its parity is right, else it is incremented. -/
theorem adjustFixesParity : Obligations.AdjustFixesParity := fun b want =>
  ⟨parity_iff b, adjust_writes_iff b want, fun h => by rw [adjust_of_eq h],
    fun h => by rw [adjust_of_ne h, BitVec.toNat_add]; rfl, parity_adjust b want, adjust_lt_iff b want⟩

end Sys2Proof.Machine

/-! PROOFS. The loops of the commands, micro-step by micro-step: EMBED's walk (43_engine R142 to R145), CHECK's probe
(R150 to R152), EXTRACT's probe and scan (R155 to R163). -/

namespace Sys2Proof.Machine

/-! ### Numbers in registers -/

theorem toNat_add_ofNat (x : Word) (n : Nat) : x + BitVec.ofNat 32 n = BitVec.ofNat 32 (x.toNat + n) := by
  rw [BitVec.ofNat_add, BitVec.ofNat_toNat, BitVec.setWidth_eq]

theorem outCap_lt (c : Caps) : c.outCap < 2 ^ 32 := by
  have := c.outAbove3.isLt
  unfold Caps.outCap
  omega

/-- The payload's length is a number of bits a register can count when the payload fits. -/
theorem State.MessageFits.nBits_lt {s : State} {i : Instr} {m : List Byte} (hf : s.MessageFits i m) :
    s.nBits < 2 ^ 32 := by
  obtain ⟨-, -, -, hfits⟩ := hf
  have := s.carSize.isLt
  omega

/-! ### EMBED -/

/-- Settles O28: the two cases of the check. -/
theorem embedChecksCapacity : Obligations.EmbedChecksCapacity := by
  intro s m hp
  rw [exec_embed_capchk hp]
  exact ⟨fun h => if_pos h, fun h => if_neg (Nat.not_lt_of_le h)⟩

section
variable {s : State} {m : List Byte}

/-- What the invariant says in the walk, whatever command is latched. -/
theorem State.Inv.walk {next : WalkStep} (hs : s.Inv) (hp : s.phase = .walk m next) :
    s.MessageFits .embed m ∧ s.j.toNat < s.nBits ∧ s.walkStepOk next := by
  have hok := hs.phaseOk
  have hd : decode s.opl = .ok .embed := by
    simp only [State.phaseOk, hp] at hok
    exact hok.1
  exact (phaseOk_walk hd hp).mp hok

theorem walkLoop_more (hj : s.j.toNat < s.nBits) : walkLoop m s = .next { s with phase := .walk m .read } := if_pos hj

theorem walkLoop_last (hj : s.j.toNat = s.nBits) :
    walkLoop m s = .next { s with pos := BitVec.ofNat 32 (hdr + s.nBits) }.finished :=
  if_neg (Nat.not_lt_of_le hj.ge)

/-- The walk's read of a written byte goes on with its adjust to the payload's bit (R143). -/
theorem walkRead_eq_walkAdjust {b : Byte} {want : Bool} (hf : s.MessageFits .embed m) (hj : s.j.toNat < s.nBits)
    (hb : s.car.read (hdr + s.j.toNat) = some b) (hw : (payloadBits m)[s.j.toNat]? = some want) :
    walkRead m s = walkAdjust m b want { s with pos := BitVec.ofNat 32 (hdr + s.j.toNat) } := by
  have ⟨_, hm, _, _⟩ := hf
  rw [walkRead, memRead_some (sp := .car) (hf.carrier_lt hj) hb]
  exact payloadBit_eq _ hm hj hw

end

/-- Settles O29: the read goes on with the adjust, and a right parity with the loop's head. -/
theorem embedWalkReads : Obligations.EmbedWalkReads := by
  intro s m hs hp
  obtain ⟨hf, hj, -⟩ := hs.walk hp
  have ⟨⟨_, hmsg⟩, hm, _, _⟩ := hf
  refine ⟨hm, servesPayload_of_message hm (hmsg rfl), fun b want hb hw => ?_⟩
  rw [exec_embed_walkRead hp, walkRead_eq_walkAdjust hf hj hb hw]
  have hj1 := toNat_succ hj hf.nBits_lt
  refine ⟨fun hparity hmore => ?_, fun hparity hlast => ?_, fun hparity => ?_⟩
  · rw [walkAdjust_of_eq _ _ hparity, walkLoop_more (hj1.trans_lt hmore), toNat_add_ofNat, ← hp]
    rfl
  · rw [walkAdjust_of_eq _ _ hparity, walkLoop_last (hj1.trans hlast), toNat_add_ofNat, hlast]
    rfl
  · exact walkAdjust_of_ne _ _ hparity

/-- Settles O30: the write, then the loop's head. -/
theorem embedWalkWrites : Obligations.EmbedWalkWrites := by
  intro s m b b2 hs hp
  obtain ⟨hf, hj, -, -, rfl⟩ := hs.walk hp
  have hj1 := toNat_succ hj hf.nBits_lt
  rw [exec_embed_walkWrite hp, walkWrite_eq, memWrite_below (hf.carrier_lt hj)]
  have hread := read_write_same s.car (hdr + s.j.toNat) (b + 1#8)
  have hother := fun a => read_write_other s.car (hdr + s.j.toNat) a (b + 1#8)
  obtain hmore | hlast : s.j.toNat + 1 < s.nBits ∨ s.j.toNat + 1 = s.nBits := Nat.lt_or_eq_of_le hj
  · refine ⟨_, walkLoop_more (hj1.trans_lt hmore), hread, hother, fun _ => ?_, fun h => absurd h hmore.ne⟩
    rw [← toNat_add_ofNat]
    rfl
  · refine ⟨_, walkLoop_last (hj1.trans hlast), hread, hother, fun h => absurd hlast h.ne, fun _ => ?_⟩
    have hj2 : BitVec.ofNat 32 s.nBits = s.j + 1#32 := by rw [← hlast, ← toNat_add_ofNat]
    rw [hj2]
    rfl

/-! ### CHECK -/

/-- Settles O31: the two cases of the verdict, with the quotient a register holds. -/
theorem checkGivesCapacityVerdict : Obligations.CheckGivesCapacityVerdict := by
  intro s m hp
  rw [exec_check_capchk hp]
  have hquotient : (s.carSize / 8#32).toNat = s.carSize.toNat / 8 := BitVec.toNat_udiv
  obtain ⟨hsmall, he⟩ | ⟨hfits, he⟩ := checkCapchk_cases m s
  · exact ⟨_, he, hquotient, fun _ => rfl, fun h => absurd h (Nat.not_le_of_lt hsmall)⟩
  · exact ⟨_, he, hquotient, fun h => absurd hfits (Nat.not_le_of_lt h), fun _ => rfl⟩

/-- `EQ` as a probe's read takes it: 1 at the first read, which does the set-up (R152, R155; log entry 7). -/
def State.probeEq (s : State) : ProbeStep → Bool
  | .start => true
  | .read => s.eq

/-- The verdict of a probe's read, as the statements write it. -/
theorem probeEq_and (s : State) (next : ProbeStep) (p want : Bool) :
    decide ((next = .read → s.eq = true) ∧ p = want) = (s.probeEq next && (p == want)) := by
  cases next <;> simp [State.probeEq, Bool.beq_eq_decide_eq]

section
variable {s : State} {m : List Byte}

theorem exec_check_probe {next : ProbeStep} (hp : s.phase = .probe m next) :
    exec .check s = checkProbe m { s with eq := s.probeEq next } := by
  cases next with
  | start => exact exec_check_probeFirst hp
  | read => exact exec_check_probeNext hp

theorem checkLoop_more (hj : s.j.toNat < s.nBits) : checkLoop m s = .next { s with phase := .probe m .read } :=
  if_pos hj

theorem checkLoop_last (hj : s.j.toNat = s.nBits) :
    checkLoop m s = .next ({ s with pos := BitVec.ofNat 32 (hdr + s.nBits) }.setFound s.eq).finished :=
  if_neg (Nat.not_lt_of_le hj.ge)

end

/-- Settles O32: the comparison, then the loop's head. -/
theorem checkComparesParities : Obligations.CheckComparesParities := by
  intro s m next hs hd hp
  obtain ⟨hf, hj, -⟩ := (phaseOk_checkProbe hd hp).mp hs.phaseOk
  have ⟨⟨hcar, hmsg⟩, hm, _, hfits⟩ := hf
  refine ⟨hm, servesPayload_of_message hm (hmsg rfl), fun b want hb hw => ⟨_, rfl, ?_⟩⟩
  have hj1 := toNat_succ hj hf.nBits_lt
  rw [probeEq_and, check_iteration hm hfits hcar hj (exec_check_probe hp) hb hw]
  refine ⟨fun hmore => ?_, fun hlast => ?_⟩
  · rw [checkLoop_more (hj1.trans_lt hmore), toNat_add_ofNat]
    rfl
  · rw [checkLoop_last (hj1.trans hlast), toNat_add_ofNat, hlast]
    rfl

/-! ### EXTRACT's probe -/

section
variable {s : State} {m : List Byte}

theorem bofStart_short (hsize : s.carSize.toNat < scanStart) : bofStart s = .next (s.setFound false).finished :=
  if_pos hsize

theorem bofStart_long (hsize : scanStart ≤ s.carSize.toNat) : bofStart s = bofProbe { s with eq := true, j := 0#32 } :=
  if_neg (Nat.not_lt_of_le hsize)

/-- `J` as the read of the BOF probe takes it: 0 at the first read, which does the set-up (R155; log entry 7). -/
def State.bofIndex (s : State) : ProbeStep → Word
  | .start => 0#32
  | .read => s.j

theorem exec_extract_probe {next : ProbeStep} (hsize : scanStart ≤ s.carSize.toNat) (hp : s.phase = .probe m next) :
    exec .extract s = bofProbe { s with eq := s.probeEq next, j := s.bofIndex next } := by
  cases next with
  | start => exact (exec_extract_probeFirst hp).trans (bofStart_long hsize)
  | read => exact exec_extract_probeNext hp

/-- One read of the BOF probe before the loop's head. -/
theorem bofProbe_eq_bofLoop {b : Byte} (hcap : s.carSize.toNat ≤ s.caps.carCap) (hsize : scanStart ≤ s.carSize.toNat)
    (hj : s.j.toNat < bofBits) (hb : s.car.read (hdr + s.j.toNat) = some b) :
    bofProbe s = bofLoop { s with
      pos := BitVec.ofNat 32 (hdr + s.j.toNat), eq := s.eq && (parity b == bofBit s.j.toNat), j := s.j + 1#32 } := by
  rw [bofProbe, memRead_some (sp := .car) _ hb]
  rw [size_car]
  unfold hdr scanStart bofBits at *
  omega

theorem bofLoop_more (hj : s.j.toNat < bofBits) : bofLoop s = .next { s with phase := .probe [] .read } := if_pos hj

/-- After the 24th read the verdict ends the command or starts the scan (R155, R157). -/
theorem bofLoop_last (s : State) (e : Bool) : bofLoop { s with j := 24#32, eq := e } = .next (bofVerdict s e) := by
  cases e <;> rfl

end

/-- Settles O33: the set-up's size check, then a read's comparison and the loop's head or the verdict. -/
theorem extractProbesForBof : Obligations.ExtractProbesForBof := by
  intro s m next hs hd hp
  obtain ⟨⟨hcap, -⟩, -, hok⟩ := (phaseOk_bofProbe hd hp).mp hs.phaseOk
  refine ⟨fun hstart hsmall => ?_, fun b j want hsize hj hb hw => ⟨_, rfl, ?_⟩⟩
  · rw [exec_extract_probeFirst (hstart ▸ hp), bofStart_short hsmall]
    rfl
  have hindex : (s.bofIndex next).toNat = j := by
    rw [hj]
    cases next <;> rfl
  have hj24 : j < 24 := by simpa [bof] using (List.getElem?_eq_some_iff.mp hw).1
  obtain rfl : bofBit j = want := Option.some.inj ((bofBit_eq j hj24).symm.trans hw)
  have hj1 := toNat_succ (hindex.trans_lt hj24) (by decide)
  rw [probeEq_and, exec_extract_probe hsize hp,
    bofProbe_eq_bofLoop (s := { s with eq := s.probeEq next, j := s.bofIndex next }) (b := b) hcap hsize
      (hindex.trans_lt hj24) (by rw [hindex]; exact hb)]
  rw [hindex] at hj1
  simp only [hindex]
  have hlast (hj : j + 1 = 24) : s.bofIndex next + 1#32 = 24#32 := BitVec.eq_of_toNat_eq (hj1.trans hj)
  refine ⟨fun hmore => ?_, fun hj he => ?_, fun hj he => ?_⟩
  · rw [bofLoop_more (hj1.trans_lt hmore), toNat_add_ofNat, hindex]
    rfl
  · rw [hlast hj, he]
    exact bofLoop_last { s with pos := BitVec.ofNat 32 (hdr + j) } false
  · rw [hlast hj, he]
    exact bofLoop_last { s with pos := BitVec.ofNat 32 (hdr + j) } true

/-! ### EXTRACT's scan -/

section
variable {s : State}

/-- What the invariant says in the scan, whatever command is latched. -/
theorem State.Inv.scan {n : Nat} (hs : s.Inv) (hp : s.phase = .scan n) :
    s.ScanStands ∧ n ≤ chunk ∧ (0 < n → s.pos.toNat + chunk ≤ s.carSize.toNat) := by
  have hok := hs.phaseOk
  have hd : decode s.opl = .ok .extract := by
    simp only [State.phaseOk, hp] at hok
    exact hok.1
  exact (phaseOk_scan hd hp).mp hok

theorem scanHead_unterminated (hroom : s.carSize.toNat < s.pos.toNat + chunk) :
    scanHead s = .next (s.raised .unterminatedMessage s.pos) := if_pos hroom

/-- A chunk's read shifts the byte's parity into `ACC`, which is 0 before the first (R160). -/
theorem scanStep_read {n : Nat} {b : Byte} (hn : n < chunk) (hcap : s.carSize.toNat ≤ s.caps.carCap)
    (hroom : s.pos.toNat + chunk ≤ s.carSize.toNat) (hb : s.car.read (s.pos.toNat + n) = some b) :
    scanStep n s =
      .next { s with acc := shiftIn (if n = 0 then 0#8 else s.acc) (parity b), phase := .scan (n + 1) } := by
  have hlt : s.pos.toNat + n < s.caps.size .car := by
    rw [size_car]
    omega
  have hbyte (acc : Byte) : scanByte n { s with acc := acc } =
      .next { s with acc := shiftIn acc (parity b), phase := .scan (n + 1) } :=
    memRead_some (s := { s with acc := acc }) (sp := .car) hlt hb
  unfold scanStep
  by_cases h0 : n = 0
  · subst h0
    rw [if_pos rfl, if_pos rfl, scanHead, if_neg (Nat.not_lt_of_le hroom), hbyte]
  · rw [if_neg h0, if_neg h0, if_pos hn]
    exact hbyte s.acc

theorem shiftIn_parity_toNat (acc b : Byte) : (shiftIn acc (parity b)).toNat = (2 * acc.toNat + b.toNat % 2) % 256 := by
  have hbit : (parity b).toNat = b.toNat % 2 := by
    cases hp : parity b with
    | false => have := (parity_iff b).not.mp (Bool.eq_false_iff.mp hp); simp only [Bool.toNat_false]; omega
    | true => have := (parity_iff b).mp hp; simp only [Bool.toNat_true]; omega
  rw [shiftIn_toNat, hbit, Nat.mul_comm]
  rfl

/-- The test for "EOF" after a character is stored (10_state R37). -/
theorem sawEof_nextChar (hk : s.k.toNat < s.caps.outCap) :
    sawEof s.nextChar = true ↔ 2 ≤ s.k.toNat ∧ s.nextChar.tail = 0x454F46#24 := by
  have hk1 : s.nextChar.k.toNat = s.k.toNat + 1 := toNat_succ hk (outCap_lt _)
  rw [sawEof, hk1, Bool.and_eq_true, decide_eq_true_iff, beq_iff_eq, Nat.succ_le_succ_iff]

/-- Where `OUT` has room the store writes `ACC` at `K` and goes on (R160). -/
theorem scanStore_room (hk : s.k.toNat < s.caps.outCap) :
    scanStore s = afterScanStore (s.setMem .out (s.out.write s.k.toNat s.acc)) := by
  rw [scanStore_eq, if_neg (Nat.not_le_of_lt hk), memWrite_below (sp := .out) hk]
  rfl

theorem scanStore_full (hk : s.caps.outCap ≤ s.k.toNat) : scanStore s = .next (s.raised .outputOverflow s.pos) :=
  if_pos hk

end

/-- Settles O34: the guard at the chunk's head, and a read inside the chunk. -/
theorem extractReadsChunk : Obligations.ExtractReadsChunk := by
  intro s n hs hp hn
  obtain ⟨⟨⟨hcap, -⟩, -⟩, -⟩ := hs.scan hp
  rw [exec_extract_scan hp]
  refine ⟨fun h0 hroom => ?_, fun b hroom hb => ⟨_, ?_, scanStep_read hn hcap hroom hb⟩⟩
  · rw [scanStep, if_pos h0, scanHead_unterminated hroom]
    rfl
  · rw [shiftIn_parity_toNat]
    split <;> rfl

/-- Settles O35: the overflow check, then the store and the two cases of the test for "EOF". -/
theorem extractStoresCharacter : Obligations.ExtractStoresCharacter := by
  intro s hs hp
  rw [exec_extract_store hp (by decide)]
  refine ⟨fun hk => ?_, fun hk => ?_⟩
  · rw [scanStore_full hk]
    rfl
  have hread := read_write_same s.out s.k.toNat s.acc
  have hother := fun a => read_write_other s.out s.k.toNat a s.acc
  have hk1 : s.k + 1#32 = BitVec.ofNat 32 (s.k.toNat + 1) := toNat_add_ofNat _ _
  have hpos : s.pos + BitVec.ofNat 32 chunk = BitVec.ofNat 32 (s.pos.toNat + 8) := toNat_add_ofNat _ _
  have htail : s.nextChar.tail.toNat = (s.tail.toNat * 256 + s.acc.toNat) % 2 ^ 24 := by
    have := s.acc.isLt
    simp only [State.nextChar, BitVec.toNat_add, BitVec.toNat_mul, BitVec.toNat_setWidth, BitVec.toNat_ofNat]
    omega
  have hsaw := sawEof_nextChar (s := s.setMem .out (s.out.write s.k.toNat s.acc)) hk
  rw [scanStore_room hk, afterScanStore_eq]
  split
  · next h =>
    obtain ⟨hk2, heof⟩ := hsaw.mp h
    refine ⟨_, s.nextChar.tail, rfl, htail, hread, hother, fun _ => ?_, fun hno => absurd ⟨hk2, heof⟩ hno⟩
    have hlen : s.k + 1#32 - 3#32 = BitVec.ofNat 32 (s.k.toNat - 2) := by
      have hk2 : 2 ≤ s.k.toNat := hk2
      bv_omega
    rw [← hk1, ← hpos, ← hlen]
    rfl
  · next h =>
    refine ⟨_, s.nextChar.tail, rfl, htail, hread, hother, fun hyes => absurd (hsaw.mpr hyes) h, fun _ => ?_⟩
    rw [← hk1, ← hpos]
    rfl

end Sys2Proof.Machine

/-! PROOFS. Bytes in a carrier by their parities (42_bitcodec R124, R125), and what a command that reads the message is
like once it has read it (41_framer R113). -/

namespace Sys2Proof.Machine

/-! ### What a carrier carries -/

section
variable {c : Memory} {a : Nat}

/-- A carrier carries a bit string when the bytes are written and each parity is its bit. -/
theorem carries_iff {bits : List Bool} :
    c.carries a bits ↔ c.written a bits.length ∧
      ∀ i b want, c.read (a + i) = some b → bits[i]? = some want → parity b = want := by
  constructor
  · intro h
    refine ⟨fun i hi => (h i hi).imp fun _ => And.left, fun i b want hb hw => ?_⟩
    obtain ⟨b', hb', hp⟩ := h i (List.getElem?_eq_some_iff.mp hw).1
    obtain rfl : b = b' := Option.some.inj (hb.symm.trans hb')
    exact Option.some.inj (hp.trans hw)
  · rintro ⟨hwritten, hparity⟩ i hi
    obtain ⟨b, hb⟩ := hwritten i hi
    have hbit : bits[i]? = some bits[i] := List.getElem?_eq_getElem hi
    exact ⟨b, hb, by rw [hparity i b _ hb hbit, hbit]⟩

theorem carries_append {x y : List Bool} :
    c.carries a (x ++ y) ↔ c.carries a x ∧ c.carries (a + x.length) y := by
  constructor
  · refine fun h => ⟨fun i hi => ?_, fun i hi => ?_⟩
    · have hbit := h i (by rw [List.length_append]; omega)
      rwa [List.getElem?_append_left hi] at hbit
    · have hbit := h (x.length + i) (by rw [List.length_append]; omega)
      rwa [List.getElem?_append_right (Nat.le_add_right _ _), Nat.add_sub_cancel_left, ← Nat.add_assoc] at hbit
  · rintro ⟨hx, hy⟩ i hi
    obtain hlt | ⟨k, rfl⟩ : i < x.length ∨ ∃ k, i = x.length + k :=
      (Nat.lt_or_ge i x.length).imp_right Nat.exists_eq_add_of_le
    · rw [List.getElem?_append_left hlt]
      exact hx i hlt
    · rw [List.getElem?_append_right (Nat.le_add_right _ _), Nat.add_sub_cancel_left, ← Nat.add_assoc]
      exact hy k (by rw [List.length_append] at hi; omega)

/-- Two bit strings that a carrier carries at the same place agree as far as the shorter goes. -/
theorem carries_take_eq {x y : List Bool} (hx : c.carries a x) (hy : c.carries a y) (hlen : x.length ≤ y.length) :
    x = y.take x.length := by
  refine List.ext_getElem? fun i => ?_
  by_cases hi : i < x.length
  · obtain ⟨b, hb, hpx⟩ := hx i hi
    obtain ⟨b', hb', hpy⟩ := hy i (Nat.lt_of_lt_of_le hi hlen)
    obtain rfl : b = b' := Option.some.inj (hb.symm.trans hb')
    rw [List.getElem?_take_of_lt hi, ← hpx, hpy]
  · rw [List.getElem?_eq_none (Nat.le_of_not_lt hi), List.getElem?_take_eq_none (Nat.le_of_not_lt hi)]

end

/-! ### The message read -/

theorem nBits_of_message {s : State} {m : List Byte} (hm : s.messageIs m) : s.nBits = 8 * (m.length + 6) := by
  rw [State.nBits, hm.1]

/-- The state before the capacity check of a command accepted in `s`, which has read the message `m`. -/
def State.atCapchk (s : State) (i : Instr) (f : Format) (m : List Byte) : State :=
  { s.accept (encode i) with status := { statusAccepted with fmt := f }, phase := .capchk m }

/-- From acceptance a command that reads the message comes to the capacity check: 3 micro-steps for the decode and the
gate, one for each byte of the message and one for the check for "EOF" (R211). -/
theorem stepN_accept_capchk {s : State} {i : Instr} {f : Format} {m : List Byte} (hi : readsMessage i = true)
    (hr : s.ready i) (hf : s.sniffs f) (hne : f ≠ .unsupported) (hm : s.messageIs m) (heof : containsEof m = false) :
    stepN (3 + (s.msgLen.toNat + 1)) (s.accept (encode i)) = .next (s.atCapchk i f m) := by
  have hgate := run_gate (by rintro rfl; cases hi) hr hf hne
  rw [if_neg (show i ≠ .extract by rintro rfl; cases hi)] at hgate
  obtain ⟨-, hs, -, hmsg⟩ := hr
  rw [← hm.1]
  exact stepN_trans hgate (run_validate hi heof m.length _ hs rfl (decode_encode i) hm (hmsg hi) le_rfl (by simp))

/-- The micro-step at the capacity check is the command's own. -/
theorem step_atCapchk {s : State} (hs : s.schedule = []) (i : Instr) (f : Format) (m : List Byte) :
    step (s.atCapchk i f m) = exec i (s.atCapchk i f m) :=
  step_command (s := s.atCapchk i f m) hs rfl (decode_encode i)

end Sys2Proof.Machine

/-! PROOFS. EMBED from acceptance to its end (43_engine R142 to R147). -/

namespace Sys2Proof.Machine

/-! ### The carrier after the walk -/

section
variable {bits : List Bool} {c c' : Memory}

/-- The walk leaves each payload bit in the parity of its byte (R143, 42_bitcodec R126). -/
theorem Walked.carries (h : Walked bits 0 c c') (hwritten : c.written hdr bits.length) : c'.carries hdr bits := by
  intro i hi
  obtain ⟨b, hb⟩ := hwritten i hi
  have hbit : bits[i]? = some bits[i] := List.getElem?_eq_getElem hi
  refine ⟨_, h.adjusted i b _ (Nat.zero_le i) hb hbit, ?_⟩
  rw [hbit]
  split
  · next hparity => rw [hparity]
  · next hparity => rw [parity_succ, Bool.not_eq.mpr hparity]

/-- A carrier that carries the payload already is left as it is (R147). -/
theorem Walked.eq_of_carries (h : Walked bits 0 c c') (hc : c.carries hdr bits) : c' = c :=
  h.already fun i b want _ => (carries_iff.mp hc).2 i b want

/-- The walk turns 0xFF to 0x00 where the bit wanted is 0, and nowhere else (R145, 42_bitcodec R129). -/
theorem Walked.wraps_iff (h : Walked bits 0 c c') (j : Nat) :
    (c.read (hdr + j) = some 0xFF#8 ∧ bits[j]? = some false) ↔
      j < bits.length ∧ c.read (hdr + j) = some 0xFF#8 ∧ c'.read (hdr + j) = some 0x00#8 := by
  constructor
  · rintro ⟨hb, hbit⟩
    exact ⟨(List.getElem?_eq_some_iff.mp hbit).1, hb, h.adjusted j _ _ (Nat.zero_le j) hb hbit⟩
  · rintro ⟨hj, hb, hb'⟩
    have hbit : bits[j]? = some bits[j] := List.getElem?_eq_getElem hj
    refine ⟨hb, hbit.trans (congrArg some (Bool.eq_false_iff.mpr fun hone => ?_))⟩
    have hkept := h.adjusted j _ _ (Nat.zero_le j) hb hbit
    rw [hone, if_pos parity_0xFF, hb'] at hkept
    exact absurd hkept (by decide)

end

/-! ### The run -/

/-- The state in which EMBED, accepted in `s`, ends its walk, with `c` in `CAR` and `w` in `WRAP` (R143, R184). -/
def State.embedded (s : State) (f : Format) (c : Memory) (w : Bool) : State :=
  { s.accept (encode .embed) with
    status := { Status.zero with done := true, fmt := f, wrap := w }, j := BitVec.ofNat 32 s.nBits,
    pos := BitVec.ofNat 32 (hdr + s.nBits), car := c, phase := .idle }

/-- EMBED of a message that fits ends its walk within R211's number of micro-steps. -/
theorem stepN_accept_embedded {s : State} {f : Format} {m : List Byte} (hr : s.ready .embed) (hf : s.sniffs f)
    (hne : f ≠ .unsupported) (hm : s.messageIs m) (heof : containsEof m = false)
    (hfits : 200 + 8 * (m.length + 6) ≤ s.carSize.toNat) (hw : s.car.written 200 (8 * (m.length + 6))) :
    ∃ n c w, n ≤ s.stepBound .embed ∧ stepN n (s.accept (encode .embed)) = .next (s.embedded f c w) ∧
      Walked (payloadBits m) 0 s.car c ∧
      (w = true ↔ ∃ j, s.car.read (hdr + j) = some 0xFF#8 ∧ (payloadBits m)[j]? = some false) := by
  have ⟨_, hs, hcar, _⟩ := hr
  have hbits := nBits_of_message hm
  rw [← hbits] at hfits hw
  have hcapchk : step (s.atCapchk .embed f m) =
      .next { s.atCapchk .embed f m with j := 0#32, pos := BitVec.ofNat 32 hdr, phase := .walk m .read } := by
    rw [step_atCapchk hs, exec_embed_capchk rfl]
    exact if_neg (Nat.not_lt_of_le hfits)
  obtain ⟨n, c, w, hn, hrun, hwalked, hwrap⟩ := run_walk (s.nBits - 1)
    { s.atCapchk .embed f m with j := 0#32, pos := BitVec.ofNat 32 hdr, phase := .walk m .read }
    hs rfl (decode_encode .embed) hm hfits hcar (by change 0 + (s.nBits - 1 + 1) = s.nBits; omega) rfl
    fun i _ => hw i
  refine ⟨3 + (s.msgLen.toNat + 1) + (n + 1), c, w, ?_,
    stepN_trans (stepN_accept_capchk rfl hr hf hne hm heof) ((stepN_succ n hcapchk).trans hrun), hwalked, ?_⟩
  · simp only [State.stepBound]
    omega
  · refine hwrap.trans ⟨?_, fun ⟨j, h⟩ => .inr ⟨j, Nat.zero_le j, h⟩⟩
    rintro (h | ⟨j, -, h⟩)
    · cases h
    · exact ⟨j, h⟩

/-- Settles O47: the run ends in the walk's last state, whose carrier the walk has adjusted bit by bit. -/
theorem embedWritesPayload : Obligations.EmbedWritesPayload := by
  intro s f m hr hf hne hm heof hfits hw
  obtain ⟨n, c, w, hn, hrun, hwalked, hwrap⟩ := stepN_accept_embedded hr hf hne hm heof hfits hw
  have hlen := payloadBits_length m
  refine ⟨n, s.embedded f c w, hn, hrun, ⟨rfl, rfl, rfl⟩, rfl, rfl, rfl, rfl, ?_, ?_, ?_, ?_, rfl, rfl, ?_⟩
  · have hsize := s.carSize.isLt
    rw [← nBits_of_message hm] at hfits ⊢
    exact Nat.mod_eq_of_lt (Nat.lt_of_le_of_lt hfits hsize)
  · exact fun j b want => hwalked.adjusted j b want (Nat.zero_le j)
  · exact hwalked.carries (hlen.symm ▸ hw)
  · exact fun a ha => hwalked.outside a (hlen.symm ▸ ha)
  · rw [← hlen]
    exact hwrap.trans (exists_congr hwalked.wraps_iff)

/-- Settles O48: where every parity is right already, the walk leaves every byte, and a 0xFF is one whose bit is 1. -/
theorem embedTwiceChangesNothing : Obligations.EmbedTwiceChangesNothing := by
  intro s f m hr hf hne hm heof hfits hc
  obtain ⟨hw, hparity⟩ := carries_iff.mp hc
  rw [payloadBits_length] at hw
  obtain ⟨n, c, w, -, hrun, hwalked, hwrap⟩ := stepN_accept_embedded hr hf hne hm heof hfits hw
  refine ⟨n, s.embedded f c w, hrun, ⟨rfl, rfl, rfl⟩, rfl, Bool.eq_false_iff.mpr fun hone => ?_,
    hwalked.eq_of_carries hc⟩
  obtain ⟨j, hb, hbit⟩ := hwrap.mp hone
  exact absurd (hparity j _ _ hb hbit) (by decide)

end Sys2Proof.Machine

/-! PROOFS. The frames of EMBED, CHECK and EXTRACT (43_engine R142 to R163): what the operations of each may change, and
that an EMBED which ends with an error has not reached its walk (R142, 60_exceptions R183). -/

namespace Sys2Proof.Machine

/-! ### The operations before a command's own -/

/-- `t` is `s` but for what the decode, the gate and the validate phase may change. -/
def State.SetUpFrame (s t : State) : Prop :=
  t = { s with
    phase := t.phase, pos := t.pos, outLen := t.outLen,
    status := { s.status with
      fmt := t.status.fmt, err := t.status.err, busy := t.status.busy, done := t.status.done } } ∧
    (t.outLen = s.outLen ∨ t.outLen = 0#32)

section
variable (s : State)

theorem decodeStep_setUpFrame (readsMsg : Bool) : LeadsTo s.SetUpFrame (decodeStep readsMsg s) :=
  leadsTo_ite (leadsTo_next ⟨rfl, .inr rfl⟩)
    (leadsTo_ite (leadsTo_next ⟨rfl, .inr rfl⟩) (leadsTo_next ⟨rfl, .inl rfl⟩))

theorem gateThen_setUpFrame (next : Phase) (f : Format) : LeadsTo s.SetUpFrame (gateThen next (s.setFmt f)) :=
  leadsTo_ite (leadsTo_next ⟨rfl, .inr rfl⟩) (leadsTo_next ⟨rfl, .inl rfl⟩)

theorem sniffGate_setUpFrame (b0 : Option Byte) (next : Phase) :
    LeadsTo s.SetUpFrame (sniffGate b0 s (gateThen next)) := by
  cases b0 with
  | none => exact leadsTo_ite (leadsTo_memRead fun _ => leadsTo_next ⟨rfl, .inl rfl⟩) (gateThen_setUpFrame s next _)
  | some b => exact leadsTo_memRead fun _ => gateThen_setUpFrame s next _

theorem validateStep_setUpFrame (m : List Byte) : LeadsTo s.SetUpFrame (validateStep m s) :=
  leadsTo_ite (leadsTo_memRead fun _ => leadsTo_next ⟨rfl, .inl rfl⟩)
    (leadsTo_ite (leadsTo_next ⟨rfl, .inr rfl⟩) (leadsTo_next ⟨rfl, .inl rfl⟩))

theorem endPhase_setUpFrame : LeadsTo s.SetUpFrame (endPhase s) := leadsTo_next ⟨rfl, .inl rfl⟩

end

/-! ### EMBED -/

/-- `t` is `s` but for what EMBED's operations may change. -/
def State.EmbedFrame (s t : State) : Prop :=
  t = { s with
    phase := t.phase, pos := t.pos, outLen := t.outLen, j := t.j, car := t.car,
    status := { s.status with
      fmt := t.status.fmt, wrap := t.status.wrap, err := t.status.err, busy := t.status.busy,
      done := t.status.done } } ∧
    (t.outLen = s.outLen ∨ t.outLen = 0#32)

section
variable {s t : State}

theorem State.SetUpFrame.embed (h : s.SetUpFrame t) : s.EmbedFrame t := by
  obtain ⟨ht, hout⟩ := h
  exact ⟨by rw [ht], hout⟩

theorem exec_embedFrame (s : State) : LeadsTo s.EmbedFrame (exec .embed s) := by
  intro t h
  obtain ⟨f, hf, he⟩ := exec_embed_microOp s.phase
  rw [he s rfl] at h
  generalize s.phase = ph at hf
  cases hf with
  | decode => exact (decodeStep_setUpFrame s _ t h).embed
  | sniff _ b0 => exact (sniffGate_setUpFrame s b0 _ t h).embed
  | validate _ m => exact (validateStep_setUpFrame s m t h).embed
  | embedCapchk m => exact leadsTo_ite (leadsTo_next ⟨rfl, .inr rfl⟩) (leadsTo_next ⟨rfl, .inl rfl⟩) t h
  | walkRead m =>
    exact leadsTo_memRead (fun _ => leadsTo_payloadBit fun _ => leadsTo_ite (leadsTo_next ⟨rfl, .inl rfl⟩)
      (leadsTo_ite (leadsTo_next ⟨rfl, .inl rfl⟩) (leadsTo_next ⟨rfl, .inl rfl⟩))) t h
  | walkWrite m b b2 =>
    exact leadsTo_memWrite (leadsTo_ite (leadsTo_next ⟨rfl, .inl rfl⟩) (leadsTo_next ⟨rfl, .inl rfl⟩)) t h
  | endCmd => exact (endPhase_setUpFrame s t h).embed
  | none => cases h

/-- Settles O37: the registers operation by operation, the carrier from the one byte a micro-step accesses. -/
theorem embedFrame : Obligations.EmbedFrame := by
  intro s t h
  obtain ⟨hframe, hout⟩ := exec_embedFrame s t h
  refine ⟨hframe, hout, fun m b b2 hp a ha => ?_, fun hp => ?_⟩
  · exact (walkWrite_accessesOnly m b b2 s).changesNoOther t (exec_embed_walkWrite hp ▸ h) .car a (.inr ha)
  · obtain ⟨_, _, hr⟩ | ⟨m, b, b2, hw⟩ := embed_readsOneByte_or_writes s
    · exact hr.mem_eq h .car
    · exact absurd hw (hp m b b2)

/-! ### CHECK -/

/-- `t` is `s` but for what CHECK's operations may change, `MAX_CHARS` set apart. -/
def State.CheckFrame (s t : State) : Prop :=
  t = { s with
    phase := t.phase, pos := t.pos, outLen := t.outLen, maxChars := t.maxChars, j := t.j, eq := t.eq,
    status := { s.status with
      fmt := t.status.fmt, found := t.status.found, capOk := t.status.capOk, err := t.status.err,
      busy := t.status.busy, done := t.status.done } } ∧
    (t.outLen = s.outLen ∨ t.outLen = 0#32)

theorem State.SetUpFrame.check (h : s.SetUpFrame t) : s.CheckFrame t ∧ t.maxChars = s.maxChars := by
  obtain ⟨ht, hout⟩ := h
  exact ⟨⟨by rw [ht], hout⟩, by rw [ht]⟩

theorem checkProbe_checkFrame (m : List Byte) (s : State) (e : Bool) :
    LeadsTo (fun t => s.CheckFrame t ∧ t.maxChars = s.maxChars) (checkProbe m { s with eq := e }) :=
  leadsTo_memRead fun _ => leadsTo_payloadBit fun _ =>
    leadsTo_ite (leadsTo_next ⟨⟨rfl, .inl rfl⟩, rfl⟩) (leadsTo_next ⟨⟨rfl, .inl rfl⟩, rfl⟩)

theorem checkCapchk_checkFrame (m : List Byte) (s : State) : LeadsTo s.CheckFrame (checkCapchk m s) :=
  leadsTo_ite (leadsTo_next ⟨rfl, .inl rfl⟩) (leadsTo_next ⟨rfl, .inl rfl⟩)

/-- Settles O38: operation by operation; the capacity check is the one that sets `MAX_CHARS`. -/
theorem checkFrame : Obligations.CheckFrame := by
  intro s t h
  suffices s.CheckFrame t ∧ ((∀ m, s.phase ≠ .capchk m) → t.maxChars = s.maxChars) from
    ⟨this.1.1, this.1.2, this.2⟩
  obtain ⟨f, hf, he⟩ := exec_check_microOp s.phase
  rw [he s rfl] at h
  generalize s.phase = ph at hf
  cases hf with
  | decode => exact (decodeStep_setUpFrame s _ t h).check.imp_right fun h _ => h
  | sniff _ b0 => exact (sniffGate_setUpFrame s b0 _ t h).check.imp_right fun h _ => h
  | validate _ m => exact (validateStep_setUpFrame s m t h).check.imp_right fun h _ => h
  | checkCapchk m => exact ⟨checkCapchk_checkFrame m s t h, fun hp => absurd rfl (hp m)⟩
  | checkStart m => exact (checkProbe_checkFrame m s true t h).imp_right fun h _ => h
  | checkRead m => exact (checkProbe_checkFrame m s s.eq t h).imp_right fun h _ => h
  | endCmd => exact (endPhase_setUpFrame s t h).check.imp_right fun h _ => h
  | none => cases h

/-! ### EXTRACT -/

/-- `t` is `s` but for what EXTRACT's operations may change. -/
def State.ExtractFrame (s t : State) : Prop :=
  t = { s with
    phase := t.phase, pos := t.pos, outLen := t.outLen, j := t.j, k := t.k, acc := t.acc, tail := t.tail,
    eq := t.eq, out := t.out,
    status := { s.status with
      fmt := t.status.fmt, found := t.status.found, err := t.status.err, busy := t.status.busy,
      done := t.status.done } }

theorem State.SetUpFrame.extract (h : s.SetUpFrame t) : s.ExtractFrame t := by
  obtain ⟨ht, -⟩ := h
  rw [State.ExtractFrame, ht]

theorem bofProbe_extractFrame (s : State) (e : Bool) (j : Word) :
    LeadsTo s.ExtractFrame (bofProbe { s with eq := e, j := j }) :=
  leadsTo_memRead fun _ => leadsTo_ite (leadsTo_next rfl) (leadsTo_ite (leadsTo_next rfl) (leadsTo_next rfl))

theorem scanByte_extractFrame (k : Nat) (s : State) (acc : Byte) :
    LeadsTo s.ExtractFrame (scanByte k { s with acc := acc }) := leadsTo_memRead fun _ => leadsTo_next rfl

theorem scanStore_extractFrame (s : State) : LeadsTo s.ExtractFrame (scanStore s) :=
  leadsTo_ite (leadsTo_next rfl) (leadsTo_memWrite (leadsTo_ite (leadsTo_next rfl) (leadsTo_next rfl)))

theorem bofStart_extractFrame (s : State) : LeadsTo s.ExtractFrame (bofStart s) :=
  leadsTo_ite (leadsTo_next rfl) (bofProbe_extractFrame s true 0#32)

theorem scanStep_extractFrame (k : Nat) (s : State) : LeadsTo s.ExtractFrame (scanStep k s) :=
  leadsTo_ite (leadsTo_ite (leadsTo_next rfl) (scanByte_extractFrame 0 s 0#8))
    (leadsTo_ite (scanByte_extractFrame k s s.acc) (scanStore_extractFrame s))

theorem exec_extractFrame (s : State) : LeadsTo s.ExtractFrame (exec .extract s) := by
  intro t h
  obtain ⟨f, hf, he⟩ := exec_extract_microOp s.phase
  rw [he s rfl] at h
  generalize s.phase = ph at hf
  cases hf with
  | decode => exact (decodeStep_setUpFrame s _ t h).extract
  | sniff _ b0 => exact (sniffGate_setUpFrame s b0 _ t h).extract
  | validate _ m hi => cases hi
  | bofStart m => exact bofStart_extractFrame s t h
  | bofRead m => exact bofProbe_extractFrame s s.eq s.j t h
  | scan k => exact scanStep_extractFrame k s t h
  | endCmd => exact (endPhase_setUpFrame s t h).extract
  | none => cases h

/-- Settles O39: the registers operation by operation, `OUT` from the one byte a micro-step accesses. -/
theorem extractFrame : Obligations.ExtractFrame := by
  intro s t h
  refine ⟨exec_extractFrame s t h, fun n hp hn a ha => ?_, fun hp => ?_⟩
  · exact (scanStore_accessesOnly s).changesNoOther t (exec_extract_store hp (Nat.not_lt_of_le hn) ▸ h) .out a (.inr ha)
  · obtain ⟨_, _, hr⟩ | ⟨n, hn, hstore⟩ := extract_readsOneByte_or_stores s
    · exact hr.mem_eq h .out
    · exact absurd (hp n hn) hstore

end

/-! ### An EMBED that fails -/

/-- EMBED, accepted when `CAR` was `c`, has raised no error yet while it runs, and `CAR` is still `c` except in the walk
and after an end without error. -/
structure EmbedSafe (c : Memory) (t : State) : Prop where
  busyErr : t.status.busy = true → t.status.err = .noError
  car : t.car = c ∨ t.status.err = .noError ∧ (t.status.busy = true → ∃ m next, t.phase = .walk m next)

section
variable {c : Memory} {s : State}

/-- The walk goes on or ends without error, whatever it has done to `CAR` (R143, 60_exceptions R184). -/
theorem walkLoop_embedSafe (m : List Byte) (herr : s.status.err = .noError) :
    LeadsTo (EmbedSafe c) (walkLoop m s) :=
  leadsTo_ite (leadsTo_next ⟨fun _ => herr, .inr ⟨herr, fun _ => ⟨m, .read, rfl⟩⟩⟩)
    (leadsTo_next ⟨nofun, .inr ⟨rfl, nofun⟩⟩)

theorem walkRead_embedSafe (m : List Byte) (herr : s.status.err = .noError) :
    LeadsTo (EmbedSafe c) (walkRead m s) :=
  leadsTo_memRead fun _ => leadsTo_payloadBit fun _ =>
    leadsTo_ite (leadsTo_next ⟨fun _ => herr, .inr ⟨herr, fun _ => ⟨m, _, rfl⟩⟩⟩)
      (walkLoop_embedSafe (s := { s with pos := _, j := s.j + 1#32 }) m herr)

/-- The gate's ending leaves `CAR`, with an error or without (40_sniffer R102). -/
theorem gateThen_embedSafe (next : Phase) (herr : s.status.err = .noError) (hcar : s.car = c) :
    LeadsTo (EmbedSafe c) (gateThen next s) :=
  leadsTo_ite (leadsTo_next ⟨nofun, .inl hcar⟩) (leadsTo_next ⟨fun _ => herr, .inl hcar⟩)

/-- A micro-step of EMBED keeps it so: every `raise` stands before the walk. -/
theorem exec_embedSafe (hb : s.status.busy = true) (hs : EmbedSafe c s) : LeadsTo (EmbedSafe c) (exec .embed s) := by
  obtain ⟨herr, hcar⟩ := hs
  have herr := herr hb
  have hcar (hp : ∀ m next, s.phase ≠ .walk m next) : s.car = c := hcar.resolve_right fun ⟨_, hwalk⟩ =>
    have ⟨m, next, h⟩ := hwalk hb
    hp m next h
  intro t h
  obtain ⟨f, hf, he⟩ := exec_embed_microOp s.phase
  rw [he s rfl] at h
  generalize s.phase = ph at hf hcar
  cases hf with
  | decode =>
    have hcar := hcar nofun
    exact leadsTo_ite (leadsTo_next ⟨nofun, .inl hcar⟩)
      (leadsTo_ite (leadsTo_next ⟨nofun, .inl hcar⟩) (leadsTo_next ⟨fun _ => herr, .inl hcar⟩)) t h
  | sniff _ b0 =>
    have hcar := hcar nofun
    obtain ⟨-, -, b, -, rfl⟩ | ⟨f, h⟩ := sniffGate_next h
    · exact ⟨fun _ => herr, .inl hcar⟩
    · exact gateThen_embedSafe (s := s.setFmt f) _ herr hcar t h
  | validate _ m =>
    have hcar := hcar nofun
    exact leadsTo_ite (leadsTo_memRead fun _ => leadsTo_next ⟨fun _ => herr, .inl hcar⟩)
      (leadsTo_ite (leadsTo_next ⟨nofun, .inl hcar⟩) (leadsTo_next ⟨fun _ => herr, .inl hcar⟩)) t h
  | embedCapchk m =>
    have hcar := hcar nofun
    exact leadsTo_ite (leadsTo_next ⟨nofun, .inl hcar⟩) (leadsTo_next ⟨fun _ => herr, .inl hcar⟩) t h
  | walkRead m => exact walkRead_embedSafe m herr t h
  | walkWrite m b b2 =>
    exact leadsTo_memWrite (walkLoop_embedSafe
      (s := { (s.setMem .car (s.car.write (hdr + s.j.toNat) b2)).noteWrap b with j := s.j + 1#32 }) m herr) t h
  | endCmd => exact leadsTo_next ⟨fun _ => herr, .inl (hcar nofun)⟩ t h
  | none => cases h

/-- EMBED is latched, the host has no turn left, and `CAR` is safe. -/
def EmbedRun (c : Memory) (t : State) : Prop := decode t.opl = .ok .embed ∧ t.schedule = [] ∧ EmbedSafe c t

theorem step_embedRun {t : State} (hs : EmbedRun c s) (h : step s = .next t) : EmbedRun c t := by
  have ⟨hd, hsched, hsafe⟩ := hs
  cases hb : s.status.busy with
  | false =>
    rw [step_idle hsched hb] at h
    cases h
    exact hs
  | true =>
    rw [step_command hsched hb hd] at h
    obtain ⟨hopl, hsched'⟩ := exec_keepsCommand .embed s t h
    exact ⟨hopl ▸ hd, hsched'.trans hsched, exec_embedSafe hb hsafe t h⟩

end

/-- Settles O50: acceptance leaves `CAR` and raises nothing, and every step keeps `CAR` safe. -/
theorem failedEmbedLeavesCarrier : Obligations.FailedEmbedLeavesCarrier := by
  intro s t n hsched h _ herr
  have hstart : EmbedRun s.car (s.accept (encode .embed)) := ⟨decode_encode .embed, hsched, ⟨fun _ => rfl, .inl rfl⟩⟩
  obtain ⟨-, -, -, hcar⟩ := stepN_keeps (fun _ _ => step_embedRun) hstart h
  exact hcar.resolve_right fun ⟨hno, _⟩ => herr hno

end Sys2Proof.Machine

/-! PROOFS. CHECK from acceptance to its end, and why it finds one message at most (43_engine R150 to R153). -/

namespace Sys2Proof.Machine

section
variable {s : State} {f : Format} {m : List Byte} (hr : s.ready .check) (hf : s.sniffs f) (hne : f ≠ .unsupported)
  (hm : s.messageIs m) (heof : containsEof m = false)
include hr hf hne hm heof

/-- Where the payload does not fit, CHECK ends at the capacity check with `FOUND = 0` (R151). -/
theorem stepN_accept_check_small (hsmall : s.carSize.toNat < hdr + s.nBits) :
    stepN (3 + (s.msgLen.toNat + 1) + 1) (s.accept (encode .check)) = .next { s.accept (encode .check) with
      status := { Status.zero with done := true, fmt := f }, maxChars := s.carSize / 8#32, phase := .idle } := by
  have ⟨_, hs, _⟩ := hr
  refine stepN_trans (stepN_accept_capchk rfl hr hf hne hm heof) ?_
  rw [stepN_one, step_atCapchk hs, exec_check_capchk rfl]
  obtain ⟨-, he⟩ | ⟨hfits, -⟩ := checkCapchk_cases m (s.atCapchk .check f m)
  · exact he
  · exact absurd hfits (Nat.not_le_of_lt hsmall)

/-- Where the payload fits, CHECK's probe reads every carrier byte of it and ends with the verdict `v` (R152). -/
theorem stepN_accept_check_fits (hfits : hdr + s.nBits ≤ s.carSize.toNat) (hw : s.car.written hdr s.nBits) :
    ∃ v, stepN (3 + (s.msgLen.toNat + 1) + 1 + s.nBits) (s.accept (encode .check)) =
        .next { s.accept (encode .check) with
          status := { Status.zero with done := true, fmt := f, capOk := true, found := v },
          maxChars := s.carSize / 8#32, j := BitVec.ofNat 32 s.nBits, pos := BitVec.ofNat 32 (hdr + s.nBits), eq := v,
          phase := .idle } ∧
      (v = true ↔ s.car.carries hdr (payloadBits m)) := by
  have ⟨_, hs, hcar, _⟩ := hr
  have hbits := nBits_of_message hm
  have hcapchk : stepN 1 (s.atCapchk .check f m) = .next { s.accept (encode .check) with
      status := { statusAccepted with fmt := f, capOk := true }, maxChars := s.carSize / 8#32, j := 0#32,
      phase := .probe m .start } := by
    rw [stepN_one, step_atCapchk hs, exec_check_capchk rfl]
    obtain ⟨hsmall, -⟩ | ⟨-, he⟩ := checkCapchk_cases m (s.atCapchk .check f m)
    · exact absurd hfits (Nat.not_le_of_lt hsmall)
    · exact he
  obtain ⟨v, hrun, hv⟩ := run_check_probe (s.nBits - 1) true
    { s.accept (encode .check) with
      status := { statusAccepted with fmt := f, capOk := true }, maxChars := s.carSize / 8#32, j := 0#32,
      phase := .probe m .start }
    hs rfl (decode_encode .check) hm hfits hcar (by change 0 + (s.nBits - 1 + 1) = s.nBits; omega)
    (exec_check_probeFirst rfl) fun i _ => hw i
  rw [Nat.sub_add_cancel (by omega)] at hrun
  refine ⟨v, stepN_trans (stepN_trans (stepN_accept_capchk rfl hr hf hne hm heof) hcapchk) hrun, hv.trans ?_⟩
  rw [carries_iff, payloadBits_length, ← hbits]
  exact ⟨fun ⟨_, h⟩ => ⟨hw, fun i b want => h i b want (Nat.zero_le i)⟩,
    fun ⟨_, h⟩ => ⟨rfl, fun i b want _ => h i b want⟩⟩

end

/-- Settles O52: CHECK ends at the capacity check, or at the end of its probe. -/
theorem checkReportsPresence : Obligations.CheckReportsPresence := by
  intro s f m hr hf hne hm heof hw
  have hbits := nBits_of_message hm
  have hquotient : (s.carSize / 8#32).toNat = s.carSize.toNat / 8 := BitVec.toNat_udiv
  have hbound : s.stepBound .check = 3 + (s.msgLen.toNat + 1) + 1 + s.nBits := rfl
  rw [← hbits] at hw ⊢
  rw [frame_length, ← hbits, Nat.add_comm s.nBits]
  by_cases hfits : hdr + s.nBits ≤ s.carSize.toNat
  · obtain ⟨v, hrun, hv⟩ := stepN_accept_check_fits hr hf hne hm heof hfits (hw hfits)
    exact ⟨_, _, hbound.ge, hrun, ⟨rfl, rfl, rfl⟩, rfl, rfl, rfl, rfl, hquotient, ⟨fun _ => hfits, fun _ => rfl⟩,
      hv.trans (and_iff_right hfits).symm, rfl, rfl, rfl⟩
  · have hrun := stepN_accept_check_small hr hf hne hm heof (Nat.lt_of_not_le hfits)
    exact ⟨_, _, hbound ▸ Nat.le_add_right _ _, hrun, ⟨rfl, rfl, rfl⟩, rfl, rfl, rfl, rfl, hquotient,
      ⟨nofun, fun h => absurd h hfits⟩, ⟨nofun, fun ⟨h, _⟩ => absurd h hfits⟩, rfl, rfl, rfl⟩

/-! ### One message at most -/

theorem toBits_injective : Function.Injective toBits := Function.LeftInverse.injective fromBits_toBits

/-- Of two byte strings that a carrier carries at the same place the one is a beginning of the other. -/
theorem prefix_of_carries {c : Memory} {a : Nat} {x y : List Byte} (hx : c.carries a (toBits x))
    (hy : c.carries a (toBits y)) (hlen : x.length ≤ y.length) : x <+: y := by
  have hbits := carries_take_eq hx hy (by rw [toBits_length, toBits_length]; omega)
  have hsplit : toBits y = toBits (y.take x.length) ++ toBits (y.drop x.length) := by
    rw [← toBits_append, List.take_append_drop]
  have hshort : (toBits (y.take x.length)).length = (toBits x).length := by
    rw [toBits_length, toBits_length, List.length_take, Nat.min_eq_left hlen]
  rw [hsplit, ← hshort, List.take_left] at hbits
  exact List.prefix_iff_eq_take.mpr (toBits_injective hbits)

/-- A message whose stream begins another's is that other: else its end sentinel would stand early there (41_framer
R114). -/
theorem eq_of_stream_prefix {m1 m2 : List Byte} (h2 : containsEof m2 = false) (h : m1 ++ eof <+: m2 ++ eof) :
    m1 = m2 := by
  have hlen : m1.length + 3 ≤ m2.length + 3 := by simpa [eof] using h.length_le
  obtain hlt | heq : m1.length < m2.length ∨ m1.length = m2.length := by omega
  · have hearly := noEarlyEofInStream m2 (m1.length + 3) h2 (by omega)
    have htake : (m2 ++ eof).take (m1.length + 3) = m1 ++ eof := by
      rw [show m1.length + 3 = (m1 ++ eof).length by simp [eof]]
      exact (List.prefix_iff_eq_take.mp h).symm
    rw [htake, containsEof_append_right m1 eof (by decide)] at hearly
    cases hearly
  · exact (List.append_inj (h.eq_of_length (by simp [heq])) heq).1

theorem eq_of_carries_payload {c : Memory} {m1 m2 : List Byte} (h2 : containsEof m2 = false)
    (hc1 : c.carries 200 (payloadBits m1)) (hc2 : c.carries 200 (payloadBits m2)) (hlen : m1.length ≤ m2.length) :
    m1 = m2 := by
  have hframe : bof ++ m1 ++ eof <+: bof ++ m2 ++ eof := prefix_of_carries hc1 hc2 (by simpa using hlen)
  rw [List.append_assoc, List.append_assoc, List.prefix_append_right_inj] at hframe
  exact eq_of_stream_prefix h2 hframe

/-- Settles O53: the shorter payload begins the longer, so its sentinel would stand early in it. -/
theorem carrierHoldsOneMessage : Obligations.CarrierHoldsOneMessage := by
  intro c m1 m2 h1 h2 hc1 hc2
  obtain hle | hle := Nat.le_total m1.length m2.length
  · exact eq_of_carries_payload h2 hc1 hc2 hle
  · exact (eq_of_carries_payload h1 hc2 hc1 hle).symm

end Sys2Proof.Machine

/-! PROOFS. EXTRACT from acceptance to its end (43_engine R155 to R163), and that it gives back what EMBED has hidden
(R164). -/

namespace Sys2Proof.Machine

/-! ### The BOF probe -/

/-- The state of EXTRACT, accepted in `s`, after the gate. -/
def State.atProbe (s : State) (f : Format) : State :=
  { s.accept (encode .extract) with status := { statusAccepted with fmt := f }, phase := .probe [] .start }

section
variable {s : State} {f : Format}

theorem stepN_accept_atProbe (hr : s.ready .extract) (hf : s.sniffs f) (hne : f ≠ .unsupported) :
    stepN 3 (s.accept (encode .extract)) = .next (s.atProbe f) := run_gate (by decide) hr hf hne

theorem step_atProbe (hs : s.schedule = []) (f : Format) : step (s.atProbe f) = bofStart (s.atProbe f) :=
  (step_command (s := s.atProbe f) hs rfl (decode_encode .extract)).trans (exec_extract_probeFirst rfl)

/-- Settles O54: the probe's first micro-step ends the command before it reads. -/
theorem extractShortCarrier : Obligations.ExtractShortCarrier := by
  intro s f hr hf hne hsmall
  have ⟨_, hs, _⟩ := hr
  have hend : stepN 1 (s.atProbe f) = .next ((s.atProbe f).setFound false).finished := by
    rw [stepN_one, step_atProbe hs]
    exact bofStart_short (s := s.atProbe f) hsmall
  have hbound : s.stepBound .extract = 3 + 1 := if_pos hsmall
  exact ⟨3 + 1, _, hbound.ge, stepN_trans (stepN_accept_atProbe hr hf hne) hend, ⟨rfl, rfl, rfl⟩, rfl, rfl, rfl, rfl,
    rfl, rfl, rfl⟩

/-- Runs from two states whose first step is the same. -/
theorem stepN_congr {t : State} (n : Nat) (h : step s = step t) : stepN (n + 1) s = stepN (n + 1) t := by
  rw [stepN, stepN, h]

/-- The probe's 24 reads lead to the verdict whether the carrier carries "BOF" (R155, R157). -/
theorem stepN_atProbe_bofVerdict (hs : s.schedule = []) (hcap : s.carSize.toNat ≤ s.caps.carCap)
    (hsize : scanStart ≤ s.carSize.toNat) (hw : s.car.written hdr 24) :
    ∃ e, stepN 24 (s.atProbe f) = .next (bofVerdict (s.atProbe f) e) ∧
      (e = true ↔ s.car.carries hdr (toBits bof)) := by
  have hfirst : step (s.atProbe f) = step { s.atProbe f with eq := true, j := 0#32, phase := .probe [] .read } := by
    rw [step_atProbe hs, bofStart_long (s := s.atProbe f) hsize,
      step_command (s := { s.atProbe f with eq := true, j := 0#32, phase := .probe [] .read }) hs rfl
        (decode_encode .extract),
      exec_extract_probeNext rfl]
    rfl
  obtain ⟨e, hrun, he⟩ := run_bof_probe 23
    { s.atProbe f with eq := true, j := 0#32, phase := .probe [] .read } hs rfl (decode_encode .extract) hsize hcap rfl
    rfl fun i _ => hw i
  refine ⟨e, (stepN_congr 23 hfirst).trans (hrun.trans (by cases e <;> rfl)), he.trans ?_⟩
  rw [carries_iff]
  refine ⟨fun ⟨_, h⟩ => ⟨hw, fun i b want hb hbit => ?_⟩, fun ⟨_, h⟩ => ⟨rfl, fun i b _ hi hb => ?_⟩⟩
  · have hi : i < 24 := (List.getElem?_eq_some_iff.mp hbit).1
    rw [h i b (Nat.zero_le i) hi hb]
    exact Option.some.inj ((bofBit_eq i hi).symm.trans hbit)
  · exact h i b _ hb (bofBit_eq i hi)

theorem stepN_accept_bofVerdict (hr : s.ready .extract) (hf : s.sniffs f) (hne : f ≠ .unsupported)
    (hsize : 224 ≤ s.carSize.toNat) (hw : s.car.written 200 24) :
    ∃ e, stepN 27 (s.accept (encode .extract)) = .next (bofVerdict (s.atProbe f) e) ∧
      (e = true ↔ s.car.carries 200 (toBits bof)) := by
  have ⟨_, hs, hcap, _⟩ := hr
  obtain ⟨e, hrun, he⟩ := stepN_atProbe_bofVerdict hs hcap hsize hw
  exact ⟨e, stepN_trans (stepN_accept_atProbe hr hf hne) hrun, he⟩

end

/-- Settles O55: a carrier carries one string of 24 bits from 200 up, so the verdict is a mismatch. -/
theorem extractWithoutBof : Obligations.ExtractWithoutBof := by
  intro s f bits hr hf hne hsize hc hlen hbits
  obtain ⟨e, hrun, he⟩ := stepN_accept_bofVerdict hr hf hne hsize (hlen ▸ (carries_iff.mp hc).1)
  obtain rfl : e = false := Bool.eq_false_iff.mpr fun hfound => hbits <| by
    have hsame := carries_take_eq hc (he.mp hfound) hlen.le
    rwa [hlen, List.take_of_length_le (show (toBits bof).length ≤ 24 from le_rfl)] at hsame
  exact ⟨27, _, le_rfl, hrun, ⟨rfl, rfl, rfl⟩, rfl, rfl, rfl, rfl, rfl, rfl, rfl⟩

/-! ### The scan -/

/-- The state in which EXTRACT, accepted in `s`, stands after the characters `l` of the scan, with `o` in `OUT`
(R160). -/
def State.scanned (s : State) (f : Format) (l : List Byte) (acc : Byte) (o : Memory) : State :=
  { bofVerdict (s.atProbe f) true with
    acc := acc, tail := tailOf l, k := BitVec.ofNat 32 l.length, pos := BitVec.ofNat 32 (224 + 8 * l.length), out := o }

theorem carries_bof_append {c : Memory} {l : List Byte} :
    c.carries 200 (toBits (bof ++ l)) ↔ c.carries 200 (toBits bof) ∧ c.carries 224 (toBits l) := by
  rw [toBits_append]
  exact carries_append

theorem Memory.carries.bof_prefix {c : Memory} {x y : List Byte} (h : c.carries 200 (toBits (bof ++ (x ++ y)))) :
    c.carries 200 (toBits (bof ++ x)) := by
  rw [← List.append_assoc, toBits_append] at h
  exact (carries_append.mp h).1

section
variable {s : State} {f : Format} {l : List Byte} {acc : Byte} {o : Memory}

/-- The scan of characters without "EOF" stores them in `OUT` from 0 up, in 9 micro-steps each (R160, R211). -/
theorem stepN_accept_scanned (hr : s.ready .extract) (hf : s.sniffs f) (hne : f ≠ .unsupported)
    (hc : s.car.carries 200 (toBits (bof ++ l))) (hfits : 224 + 8 * l.length ≤ s.carSize.toNat)
    (heof : containsEof l = false) (hroom : l.length ≤ s.caps.outCap) :
    ∃ acc o, stepN (27 + 9 * l.length) (s.accept (encode .extract)) = .next (s.scanned f l acc o) ∧ o.holds 0 l ∧
      ∀ a, l.length ≤ a → o.read a = s.out.read a := by
  have ⟨_, hs, hcap, _⟩ := hr
  obtain ⟨hbof, hl⟩ := carries_bof_append.mp hc
  obtain ⟨e, hprobe, he⟩ := stepN_accept_bofVerdict hr hf hne (by omega) (carries_iff.mp hbof).1
  obtain rfl := he.mpr hbof
  obtain ⟨acc, o, hscan, hheld, hbeyond⟩ := run_scan_to (s := bofVerdict (s.atProbe f) true) hs rfl
    (decode_encode .extract) hcap rfl rfl rfl rfl hl l.length le_rfl (by rwa [List.take_length]) hfits hroom
  rw [List.take_length] at hscan hheld
  exact ⟨acc, o, stepN_trans hprobe hscan, hheld, hbeyond⟩

theorem scanned_pos_toNat (f : Format) (acc : Byte) (o : Memory) (hfits : 224 + 8 * l.length ≤ s.carSize.toNat) :
    (s.scanned f l acc o).pos.toNat = 224 + 8 * l.length :=
  Nat.mod_eq_of_lt (Nat.lt_of_le_of_lt hfits s.carSize.isLt)

theorem scanned_k_toNat (f : Format) (acc : Byte) (o : Memory) (hroom : l.length ≤ s.caps.outCap) :
    (s.scanned f l acc o).k.toNat = l.length :=
  Nat.mod_eq_of_lt (Nat.lt_of_le_of_lt hroom (outCap_lt _))

theorem step_scanned (hs : s.schedule = []) : step (s.scanned f l acc o) = scanHead (s.scanned f l acc o) :=
  (step_command (s := s.scanned f l acc o) hs rfl (decode_encode .extract)).trans
    ((exec_extract_scan (k := 0) rfl).trans (if_pos rfl))

/-- The parities of the next character's chunk. -/
theorem scanned_chunk {x : Byte} (hc : s.car.carries 200 (toBits (bof ++ (l ++ [x]))))
    (hfits : 224 + 8 * l.length ≤ s.carSize.toNat) {k : Nat} (hk : k < 8) :
    ∃ b, (s.scanned f l acc o).car.read ((s.scanned f l acc o).pos.toNat + k) = some b ∧ parity b = msbBit x k := by
  rw [scanned_pos_toNat f acc o hfits]
  exact carries_char (carries_bof_append.mp hc).2 (by simp) hk

theorem stepBound_extract (hsize : 224 ≤ s.carSize.toNat) :
    s.stepBound .extract = 3 + 24 + 9 * ((s.carSize.toNat - 224) / 8) + 1 := if_neg (Nat.not_lt_of_le hsize)

end

theorem holds_write_snoc {m : Memory} {bs : List Byte} (b : Byte) (h : m.holds 0 bs) :
    (m.write bs.length b).holds 0 (bs ++ [b]) := by
  refine holds_snoc (fun i hi => ?_) (read_write_same m bs.length b)
  rw [read_write_other _ _ _ _ (by omega)]
  exact h i hi

theorem Memory.holds.of_append {m : Memory} {a : Nat} {x y : List Byte} (h : m.holds a (x ++ y)) : m.holds a x := by
  intro i hi
  rw [h i (by rw [List.length_append]; omega), List.getElem?_append_left hi]

/-- Settles O57: after `p` the scan's head finds no whole chunk left. -/
theorem extractUnterminated : Obligations.ExtractUnterminated := by
  intro s f p hr hf hne hc hfits hend heof hroom
  have hfits : 224 + 8 * p.length ≤ s.carSize.toNat := by omega
  have ⟨_, hs, _⟩ := hr
  obtain ⟨acc, o, hrun, hheld, hbeyond⟩ := stepN_accept_scanned hr hf hne hc hfits heof hroom
  have hpos := scanned_pos_toNat f acc o hfits
  have hraise : stepN 1 (s.scanned f p acc o) =
      .next ((s.scanned f p acc o).raised .unterminatedMessage (s.scanned f p acc o).pos) := by
    rw [stepN_one, step_scanned hs]
    refine scanHead_unterminated ?_
    rw [hpos]
    change s.carSize.toNat < 224 + 8 * p.length + 8
    omega
  refine ⟨_, _, ?_, stepN_trans hrun hraise, ⟨rfl, rfl, rfl⟩, rfl, rfl, hpos, rfl, hheld, hbeyond, rfl, rfl⟩
  rw [stepBound_extract (by omega)]
  omega

/-- Settles O58: after the first `OUT_CAP` characters `OUT` is full, and one more chunk is read in vain. -/
theorem extractOverflows : Obligations.ExtractOverflows := by
  intro s f p hr hf hne hc hfits hlen heof
  obtain ⟨l, x, rfl⟩ : ∃ l x, p = l ++ [x] := ⟨_, _, (List.dropLast_concat_getLast (by rintro rfl; cases hlen)).symm⟩
  have hl : l.length = s.caps.outCap := by simpa using hlen
  rw [← hl, List.take_left] at heof ⊢
  rw [List.length_append, List.length_singleton] at hfits
  have hfits' : 224 + 8 * l.length ≤ s.carSize.toNat := by omega
  have ⟨_, hs, hcap, _⟩ := hr
  obtain ⟨acc, o, hrun, hheld, -⟩ := stepN_accept_scanned hr hf hne hc.bof_prefix hfits' heof hl.le
  have hpos := scanned_pos_toNat f acc o hfits'
  have hchunk := run_scan_chunk (s := s.scanned f l acc o) (c := x) hs rfl (decode_encode .extract)
    (by rw [hpos]; change _ ≤ s.carSize.toNat; omega) hcap rfl fun k => scanned_chunk hc hfits'
  have hraise : stepN 1 { s.scanned f l acc o with acc := x, phase := .scan 8 } =
      .next ({ s.scanned f l acc o with acc := x, phase := .scan 8 }.raised .outputOverflow
        (s.scanned f l acc o).pos) := by
    refine stepN_one_command hs rfl (decode_encode .extract) ((exec_extract_store rfl (by decide)).trans ?_)
    exact scanStore_full (hl.ge.trans (scanned_k_toNat f acc o hl.le).ge)
  refine ⟨_, _, ?_, stepN_trans (stepN_trans hrun hchunk) hraise, ⟨rfl, rfl, rfl⟩, rfl, rfl, hpos, rfl, hheld, rfl,
    rfl⟩
  rw [stepBound_extract (by omega)]
  omega

theorem afterChar_scanned_k_toNat {s : State} {l : List Byte} (f : Format) (acc x : Byte) (o : Memory)
    (hroom : l.length < s.caps.outCap) : (afterChar (s.scanned f l acc o) x).k.toNat = l.length + 1 := by
  have hk := scanned_k_toNat f acc o hroom.le
  exact (toNat_succ (hk.trans_lt hroom) (outCap_lt _)).trans (congrArg (· + 1) hk)

/-- The scan ends at the character with which the stream first ends in "EOF" (10_state R37). -/
theorem sawEof_afterChar_scanned {s : State} {l p : List Byte} {x : Byte} (f : Format) (acc : Byte) (o : Memory)
    (hroom : l.length < s.caps.outCap) (hstream : p ++ eof = l ++ [x]) :
    sawEof (afterChar (s.scanned f l acc o) x) = true := by
  obtain ⟨hthree, htail⟩ := (tailOf_eof (l ++ [x])).mpr ⟨p, hstream.symm⟩
  rw [List.length_append, List.length_singleton] at hthree
  rw [tailOf_snoc] at htail
  rw [sawEof, afterChar_scanned_k_toNat f acc x o hroom, Bool.and_eq_true, decide_eq_true_iff, beq_iff_eq]
  exact ⟨hthree, htail⟩

/-- Settles O56: the last byte of the first "EOF" is the character at which the test of the scan holds. -/
theorem extractDecodesToFirstEof : Obligations.ExtractDecodesToFirstEof := by
  intro s f p hr hf hne hc hfits heof hroom
  obtain ⟨l, hl⟩ : ∃ l, l = p ++ [0x45#8, 0x4F#8] := ⟨_, rfl⟩
  have hlen : l.length = p.length + 2 := by rw [hl, List.length_append]; rfl
  have hstream : p ++ eof = l ++ [0x46#8] := by rw [hl, List.append_assoc]; rfl
  rw [List.append_assoc, hstream] at hc
  have hshort := heof l.length (by omega)
  rw [hstream] at hshort ⊢
  rw [List.take_left] at hshort
  have hfits' : 224 + 8 * l.length ≤ s.carSize.toNat := by omega
  have ⟨_, hs, hcap, _⟩ := hr
  obtain ⟨acc, o, hrun, hheld, hbeyond⟩ := stepN_accept_scanned hr hf hne hc.bof_prefix hfits' hshort (by omega)
  have hpos := scanned_pos_toNat f acc o hfits'
  have hk := scanned_k_toNat (s := s) (l := l) f acc o (by omega)
  have hchar := run_scan_char (s := s.scanned f l acc o) (c := 0x46#8) hs rfl (decode_encode .extract)
    (by rw [hpos]; change _ ≤ s.carSize.toNat; omega) hcap rfl (by rw [hk]; change l.length < s.caps.outCap; omega)
    fun k => scanned_chunk hc hfits'
  have hk1 := afterChar_scanned_k_toNat (s := s) (l := l) f acc 0x46#8 o (by omega)
  rw [if_pos (sawEof_afterChar_scanned f acc o (by omega) hstream)] at hchar
  refine ⟨_, _, ?_, stepN_trans hrun hchar, ⟨rfl, rfl, rfl⟩, rfl, ?_, ?_, ?_, fun a ha => ?_, rfl, rfl⟩
  · rw [stepBound_extract (by omega)]
    omega
  · change ((afterChar (s.scanned f l acc o) 0x46#8).k - 3#32).toNat = p.length
    bv_omega
  · change ((s.scanned f l acc o).pos + 8#32).toNat = 224 + 8 * (p.length + 3)
    have := s.carSize.isLt
    bv_omega
  · change (o.write (s.scanned f l acc o).k.toNat 0x46#8).holds 0 (l ++ [0x46#8])
    rw [hk]
    exact holds_write_snoc _ hheld
  · change (o.write (s.scanned f l acc o).k.toNat 0x46#8).read a = s.out.read a
    rw [hk, read_write_other _ _ _ _ (by omega)]
    exact hbeyond a (by omega)

/-! ### EMBED, then EXTRACT -/

/-- EMBED leaves the first two bytes of the carrier, so the sniffer's verdict on it (R144). -/
theorem embedded_sniffs {s : State} {f : Format} {bits : List Bool} {c : Memory} (w : Bool)
    (hwalked : Walked bits 0 s.car c) (hf : s.sniffs f) : (s.embedded f c w).sniffs f := by
  obtain hshort | ⟨hn, b0, b1, h0, h1, hv⟩ := hf
  · exact .inl hshort
  · exact .inr ⟨hn, b0, b1, (hwalked.outside 0 (.inl (by decide))).trans h0,
      (hwalked.outside 1 (.inl (by decide))).trans h1, hv⟩

/-- Settles O59: EMBED leaves a carrier that carries the stream of the message, which EXTRACT decodes to its first
"EOF", the message's own end sentinel. -/
theorem roundTrip : Obligations.RoundTrip := by
  intro s f m hr hf hne hm heof hfits hw hroom
  have ⟨_, hs, hcap, _⟩ := hr
  obtain ⟨n, c, w, -, hembed, hwalked, -⟩ := stepN_accept_embedded hr hf hne hm heof hfits hw
  obtain ⟨n', u, -, hextract, hended, hstatus, hlen, -, hheld, -⟩ := extractDecodesToFirstEof (s.embedded f c w) f m
    ⟨rfl, hs, hcap, nofun⟩ (embedded_sniffs w hwalked hf) hne (hwalked.carries ((payloadBits_length m).symm ▸ hw))
    hfits (fun n => noEarlyEofInStream m n heof) hroom
  exact ⟨n, _, n', u, hembed, ⟨rfl, rfl, rfl⟩, rfl, hextract, hended, congrArg Status.err hstatus,
    congrArg Status.found hstatus, hlen, hheld.of_append⟩

end Sys2Proof.Machine

/-! PROOFS. The errors of a command by the priority of their causes (60_exceptions R185, R187). -/

namespace Sys2Proof.Machine

/-! ### The decode's error -/

theorem decodeStep_not_configured {s : State} {i : Instr} (hc : ¬ s.configured i) :
    decodeStep (readsMessage i) s = .next (s.raised .badConfig 0#32) := by
  obtain ⟨he, -⟩ | ⟨-, hcar, hmsg⟩ := decodeStep_cases (readsMessage i) s
  · exact he
  · exact absurd ⟨hcar, hmsg⟩ hc

/-- Settles O23: the decode raises exactly where a length does not fit. -/
theorem decodeChecksLengths : Obligations.DecodeChecksLengths := fun _ i hp =>
  ⟨fun hc => (exec_decode i hp).trans (decodeStep_not_configured hc),
    fun hc => (exec_decode i hp).trans (decodeStep_configured hc)⟩

/-! ### Each error of EMBED, from acceptance -/

/-- A length that does not fit ends every command at its decode (R187). -/
theorem stepN_accept_badConfig {s : State} {i : Instr} (hs : s.schedule = []) (hc : ¬ s.configured i) :
    stepN 1 (s.accept (encode i)) = .next ((s.accept (encode i)).raised .badConfig 0#32) :=
  stepN_one_command hs rfl (decode_encode i)
    ((exec_decode i rfl).trans (decodeStep_not_configured (s := s.accept (encode i)) hc))

/-- An unsupported carrier ends every command but IDENTIFY at the gate (R102). -/
theorem stepN_accept_unsupported {s : State} {i : Instr} (hi : i ≠ .identify) (hr : s.ready i)
    (hf : s.sniffs .unsupported) :
    ∃ n b0, stepN n (s.accept (encode i)) =
      .next (((s.atGate i b0).setFmt .unsupported).raised .unsupportedFormat 0#32) := by
  obtain ⟨n, b0, -, hgate⟩ := stepN_accept_gateVerdict hr hf
  rw [gateVerdict_eq_gateThen hi, gateThen_unsupported] at hgate
  exact ⟨n, b0, hgate⟩

/-- The validate phase reads the rest of the message, whatever it is, one byte a micro-step (41_framer R113). -/
theorem run_validate_reads {i : Instr} (hi : readsMessage i = true) (rest : List Byte) :
    ∀ (s : State) (l : List Byte), s.schedule = [] → s.status.busy = true → decode s.opl = .ok i →
      s.messageIs (l ++ rest) → s.msgLen.toNat ≤ s.caps.msgCap → s.phase = .validate l →
      stepN rest.length s = .next { s with phase := .validate (l ++ rest) } := by
  induction rest with
  | nil =>
    intro s l _ _ _ _ _ hp
    rw [List.append_nil, ← hp]
    rfl
  | cons b rest ih =>
    intro s l hs hb hd hm hcap hp
    obtain ⟨hlen, hheld⟩ := hm
    have hlt : l.length < (l ++ b :: rest).length := by simp
    have hread : s.msg.read l.length = some b := by simpa using hheld l.length hlt
    have hstep : exec i s = .next { s with phase := .validate (l ++ [b]) } :=
      (exec_validate hi hp).trans (validateStep_read (hlen ▸ hlt) (by omega) hread)
    rw [← List.singleton_append, ← List.append_assoc] at hlen hheld ⊢
    exact stepN_command hs hb hd hstep
      (ih { s with phase := .validate (l ++ [b]) } (l ++ [b]) hs hb hd ⟨hlen, hheld⟩ hcap rfl)

/-- The state in the validate phase, `l` being what it has read so far, of a command accepted in `s` (R113). -/
def State.atValidate (s : State) (i : Instr) (f : Format) (l : List Byte) : State :=
  { s.accept (encode i) with status := { statusAccepted with fmt := f }, phase := .validate l }

/-- From acceptance a command that reads the message has read it all, whether or not it contains "EOF", after the gate
and one micro-step for each byte (41_framer R113). -/
theorem stepN_accept_message_read {s : State} {i : Instr} {f : Format} {m : List Byte} (hi : readsMessage i = true)
    (hr : s.ready i) (hf : s.sniffs f) (hne : f ≠ .unsupported) (hm : s.messageIs m) :
    stepN (3 + m.length) (s.accept (encode i)) = .next (s.atValidate i f m) := by
  have hgate := run_gate (by rintro rfl; cases hi) hr hf hne
  rw [if_neg (show i ≠ .extract by rintro rfl; cases hi)] at hgate
  obtain ⟨-, hs, -, hmsg⟩ := hr
  exact stepN_trans hgate
    (run_validate_reads hi m (s.atValidate i f []) [] hs rfl (decode_encode i) hm (hmsg hi) rfl)

/-- A message with "EOF" ends a command that reads it once it is read (41_framer R113). -/
theorem stepN_accept_malformed {s : State} {i : Instr} {f : Format} {m : List Byte} (hi : readsMessage i = true)
    (hr : s.ready i) (hf : s.sniffs f) (hne : f ≠ .unsupported) (hm : s.messageIs m) (heof : containsEof m = true) :
    stepN (3 + m.length + 1) (s.accept (encode i)) =
      .next ((s.atValidate i f m).raised .malformedMessage 0#32) := by
  have ⟨_, hs, _⟩ := hr
  have hcheck : exec i (s.atValidate i f m) = .next ((s.atValidate i f m).raised .malformedMessage 0#32) :=
    (exec_validate hi rfl).trans ((validateStep_all_read (s := s.atValidate i f m) hm.1.ge).trans (if_pos heof))
  exact stepN_trans (stepN_accept_message_read hi hr hf hne hm)
    (stepN_one_command (s := s.atValidate i f m) hs rfl (decode_encode i) hcheck)

/-- A payload that does not fit the carrier ends EMBED at its capacity check, after the validate phase (R142). -/
theorem stepN_accept_insufficient {s : State} {f : Format} {m : List Byte} (hr : s.ready .embed) (hf : s.sniffs f)
    (hne : f ≠ .unsupported) (hm : s.messageIs m) (heof : containsEof m = false)
    (hsmall : s.carSize.toNat < hdr + s.nBits) :
    stepN (3 + (s.msgLen.toNat + 1) + 1) (s.accept (encode .embed)) =
      .next ((s.atCapchk .embed f m).raised .insufficientCapacity 0#32) := by
  have ⟨_, hs, _⟩ := hr
  refine stepN_trans (stepN_accept_capchk rfl hr hf hne hm heof) ?_
  rw [stepN_one, step_atCapchk hs, exec_embed_capchk rfl]
  exact if_pos hsmall

/-! ### The priority -/

/-- Settles O49: cause by cause in the order of the rule, which is the order of EMBED's phases. -/
theorem embedErrorPriority : Obligations.EmbedErrorPriority := by
  intro s f m hb hs hset hw
  by_cases hc : s.configured .embed
  swap
  · exact ⟨1, _, stepN_accept_badConfig hs hc, ⟨rfl, rfl, rfl⟩, fun _ => rfl, fun h => absurd h hc,
      fun h => absurd h hc, fun h => absurd h hc, fun h => absurd h hc⟩
  have hr : s.ready .embed := ⟨hb, hs, hc⟩
  obtain ⟨hf, hm⟩ := hset hc
  obtain rfl | hne := eq_or_ne f .unsupported
  · obtain ⟨n, b0, hrun⟩ := stepN_accept_unsupported (by decide) hr hf
    exact ⟨n, _, hrun, ⟨rfl, rfl, rfl⟩, absurd hc, fun _ _ => rfl, fun _ h => absurd rfl h, fun _ h => absurd rfl h,
      fun _ h => absurd rfl h⟩
  cases heof : containsEof m with
  | true =>
    exact ⟨_, _, stepN_accept_malformed rfl hr hf hne hm heof, ⟨rfl, rfl, rfl⟩, absurd hc, fun _ h => absurd h hne,
      fun _ _ _ => rfl, nofun, nofun⟩
  | false =>
    by_cases hfits : 200 + 8 * (m.length + 6) ≤ s.carSize.toNat
    · obtain ⟨n, c, w, -, hrun, -⟩ := stepN_accept_embedded hr hf hne hm heof hfits (hw hfits)
      exact ⟨n, _, hrun, ⟨rfl, rfl, rfl⟩, absurd hc, fun _ h => absurd h hne, nofun,
        fun _ _ _ h => absurd hfits (Nat.not_le_of_lt h), fun _ _ _ _ => rfl⟩
    · have hsmall : s.carSize.toNat < hdr + s.nBits := nBits_of_message hm ▸ Nat.lt_of_not_le hfits
      exact ⟨_, _, stepN_accept_insufficient hr hf hne hm heof hsmall, ⟨rfl, rfl, rfl⟩, absurd hc,
        fun _ h => absurd h hne, nofun, fun _ _ _ _ => rfl, fun _ _ _ h => absurd h hfits⟩

end Sys2Proof.Machine

/-! PROOFS. Every command ends (70_reset_and_hazards R211). Each micro-step leaves fewer micro-steps to follow than the
one before, so a command ends, or stops at a byte that nothing has written, within R211's number. -/

namespace Sys2Proof.Machine

/-! ### What every micro-step keeps -/

/-- No micro-step changes the host's lengths or `OVR` (70_reset_and_hazards R205, R208). -/
theorem exec_keeps_lengths_ovr {s t : State} {i : Instr} (h : exec i s = .next t) :
    t.carSize = s.carSize ∧ t.msgLen = s.msgLen ∧ t.status.ovr = s.status.ovr := by
  cases i with
  | identify => rw [(identifyFrame s t h).1]; exact ⟨rfl, rfl, rfl⟩
  | embed => rw [(embedFrame s t h).1]; exact ⟨rfl, rfl, rfl⟩
  | check => rw [(checkFrame s t h).1]; exact ⟨rfl, rfl, rfl⟩
  | extract => rw [(extractFrame s t h).1]; exact ⟨rfl, rfl, rfl⟩

/-- A write loses no byte. -/
theorem read_eq_none_of_write {m : Memory} {a x : Nat} {b : Byte} (h : (m.write a b).read x = none) :
    m.read x = none := by
  by_cases hx : x = a
  · rw [hx, read_write_same] at h
    cases h
  · rwa [read_write_other _ _ _ _ hx] at h

theorem memWrite_read_eq_none {sp sp' : Space} {a x : Nat} {v : Byte} {s t : State} {next : State → Result}
    (hn : IgnoresMems next) (h : memWrite sp a v s next = .next t) (hx : (t.mem sp').read x = none) :
    (s.mem sp').read x = none := by
  rw [memWrite_mem hn h] at hx
  split at hx
  · next hsp =>
    subst hsp
    exact read_eq_none_of_write hx
  · exact hx

/-- A micro-step loses no byte: what is unwritten after it was unwritten before. -/
theorem exec_read_eq_none {s t : State} {i : Instr} (h : exec i s = .next t) {sp : Space} {a : Nat}
    (ha : (t.mem sp).read a = none) : (s.mem sp).read a = none := by
  obtain ⟨_, _, hr⟩ | ⟨rfl, m, b, b2, hp⟩ | ⟨rfl, k, hp, hk⟩ := exec_accesses_cases i s
  · rwa [hr.mem_eq h] at ha
  · rw [exec_embed_walkWrite hp, walkWrite_eq] at h
    exact memWrite_read_eq_none (afterWalkWrite_ignoresMems m b) h ha
  · rw [exec_extract_store hp hk, scanStore_eq] at h
    split at h
    · cases h
      cases sp <;> exact ha
    · exact memWrite_read_eq_none afterScanStore_ignoresMems h ha

/-! ### The micro-steps that may still follow -/

/-- At most how many micro-steps follow the one that comes next (70_reset_and_hazards R211): a bit of the walk takes
two, a bit of a probe one, and a character of the scan nine. -/
def State.stepsAfter (s : State) (i : Instr) : Nat :=
  match s.phase with
  | .idle | .endCmd => 0
  | .decode => s.stepBound i - 1
  | .sniff none => s.stepBound i - 2
  | .sniff (some _) => s.stepBound i - 3
  | .validate m => s.stepBound i - 4 - m.length
  | .capchk _ => s.stepBound i - 5 - s.msgLen.toNat
  | .walk _ .read => 2 * (s.nBits - s.j.toNat) - 1
  | .walk _ (.write _ _) => 2 * (s.nBits - s.j.toNat) - 2
  | .probe _ next =>
    match i, next with
    | .extract, .start => s.stepBound .extract - 4
    | .extract, .read => bofBits - s.j.toNat + 9 * ((s.carSize.toNat - scanStart) / 8)
    | _, _ => s.nBits - s.j.toNat - 1
  | .scan k => 9 * ((s.carSize.toNat - s.pos.toNat) / 8) - k

theorem three_le_stepBound (s : State) (i : Instr) : 3 ≤ s.stepBound i := by
  cases i with
  | identify => exact le_rfl
  | embed | check => simp only [State.stepBound]; omega
  | extract => simp only [State.stepBound]; split <;> omega

theorem four_le_stepBound (s : State) {i : Instr} (hi : i ≠ .identify) : 4 ≤ s.stepBound i := by
  cases i with
  | identify => exact absurd rfl hi
  | embed | check => simp only [State.stepBound]; omega
  | extract => simp only [State.stepBound]; split <;> omega

theorem nBits_pos (s : State) : 0 < s.nBits := Nat.mul_pos (by decide) (Nat.succ_pos _)

/-- R211's number for a command that reads the message covers the validate phase and what comes before and after it. -/
theorem message_le_stepBound (s : State) {i : Instr} (hi : readsMessage i = true) :
    s.msgLen.toNat + 6 ≤ s.stepBound i := by
  have hbits := nBits_pos s
  cases i with
  | embed | check => simp only [State.stepBound]; omega
  | identify | extract => cases hi

/-! ### Answers that advance a command -/

/-- Nothing has written the byte, which the engine may read: of `CAR` below `CAR_SIZE`, or of `MSG` below `MSG_LEN`. -/
def State.Unwritten (s : State) (sp : Space) (a : Nat) : Prop :=
  (s.mem sp).read a = none ∧ (sp = .car ∧ a < s.carSize.toNat ∨ sp = .msg ∧ a < s.msgLen.toNat)

/-- The answer ends the command or leaves fewer than `n` micro-steps of it to follow; where it faults at an unwritten
byte, that byte is one of `P`. -/
inductive Advances (P : Space → Nat → Prop) (i : Instr) (n : Nat) : Result → Prop
  | ended (t : State) (ht : t.ended) : Advances P i n (.next t)
  | next (t : State) (hp : t.phase ≠ .idle) (hn : t.stepsAfter i < n) : Advances P i n (.next t)
  | unwritten (sp : Space) (a : Nat) (h : P sp a) : Advances P i n (.fault (.unwritten sp a))
  | otherFault (r : Fault) (hr : ∀ sp a, r ≠ .unwritten sp a) : Advances P i n (.fault r)

section
variable {P : Space → Nat → Prop} {s : State} {i : Instr} {m : List Byte} {n : Nat}

theorem advances_raised (e : ErrCode) (p : Word) : Advances P i n (.next (s.raised e p)) := .ended _ ⟨rfl, rfl, rfl⟩

theorem advances_finished : Advances P i n (.next s.finished) := .ended _ ⟨rfl, rfl, rfl⟩

theorem advances_ite {p : Prop} [Decidable p] {r u : Result} (hr : p → Advances P i n r)
    (hu : ¬ p → Advances P i n u) : Advances P i n (if p then r else u) := by
  split
  · exact hr ‹_›
  · exact hu ‹_›

theorem advances_memRead {sp : Space} {a : Nat} {next : Byte → Result}
    (ha : sp = .car ∧ a < s.carSize.toNat ∨ sp = .msg ∧ a < s.msgLen.toNat)
    (hn : ∀ b, Advances s.Unwritten i n (next b)) : Advances s.Unwritten i n (memRead sp a s next) := by
  refine advances_ite (fun _ => ?_) fun _ => .otherFault _ nofun
  split
  · exact hn _
  · next hb => exact .unwritten sp a ⟨hb, ha⟩

theorem advances_memWrite {sp : Space} {a : Nat} {v : Byte} {next : State → Result}
    (hn : Advances P i n (next (s.setMem sp ((s.mem sp).write a v)))) : Advances P i n (memWrite sp a v s next) :=
  advances_ite (fun _ => hn) fun _ => .otherFault _ nofun

theorem advances_payloadBit {j : Nat} {next : Bool → Result} (hn : ∀ w, Advances P i n (next w)) :
    Advances P i n (payloadBit m j s next) := by
  refine advances_ite (fun _ => hn _) fun _ => advances_ite (fun _ => ?_) fun _ => hn _
  split
  · exact hn _
  · exact .otherFault _ nofun

/-! ### The operations -/

theorem decodeStep_advances (i : Instr) (r : Bool) : Advances P i (s.stepBound i - 1) (decodeStep r s) := by
  have h3 := three_le_stepBound s i
  refine advances_ite (fun _ => advances_raised _ _) fun _ => advances_ite (fun _ => advances_raised _ _) fun _ =>
    .next _ nofun ?_
  change s.stepBound i - 2 < s.stepBound i - 1
  omega

theorem gateThen_advances {next : Phase} (hp : next ≠ .idle) (hn : { s with phase := next }.stepsAfter i < n) :
    Advances P i n (gateThen next s) :=
  advances_ite (fun _ => advances_raised _ _) fun _ => .next _ hp hn

theorem gateVerdict_advances (hn : i ≠ .identify → s.stepBound i - 4 < n) : Advances P i n (gateVerdict i s) := by
  cases i with
  | identify => exact advances_finished
  | embed | check | extract => exact gateThen_advances nofun (hn nofun)

/-- The gate takes two micro-steps at most, and the verdict leads on to a phase that R211 counts apart. -/
theorem sniffGate_none_advances (i : Instr) :
    Advances s.Unwritten i (s.stepBound i - 2) (sniffGate none s (gateVerdict i)) := by
  have h3 := three_le_stepBound s i
  refine advances_ite (fun h2 => advances_memRead (.inl ⟨rfl, Nat.zero_lt_of_lt h2⟩) fun b => .next _ nofun ?_)
    fun _ => gateVerdict_advances (s := s.setFmt _) fun hi => ?_
  · change s.stepBound i - 3 < s.stepBound i - 2
    omega
  · change s.stepBound i - 4 < s.stepBound i - 2
    omega

theorem sniffGate_some_advances (i : Instr) (b : Byte) (h2 : 2 ≤ s.carSize.toNat) :
    Advances s.Unwritten i (s.stepBound i - 3) (sniffGate (some b) s (gateVerdict i)) := by
  refine advances_memRead (.inl ⟨rfl, h2⟩) fun b1 => gateVerdict_advances (s := s.setFmt _) fun hi => ?_
  have h4 := four_le_stepBound s hi
  change s.stepBound i - 4 < s.stepBound i - 3
  omega

theorem validateStep_advances (hi : readsMessage i = true) (hlen : m.length ≤ s.msgLen.toNat) :
    Advances s.Unwritten i (s.stepBound i - 4 - m.length) (validateStep m s) := by
  have hbound := message_le_stepBound s hi
  refine advances_ite (fun hlt => advances_memRead (.inr ⟨rfl, hlt⟩) fun b => .next _ nofun ?_)
    fun _ => advances_ite (fun _ => advances_raised _ _) fun _ => .next _ nofun ?_
  · change s.stepBound i - 4 - (m ++ [b]).length < s.stepBound i - 4 - m.length
    rw [List.length_append, List.length_singleton]
    omega
  · change s.stepBound i - 5 - s.msgLen.toNat < s.stepBound i - 4 - m.length
    omega

theorem embedCapchk_advances : Advances P .embed (s.stepBound .embed - 5 - s.msgLen.toNat) (embedCapchk m s) := by
  have hbits := nBits_pos s
  refine advances_ite (fun _ => advances_raised _ _) fun _ => .next _ nofun ?_
  change 2 * (s.nBits - 0) - 1 < s.stepBound .embed - 5 - s.msgLen.toNat
  rw [State.stepBound]
  omega

theorem checkCapchk_advances : Advances P .check (s.stepBound .check - 5 - s.msgLen.toNat) (checkCapchk m s) := by
  have hbits := nBits_pos s
  refine advances_ite (fun _ => .next _ nofun ?_) fun _ => advances_finished
  change s.nBits - 0 - 1 < s.stepBound .check - 5 - s.msgLen.toNat
  rw [State.stepBound]
  omega

theorem walkLoop_advances (hn : s.j.toNat < s.nBits → 2 * (s.nBits - s.j.toNat) - 1 < n) :
    Advances P .embed n (walkLoop m s) :=
  advances_ite (fun hj => .next _ nofun (hn hj)) fun _ => advances_finished

theorem checkLoop_advances (hn : s.j.toNat < s.nBits → s.nBits - s.j.toNat - 1 < n) :
    Advances P .check n (checkLoop m s) :=
  advances_ite (fun hj => .next _ nofun (hn hj)) fun _ => advances_finished

/-- The walk's read leads on to the write, or to the next index (R143). -/
theorem walkRead_advances (hf : s.MessageFits .embed m) (hj : s.j.toNat < s.nBits) :
    Advances s.Unwritten .embed (2 * (s.nBits - s.j.toNat) - 1) (walkRead m s) := by
  have ⟨_, _, _, hfits⟩ := hf
  have hj1 := toNat_succ hj hf.nBits_lt
  refine advances_memRead (.inl ⟨rfl, by omega⟩) fun b => advances_payloadBit fun want =>
    advances_ite (fun _ => .next _ nofun ?_)
      fun _ => walkLoop_advances (s := { s with pos := _, j := s.j + 1#32 }) fun _ => ?_
  · change 2 * (s.nBits - s.j.toNat) - 2 < 2 * (s.nBits - s.j.toNat) - 1
    omega
  · change 2 * (s.nBits - (s.j + 1#32).toNat) - 1 < 2 * (s.nBits - s.j.toNat) - 1
    omega

theorem walkWrite_advances (b b2 : Byte) (hf : s.MessageFits .embed m) (hj : s.j.toNat < s.nBits) :
    Advances P .embed (2 * (s.nBits - s.j.toNat) - 2) (walkWrite m b b2 s) := by
  have hj1 := toNat_succ hj hf.nBits_lt
  refine advances_memWrite (walkLoop_advances
    (s := { (s.setMem .car (s.car.write (hdr + s.j.toNat) b2)).noteWrap b with j := s.j + 1#32 }) fun hmore => ?_)
  change (s.j + 1#32).toNat < s.nBits at hmore
  change 2 * (s.nBits - (s.j + 1#32).toNat) - 1 < 2 * (s.nBits - s.j.toNat) - 2
  omega

theorem checkProbe_advances (hf : s.MessageFits .check m) (hj : s.j.toNat < s.nBits) :
    Advances s.Unwritten .check (s.nBits - s.j.toNat - 1) (checkProbe m s) := by
  have ⟨_, _, _, hfits⟩ := hf
  have hj1 := toNat_succ hj hf.nBits_lt
  refine advances_memRead (.inl ⟨rfl, by omega⟩) fun b => advances_payloadBit fun want =>
    checkLoop_advances (s := { s with pos := _, eq := _, j := s.j + 1#32 }) fun hmore => ?_
  change (s.j + 1#32).toNat < s.nBits at hmore
  change s.nBits - (s.j + 1#32).toNat - 1 < s.nBits - s.j.toNat - 1
  omega

/-- The BOF probe's reads are followed by the scan's micro-steps (R155). -/
theorem bofProbe_advances (hsize : scanStart ≤ s.carSize.toNat) (hj : s.j.toNat < bofBits) :
    Advances s.Unwritten .extract (bofBits - s.j.toNat + 9 * ((s.carSize.toNat - scanStart) / 8)) (bofProbe s) := by
  have hj1 : (s.j + 1#32).toNat = s.j.toNat + 1 := toNat_succ hj (by decide)
  refine advances_memRead (.inl ⟨rfl, ?_⟩) fun b => advances_ite (fun _ => .next _ nofun ?_)
    fun _ => advances_ite (fun _ => .next _ nofun ?_) fun _ => advances_finished
  · unfold hdr scanStart bofBits at *
    omega
  · change bofBits - (s.j + 1#32).toNat + 9 * ((s.carSize.toNat - scanStart) / 8) < _
    omega
  · change 9 * ((s.carSize.toNat - scanStart) / 8) - 0 < _
    omega

theorem bofStart_advances : Advances s.Unwritten .extract (s.stepBound .extract - 4) (bofStart s) := by
  refine advances_ite (fun _ => advances_finished) fun hsize => ?_
  have hn : s.stepBound .extract - 4 = bofBits - 0 + 9 * ((s.carSize.toNat - scanStart) / 8) := by
    rw [State.stepBound, if_neg hsize, bofBits]
    omega
  rw [hn]
  exact bofProbe_advances (s := { s with eq := true, j := 0#32 }) (Nat.le_of_not_lt hsize)
    (show 0 < bofBits by decide)

theorem scanByte_advances {k : Nat} (hk : k < chunk) (hroom : s.pos.toNat + chunk ≤ s.carSize.toNat) :
    Advances s.Unwritten .extract (9 * ((s.carSize.toNat - s.pos.toNat) / 8) - k) (scanByte k s) := by
  refine advances_memRead (.inl ⟨rfl, by omega⟩) fun b => .next _ nofun ?_
  change 9 * ((s.carSize.toNat - s.pos.toNat) / 8) - (k + 1) < _
  unfold chunk at *
  omega

/-- The store of a character takes the scan to the next chunk, 8 bytes on (R160). -/
theorem scanStore_advances {k : Nat} (hk : k ≤ chunk) (hroom : s.pos.toNat + chunk ≤ s.carSize.toNat) :
    Advances P .extract (9 * ((s.carSize.toNat - s.pos.toNat) / 8) - k) (scanStore s) := by
  refine advances_ite (fun _ => advances_raised _ _) fun _ => advances_memWrite
    (advances_ite (fun _ => advances_finished) fun _ => .next _ nofun ?_)
  have hpos : (s.pos + BitVec.ofNat 32 chunk).toNat = s.pos.toNat + chunk := by
    rw [toNat_add_ofNat]
    exact Nat.mod_eq_of_lt (Nat.lt_of_le_of_lt hroom s.carSize.isLt)
  change 9 * ((s.carSize.toNat - (s.pos + BitVec.ofNat 32 chunk).toNat) / 8) - 0 < _
  rw [hpos]
  unfold chunk at *
  omega

theorem scanStep_advances {k : Nat} (hk : k ≤ chunk) (hroom : 0 < k → s.pos.toNat + chunk ≤ s.carSize.toNat) :
    Advances s.Unwritten .extract (9 * ((s.carSize.toNat - s.pos.toNat) / 8) - k) (scanStep k s) := by
  refine advances_ite (fun h0 => ?_) fun h0 => ?_
  · subst h0
    exact advances_ite (fun _ => advances_raised _ _) fun hroom =>
      scanByte_advances (s := { s with acc := 0#8 }) (by decide) (Nat.le_of_not_lt hroom)
  · have hroom := hroom (Nat.pos_of_ne_zero h0)
    exact advances_ite (fun hk => scanByte_advances hk hroom) fun _ => scanStore_advances hk hroom

end

/-! ### The commands -/

/-- Under the invariant every micro-step of a command advances it. -/
theorem exec_advances {s : State} {i : Instr} (hs : s.Inv) (hd : decode s.opl = .ok i) :
    Advances s.Unwritten i (s.stepsAfter i) (exec i s) := by
  obtain ⟨f, hf, he⟩ := exec_microOp i s.phase
  have hok := hs.phaseOk
  rw [he s rfl, State.stepsAfter]
  generalize hp : s.phase = ph at hf ⊢
  cases hf with
  | decode => exact decodeStep_advances i (readsMessage i)
  | sniff i b0 =>
    obtain ⟨-, hsize, -⟩ := (phaseOk_sniff hd hp).mp hok
    cases b0 with
    | none => exact sniffGate_none_advances i
    | some b => exact sniffGate_some_advances i b (hsize nofun)
  | validate i m hi =>
    obtain ⟨-, hlen, -⟩ := (phaseOk_validate hd hp).mp hok
    exact validateStep_advances hi hlen
  | embedCapchk m => exact embedCapchk_advances
  | checkCapchk m => exact checkCapchk_advances
  | walkRead m =>
    obtain ⟨hfits, hj, -⟩ := (phaseOk_walk hd hp).mp hok
    exact walkRead_advances hfits hj
  | walkWrite m b b2 =>
    obtain ⟨hfits, hj, -⟩ := (phaseOk_walk hd hp).mp hok
    exact walkWrite_advances b b2 hfits hj
  | checkStart m =>
    obtain ⟨hfits, hj, -⟩ := (phaseOk_checkProbe hd hp).mp hok
    exact checkProbe_advances (s := { s with eq := true }) hfits hj
  | checkRead m =>
    obtain ⟨hfits, hj, -⟩ := (phaseOk_checkProbe hd hp).mp hok
    exact checkProbe_advances hfits hj
  | bofStart m => exact bofStart_advances
  | bofRead m =>
    obtain ⟨-, -, hsize, hj⟩ := (phaseOk_bofProbe hd hp).mp hok
    exact bofProbe_advances hsize hj
  | scan k =>
    obtain ⟨-, hk, hroom⟩ := (phaseOk_scan hd hp).mp hok
    exact scanStep_advances hk hroom
  | endCmd => simp [State.phaseOk, hp] at hok
  | none => exact .otherFault _ nofun

/-! ### The runs -/

/-- After `n` steps from `s` the command has ended, or the run has stopped at a byte unwritten in `s`. -/
def State.EndsAfter (s : State) (n : Nat) : Prop :=
  (∃ t, stepN n s = .next t ∧ t.ended) ∨ ∃ sp a, stepN n s = .fault (.unwritten sp a) ∧ s.Unwritten sp a

theorem State.EndsAfter.succ {s t : State} {i : Instr} {n : Nat} (hn : t.EndsAfter n) (hstep : step s = .next t)
    (h : exec i s = .next t) : s.EndsAfter (n + 1) := by
  obtain ⟨u, hu, hended⟩ | ⟨sp, a, hu, hnone, ha⟩ := hn
  · exact .inl ⟨u, (stepN_succ n hstep).trans hu, hended⟩
  · obtain ⟨hcar, hmsg, -⟩ := exec_keeps_lengths_ovr h
    rw [hcar, hmsg] at ha
    exact .inr ⟨sp, a, (stepN_succ n hstep).trans hu, exec_read_eq_none h hnone, ha⟩

/-- A command that runs alone ends within the micro-steps its phase leaves: by induction on their number. -/
theorem exists_endsAfter {i : Instr} (s : State) (hs : s.Inv) (hb : s.status.busy = true) (hsched : s.schedule = [])
    (hd : decode s.opl = .ok i) : ∃ n, n ≤ s.stepsAfter i + 1 ∧ s.EndsAfter n := by
  have hstep := step_command hsched hb hd
  have honly := exec_unwrittenFaultOnly hs hb hd
  have hadv := exec_advances hs hd
  generalize hr : exec i s = r at hstep honly hadv
  cases hadv with
  | ended t ht => exact ⟨1, by omega, .inl ⟨t, (stepN_one s).trans hstep, ht⟩⟩
  | next t hp hfewer =>
    have ht := exec_keeps_inv hs hb hd hr
    obtain ⟨hopl, hsched'⟩ := exec_keepsCommand i s t hr
    obtain ⟨n, hn, hends⟩ := exists_endsAfter t ht (ht.busyPhase.mpr hp) (hsched'.trans hsched) (hopl ▸ hd)
    exact ⟨n + 1, by omega, hends.succ hstep hr⟩
  | unwritten sp a h => exact ⟨1, by omega, .inr ⟨sp, a, (stepN_one s).trans hstep, h⟩⟩
  | otherFault p hp =>
    cases honly with
    | unwritten sp a _ => exact absurd rfl (hp sp a)
termination_by s.stepsAfter i

/-- Settles O45: acceptance leaves one micro-step fewer to follow than R211's number. -/
theorem everyCommandEnds : Obligations.EveryCommandEnds := by
  intro s i hs hb hsched
  obtain ⟨n, hn, hends⟩ := exists_endsAfter (s.accept (encode i)) (hs.accept _) rfl hsched (decode_encode i)
  have h3 := three_le_stepBound s i
  refine ⟨n, ?_, hends⟩
  change n ≤ s.stepBound i - 1 + 1 at hn
  omega

end Sys2Proof.Machine

/-! PROOFS. A reset in the middle of EMBED's walk (70_reset_and_hazards R201, R202): while EMBED runs, the carrier is as
it was but for the bytes below the walk's index, which are adjusted. -/

namespace Sys2Proof.Machine

/-! ### The carrier in the walk -/

/-- The bytes of `c` below the walk's index `j` adjusted to `bits`, and no other changed: `c'` (43_engine R143). -/
structure AdjustedBelow (bits : List Bool) (j : Nat) (c c' : Memory) : Prop where
  adjusted : ∀ i b want, i < j → c.read (hdr + i) = some b → bits[i]? = some want →
    c'.read (hdr + i) = some (if parity b = want then b else b + 1#8)
  others : ∀ a, (a < hdr ∨ hdr + j ≤ a) → c'.read a = c.read a

section
variable {bits : List Bool} {j : Nat} {c c' c'' : Memory} {b : Byte} {want : Bool}

theorem adjustedBelow_zero (bits : List Bool) (c : Memory) : AdjustedBelow bits 0 c c :=
  ⟨fun _ _ _ hi => absurd hi (Nat.not_lt_zero _), fun _ _ => rfl⟩

/-- One bit more: the byte at the index is adjusted and no other changes. -/
theorem AdjustedBelow.succ (h : AdjustedBelow bits j c c') (hb : c'.read (hdr + j) = some b)
    (hw : bits[j]? = some want) (hsame : c''.read (hdr + j) = some (if parity b = want then b else b + 1#8))
    (hother : ∀ a, a ≠ hdr + j → c''.read a = c'.read a) : AdjustedBelow bits (j + 1) c c'' := by
  refine ⟨fun i b' want' hi hb' hw' => ?_, fun a ha => ?_⟩
  · obtain hlt | rfl := Nat.lt_succ_iff_lt_or_eq.mp hi
    · rw [hother _ (by omega), h.adjusted i b' want' hlt hb' hw']
    · rw [h.others _ (.inr le_rfl)] at hb
      obtain rfl : b = b' := Option.some.inj (hb.symm.trans hb')
      obtain rfl : want = want' := Option.some.inj (hw.symm.trans hw')
      exact hsame
  · rw [hother a (by omega), h.others a (by omega)]

/-- A byte whose parity is right is left as it is. -/
theorem AdjustedBelow.succ_keep (h : AdjustedBelow bits j c c') (hb : c'.read (hdr + j) = some b)
    (hw : bits[j]? = some want) (hp : parity b = want) : AdjustedBelow bits (j + 1) c c' :=
  h.succ hb hw (by rw [if_pos hp, hb]) fun _ _ => rfl

/-- A byte whose parity is wrong is written, incremented. -/
theorem AdjustedBelow.succ_write (h : AdjustedBelow bits j c c') (hb : c'.read (hdr + j) = some b)
    (hw : bits[j]? = some want) (hp : parity b ≠ want) :
    AdjustedBelow bits (j + 1) c (c'.write (hdr + j) (b + 1#8)) :=
  h.succ hb hw (by rw [if_neg hp, read_write_same]) fun a ha => read_write_other _ _ a _ ha

end

/-! ### EMBED's phases -/

/-- The walk's write, where it is next, is of the byte at the index, whose parity is not the payload's bit (R143). -/
def State.WriteDue (s : State) (m : List Byte) : WalkStep → Prop
  | .read => True
  | .write b b2 => s.car.read (hdr + s.j.toNat) = some b ∧ b2 = b + 1#8 ∧
      ∃ want, (payloadBits m)[s.j.toNat]? = some want ∧ parity b ≠ want

/-- What EMBED of message `m`, accepted when `CAR` was `c`, has done to `CAR` when it stands in its phase: nothing
before the walk (43_engine R140, R143), and what it has read is the beginning of `m` (41_framer R113). -/
def State.EmbedPhase (s : State) (c : Memory) (m : List Byte) : Prop :=
  match s.phase with
  | .idle => True
  | .validate l => s.car = c ∧ l <+: m
  | .capchk l => s.car = c ∧ l = m
  | .walk l next =>
    l = m ∧ s.j.toNat < s.nBits ∧ AdjustedBelow (payloadBits m) s.j.toNat c s.car ∧ s.WriteDue m next
  | _ => s.car = c

section
variable {s : State} {c : Memory} {m : List Byte}

/-- One message byte more. -/
theorem prefix_snoc {l : List Byte} {b : Byte} (hl : l <+: m) (hb : m[l.length]? = some b) : l ++ [b] <+: m := by
  obtain ⟨r, rfl⟩ := hl
  rw [List.getElem?_append_right le_rfl, Nat.sub_self] at hb
  obtain ⟨r', rfl⟩ := List.head?_eq_some_iff.mp (List.head?_eq_getElem? ▸ hb)
  exact ⟨r', by simp⟩

theorem gateThen_embedPhase (f : Format) (hcar : s.car = c) :
    LeadsTo (State.EmbedPhase · c m) (gateThen (.validate []) (s.setFmt f)) :=
  leadsTo_ite (leadsTo_next trivial) (leadsTo_next ⟨hcar, List.nil_prefix⟩)

theorem sniffGate_embedPhase (b0 : Option Byte) (hcar : s.car = c) :
    LeadsTo (State.EmbedPhase · c m) (sniffGate b0 s (gateThen (.validate []))) := by
  cases b0 with
  | none => exact leadsTo_ite (leadsTo_memRead fun _ => leadsTo_next hcar) (gateThen_embedPhase _ hcar)
  | some b => exact leadsTo_memRead fun _ => gateThen_embedPhase _ hcar

theorem validateStep_embedPhase {l : List Byte} (hm : s.messageIs m) (hcar : s.car = c) (hl : l <+: m) :
    LeadsTo (State.EmbedPhase · c m) (validateStep l s) := by
  obtain ⟨hlen, hheld⟩ := hm
  intro t h
  unfold validateStep at h
  split at h
  · next hlt =>
    obtain ⟨-, b, hb, h⟩ := memRead_next h
    cases h
    have hmb : m[l.length]? = some b := by
      rw [← hheld l.length (hlen ▸ hlt), Nat.zero_add]
      exact hb
    exact ⟨hcar, prefix_snoc hl hmb⟩
  · next hge =>
    split at h <;> cases h
    · trivial
    · exact ⟨hcar, hl.eq_of_length_le (by omega)⟩

theorem embedCapchk_embedPhase (hcar : s.car = c) : LeadsTo (State.EmbedPhase · c m) (embedCapchk m s) :=
  leadsTo_ite (leadsTo_next trivial)
    (leadsTo_next ⟨rfl, nBits_pos s, hcar ▸ adjustedBelow_zero _ _, trivial⟩)

theorem walkLoop_embedPhase (ha : AdjustedBelow (payloadBits m) s.j.toNat c s.car) :
    LeadsTo (State.EmbedPhase · c m) (walkLoop m s) := by
  intro t h
  obtain ⟨hj, he⟩ | ⟨-, he⟩ := walkLoop_cases m s <;> rw [he] at h <;> cases h
  · exact ⟨rfl, hj, ha, trivial⟩
  · trivial

variable (hm : s.messageIs m) (hlt : s.nBits < 2 ^ 32) (hj : s.j.toNat < s.nBits)
  (ha : AdjustedBelow (payloadBits m) s.j.toNat c s.car)
include hlt hj ha

theorem walkWrite_embedPhase {b b2 : Byte} (hdue : s.WriteDue m (.write b b2)) :
    LeadsTo (State.EmbedPhase · c m) (walkWrite m b b2 s) := by
  obtain ⟨hb, rfl, want, hw, hp⟩ := hdue
  have ha' := ha.succ_write hb hw hp
  rw [← toNat_succ hj hlt] at ha'
  exact leadsTo_memWrite (walkLoop_embedPhase ha')

include hm

theorem walkRead_embedPhase : LeadsTo (State.EmbedPhase · c m) (walkRead m s) := by
  intro t h
  obtain ⟨-, b, hb, h⟩ := memRead_next h
  obtain ⟨want, hw, he⟩ := payloadBit_of_message (s := { s with pos := BitVec.ofNat 32 (hdr + s.j.toNat) })
    (next := fun want => walkAdjust m b want { s with pos := BitVec.ofNat 32 (hdr + s.j.toNat) }) hm hj
  rw [he] at h
  by_cases hp : parity b = want
  · rw [walkAdjust_of_eq m _ hp] at h
    have ha' := ha.succ_keep hb hw hp
    rw [← toNat_succ hj hlt] at ha'
    exact walkLoop_embedPhase (s := { s with pos := _, j := s.j + 1#32 }) ha' t h
  · rw [walkAdjust_of_ne m _ hp] at h
    cases h
    exact ⟨rfl, hj, ha, hb, rfl, want, hw, hp⟩

end

/-! ### The run -/

section
variable {s : State} {c : Memory} {m : List Byte}

/-- A micro-step of EMBED does to `CAR` what its phase says. -/
theorem exec_embedPhase (hm : s.messageIs m) (hlt : s.nBits < 2 ^ 32) (hs : s.EmbedPhase c m) :
    LeadsTo (State.EmbedPhase · c m) (exec .embed s) := by
  obtain ⟨f, hf, he⟩ := exec_embed_microOp s.phase
  rw [he s rfl]
  unfold State.EmbedPhase at hs
  generalize s.phase = ph at hf hs
  cases hf with
  | decode =>
    exact leadsTo_ite (leadsTo_next trivial) (leadsTo_ite (leadsTo_next trivial) (leadsTo_next hs))
  | sniff _ b0 => exact sniffGate_embedPhase b0 hs
  | validate _ l =>
    obtain ⟨hcar, hl⟩ := hs
    exact validateStep_embedPhase hm hcar hl
  | embedCapchk l =>
    obtain ⟨hcar, rfl⟩ := hs
    exact embedCapchk_embedPhase hcar
  | walkRead l =>
    obtain ⟨rfl, hj, ha, -⟩ := hs
    exact walkRead_embedPhase hm hlt hj ha
  | walkWrite l b b2 =>
    obtain ⟨rfl, hj, ha, hdue⟩ := hs
    exact walkWrite_embedPhase hlt hj ha hdue
  | endCmd => exact leadsTo_next trivial
  | none => rintro t ⟨⟩

/-- EMBED of message `m`, accepted when `CAR` was `c`, runs alone or has ended. -/
structure State.EmbedsAlone (c : Memory) (m : List Byte) (s : State) : Prop where
  latched : decode s.opl = .ok .embed
  alone : s.schedule = []
  message : s.messageIs m
  phase : s.EmbedPhase c m

theorem step_embedsAlone (hlt : 8 * (m.length + 6) < 2 ^ 32) {t : State} (hs : s.EmbedsAlone c m)
    (h : step s = .next t) : t.EmbedsAlone c m := by
  have ⟨hd, hsched, hm, hphase⟩ := hs
  cases hb : s.status.busy with
  | false =>
    rw [step_idle hsched hb] at h
    cases h
    exact hs
  | true =>
    rw [step_command hsched hb hd] at h
    obtain ⟨hopl, hsched'⟩ := exec_keepsCommand .embed s t h
    refine ⟨hopl ▸ hd, hsched'.trans hsched, ?_, exec_embedPhase hm (nBits_of_message hm ▸ hlt) hphase t h⟩
    obtain ⟨ht, -⟩ := exec_embedFrame s t h
    rw [ht]
    exact hm

end

/-- A message that fits `MSG` has a payload whose bits a register can count (00_scope R10). -/
theorem State.ready.payload_lt {s : State} {m : List Byte} (hr : s.ready .embed) (hm : s.messageIs m) :
    8 * (m.length + 6) < 2 ^ 32 := by
  obtain ⟨-, -, -, hmsg⟩ := hr
  obtain ⟨hlen, -⟩ := hm
  have hfits := hmsg rfl
  have hcap := s.caps.msgSize.isLt
  unfold Caps.msgCap at hfits
  omega

/-- Settles O51: the reset keeps `CAR`, and in the walk the bytes below the index are the ones adjusted. -/
theorem resetLeavesEmbeddedPrefix : Obligations.ResetLeavesEmbeddedPrefix := by
  intro s t u m n m' next hr hm hrun hwalk hreset
  have ⟨_, hsched, _⟩ := hr
  have hstart : (s.accept (encode .embed)).EmbedsAlone s.car m := ⟨decode_encode .embed, hsched, hm, rfl⟩
  obtain ⟨-, -, -, hphase⟩ := stepN_keeps (fun _ _ => step_embedsAlone (hr.payload_lt hm)) hstart hrun
  rw [State.EmbedPhase, hwalk] at hphase
  obtain ⟨-, -, ha, -⟩ := hphase
  cases hreset
  exact ⟨rfl, rfl, fun j b want => ha.adjusted j b want, ha.others⟩

end Sys2Proof.Machine

/-! PROOFS. The host's accesses while busy and what clears `OVR` (70_reset_and_hazards R205, R207), the accesses the
model refuses (R206), reset and power-on (R200, R201), and reads of unwritten bytes (R204). -/

namespace Sys2Proof.Machine

/-! ### Ignored writes -/

section
variable {s t : State} {rest : List Turn}

/-- The registers a host can write when the block is idle (10_state R20). -/
def Reg.hostWritable : Reg → Bool
  | .cmd | .cfg | .carSize | .msgLen => true
  | .status | .outLen | .maxChars | .pos | .reserved => false

theorem writeReg_busy {r : Reg} (hb : s.status.busy = true) (hr : r.hostWritable = true) (v : Word) :
    s.writeReg r v = s.setOvr := by
  cases r with
  | cmd | cfg | carSize | msgLen => exact if_pos hb
  | status | outLen | maxChars | pos | reserved => cases hr

theorem writeReg_readOnly {r : Reg} (hr : r.hostWritable = false) (v : Word) : s.writeReg r v = s := by
  cases r with
  | cmd | cfg | carSize | msgLen => cases hr
  | status | outLen | maxChars | pos | reserved => rfl

/-- From 0x14 up no register is the host's to write. -/
theorem regAt_readOnly {a : Nat} (h : 0x14 ≤ a) : (regAt a).hostWritable = false := by
  unfold regAt
  rw [if_neg (by omega), if_neg (by omega), if_neg (by omega), if_neg (by omega), if_neg (by omega)]
  split_ifs <;> rfl

theorem regAt_eq_cmd {a : Nat} (h : regAt a = .cmd) : a = 0 := by
  unfold regAt at h
  split_ifs at h
  assumption

/-- A step whose turn is a host's memory write while busy. -/
theorem step_memWrite_busy {sp : Space} {a : Word} {b : Byte} (hb : s.status.busy = true)
    (ha : a.toNat < s.caps.size sp) (hs : s.schedule = .host (.memWrite sp a b) :: rest) :
    step s = .next { s with schedule := rest }.setOvr := by
  rw [step_turn hs, takeTurn_host, hostAccess_memWrite (s := { s with schedule := rest }) b ha]
  exact congrArg _ (if_pos hb)

/-! ### What clears `OVR` -/

theorem illegalCommand_keeps_ovr (h : illegalCommand s = .next t) : t.status.ovr = s.status.ovr := by
  unfold illegalCommand at h
  split at h <;> cases h <;> rfl

theorem engineTurn_keeps_ovr (h : engineTurn s = .next t) : t.status.ovr = s.status.ovr := by
  cases hb : s.status.busy with
  | false =>
    rw [engineTurn_idle hb] at h
    cases h
    rfl
  | true =>
    cases hd : decode s.opl with
    | ok i =>
      rw [engineTurn_command hb hd] at h
      obtain ⟨-, -, hovr⟩ := exec_keeps_lengths_ovr h
      exact hovr
    | error e =>
      rw [engineTurn_illegal hb hd] at h
      exact illegalCommand_keeps_ovr h

/-- A register write keeps `OVR` at 1 unless it is an acceptance. -/
theorem writeReg_keeps_ovr (r : Reg) (v : Word) (hovr : s.status.ovr = true) :
    (s.writeReg r v).status.ovr = true ∨ r = .cmd ∧ s.status.busy = false := by
  cases hw : r.hostWritable with
  | false => exact .inl (by rw [writeReg_readOnly hw, hovr])
  | true =>
    cases hb : s.status.busy with
    | true => exact .inl (by rw [writeReg_busy hb hw]; rfl)
    | false =>
      cases r with
      | cmd => exact .inr ⟨rfl, rfl⟩
      | cfg => exact .inl (by rw [writeReg_cfg_idle hb, hovr])
      | carSize => exact .inl (by rw [writeReg_carSize_idle hb, hovr])
      | msgLen => exact .inl (by rw [writeReg_msgLen_idle hb, hovr])
      | status | outLen | maxChars | pos | reserved => cases hw

theorem hostWrite_keeps_ovr (sp : Space) (a : Nat) (b : Byte) (hovr : s.status.ovr = true) :
    (s.hostWrite sp a b).status.ovr = true := by
  unfold State.hostWrite
  split
  · rfl
  · rw [setMem_status, hovr]

theorem hostRead_keeps_ovr {sp : Space} {a : Nat} (h : hostRead sp a s = .next t) : t.status.ovr = s.status.ovr := by
  unfold hostRead at h
  split at h
  · cases h
    rfl
  · split at h <;> cases h
    rfl

/-- The turns that may clear `OVR`: a reset, a power-on, and the write to `CMD` that an idle block accepts (R205). -/
def State.MayClearOvr (s : State) (turn : Turn) : Prop :=
  turn = .reset ∨ turn = .powerOn ∨
    ∃ p w, turn = .host (.regWrite p w) ∧ p.offset = 0x00#32 ∧ s.status.busy = false

theorem hostAccess_keeps_ovr {a : HostAccess} (h : hostAccess a s = .next t) (hovr : s.status.ovr = true) :
    t.status.ovr = true ∨ s.MayClearOvr (.host a) := by
  unfold hostAccess at h
  split at h
  · cases a with
    | regWrite p v =>
      cases h
      exact (writeReg_keeps_ovr (regAt p.offset.toNat) v hovr).imp_right fun ⟨hcmd, hb⟩ =>
        .inr (.inr ⟨p, v, rfl, BitVec.eq_of_toNat_eq (regAt_eq_cmd hcmd), hb⟩)
    | regRead p =>
      cases h
      exact .inl hovr
    | memWrite sp x b =>
      cases h
      exact .inl (hostWrite_keeps_ovr sp x.toNat b hovr)
    | memRead sp x => exact .inl ((hostRead_keeps_ovr h).trans hovr)
  · cases h

theorem takeTurn_keeps_ovr {turn : Turn} (h : takeTurn turn s = .next t) (hovr : s.status.ovr = true) :
    t.status.ovr = true ∨ s.MayClearOvr turn := by
  cases turn with
  | engine => exact .inl ((engineTurn_keeps_ovr h).trans hovr)
  | host a => exact hostAccess_keeps_ovr h hovr
  | wait =>
    cases h
    exact .inl hovr
  | secondHost a => cases h
  | reset => exact .inr (.inl rfl)
  | powerOn => exact .inr (.inr (.inl rfl))

theorem step_clears_ovr (h : step s = .next t) (hovr : s.status.ovr = true) (hclear : t.status.ovr = false) :
    ∃ turn rest, s.schedule = turn :: rest ∧ s.MayClearOvr turn := by
  cases hsched : s.schedule with
  | nil =>
    rw [step, scheduledTurn, hsched] at h
    rw [engineTurn_keeps_ovr h, hovr] at hclear
    cases hclear
  | cons turn rest =>
    rw [step_turn hsched] at h
    exact ⟨turn, rest, rfl, (takeTurn_keeps_ovr h hovr).resolve_left (Bool.eq_false_iff.mp hclear)⟩

end

/-- Settles O8: an ignored write by the register it names, and `OVR` by the turns that may clear it. -/
theorem ignoredHostWrites : Obligations.IgnoredHostWrites := by
  refine ⟨fun s rest p v hb hbytes hoff hs => ?_, fun s rest sp a b hb ha hs => step_memWrite_busy hb ha hs,
    fun s rest p v hbytes hmod hoff hs => ?_, fun s t h hovr hclear => ?_⟩
  · have hport : p.wellFormed = true ∧ (regAt p.offset.toNat).hostWritable = true := by
      rw [regPort_wellFormed_iff]
      obtain ho | ho | ho | ho := hoff <;> rw [ho] <;> exact ⟨⟨hbytes, by decide⟩, rfl⟩
    obtain ⟨hwf, hw⟩ := hport
    rw [step_regWrite hwf hs, writeReg_busy (s := { s with schedule := rest }) hb hw]
    rfl
  · have hport : p.wellFormed = true ∧ (regAt p.offset.toNat).hostWritable = false := by
      rw [regPort_wellFormed_iff]
      obtain ho | ⟨hlow, hhigh⟩ := hoff
      · rw [ho]
        exact ⟨⟨hbytes, by decide⟩, rfl⟩
      · exact ⟨⟨hbytes, hmod, hhigh⟩, regAt_readOnly hlow⟩
    obtain ⟨hwf, hw⟩ := hport
    rw [step_regWrite hwf hs, writeReg_readOnly hw]
  · obtain ⟨turn, rest, hsched, rfl | rfl | ⟨p, w, rfl, hp, hb⟩⟩ := step_clears_ovr h hovr hclear
    · exact ⟨rest, .inl hsched⟩
    · exact ⟨rest, .inr (.inl hsched)⟩
    · exact ⟨rest, .inr (.inr ⟨p, w, hsched, hp, hb⟩)⟩

/-! ### Refused accesses -/

section
variable {s : State} {rest : List Turn}

theorem step_host_refused {a : HostAccess} (hs : s.schedule = .host a :: rest) (ha : a.wellFormed s.caps = false) :
    step s = .refused (refusalOf a) := by
  rw [step_turn hs, takeTurn_host]
  exact hostAccess_refused ha

theorem regPort_wellFormed_eq_false {p : RegPort}
    (h : p.bytes ≠ 4 ∨ p.offset.toNat % 4 ≠ 0 ∨ 0x3C < p.offset.toNat) : p.wellFormed = false := by
  rw [Bool.eq_false_iff, ne_eq, regPort_wellFormed_iff]
  omega

end

/-- Settles O12: an access that is not well-formed is refused, and so is a second host's turn. -/
theorem protocolViolationsRefused : Obligations.ProtocolViolationsRefused := by
  refine fun s rest => ⟨fun p v hp => ?_, fun sp a b ha => ?_, fun a hs => ⟨_, step_turn hs⟩⟩
  · have hwf := regPort_wellFormed_eq_false hp
    exact ⟨fun hs => ⟨_, step_host_refused hs hwf⟩, fun hs => ⟨_, step_host_refused hs hwf⟩⟩
  · have hwf : decide (a.toNat < s.caps.size sp) = false := decide_eq_false (Nat.not_lt_of_le ha)
    exact ⟨fun hs => ⟨_, step_host_refused hs hwf⟩, fun hs => ⟨_, step_host_refused hs hwf⟩⟩

/-! ### Reads with a free byte, and of no byte -/

/-- Settles O13: the free byte is the one the draw count names. -/
theorem busyMemoryReadReturnsSomeByte : Obligations.BusyMemoryReadReturnsSomeByte := by
  intro s rest sp a hb ha hs
  refine ⟨Config.freeByte s.draws, ?_⟩
  rw [step_turn hs, takeTurn_host, hostAccess_memRead (s := { s with schedule := rest }) ha]
  exact if_pos hb

theorem memRead_unwritten {sp : Space} {a : Nat} {s : State} {next : Byte → Result} (ha : a < s.caps.size sp)
    (hr : (s.mem sp).read a = none) : memRead sp a s next = .fault (.unwritten sp a) := by
  rw [memRead, if_pos ha, hr]

theorem hostRead_unwritten {s : State} {sp : Space} {a : Nat} (hb : s.status.busy = false)
    (hr : (s.mem sp).read a = none) : hostRead sp a s = .fault (.unwritten sp a) := by
  simp [hostRead, hb, hr]

/-- Settles O15: the host's read while idle, and the gate's first read. -/
theorem unwrittenReadsFault : Obligations.UnwrittenReadsFault := by
  refine ⟨fun s rest sp a hb ha hr hs => ?_, fun s i hp hn hr => ?_⟩
  · rw [step_turn hs, takeTurn_host, hostAccess_memRead (s := { s with schedule := rest }) ha]
    exact hostRead_unwritten (s := { s with schedule := rest }) hb hr
  · rw [exec_sniff i hp, sniffGate, if_pos hn]
    exact memRead_unwritten (sp := .car) (Nat.zero_lt_of_lt (carCap_ge s.caps)) hr

/-! ### Reset and power-on -/

/-- Settles O7: the turn is `applyReset` or `applyPowerOn`. -/
theorem resetClearsRegistersKeepsMemory : Obligations.ResetClearsRegistersKeepsMemory :=
  fun _ _ => ⟨fun hs => step_turn hs, fun hs => step_turn hs⟩

theorem statusWord_zero : statusWord .zero = 0#32 := by decide

theorem cfgWord_false : cfgWord false = 0#32 := by decide

theorem applyReset_reset : State.reset.applyReset = State.reset := rfl

theorem step_reset {s : State} {rest : List Turn} (hs : s.schedule = .reset :: rest) :
    step s = .next { s with schedule := rest }.applyReset := step_turn hs

/-- Settles O6: the state after power-on is one that a reset leaves, too. -/
theorem resetStateIsIdleAndZero : Obligations.ResetStateIsIdleAndZero := by
  refine ⟨fun s rest hs => ⟨_, step_reset hs⟩, fun t ht => ?_⟩
  obtain ⟨s, rfl⟩ : ∃ s : State, t = s.applyReset := by
    obtain rfl | ⟨s, rest, hs, h⟩ := ht
    · exact ⟨State.reset, applyReset_reset.symm⟩
    · rw [step_reset hs] at h
      cases h
      exact ⟨_, rfl⟩
  exact ⟨⟨rfl, statusWord_zero, cfgWord_false, rfl, rfl, rfl, rfl, rfl, rfl, rfl, rfl, rfl, rfl, rfl, rfl, rfl⟩,
    fun hs => step_idle hs rfl⟩

end Sys2Proof.Machine
